-- ==== Sys2Proof/Word.lean ====
section
/-! DEFINITION. The machine's units of data (spec/00_scope.md R3): a byte is 8 bits, a word 16, a longword 32.
A general register, an address and the PC are one longword each (spec/10_state.md R10, R15, R22). -/

namespace Sys2Proof

/-- 8 bits (R3). -/
abbrev Byte := BitVec 8

/-- 16 bits: the data type `w`, a string length (R3). -/
abbrev Word16 := BitVec 16

/-- 32 bits: a register, an address, the PC, a CRC (R3, R10, R22). Addition on it is `+32`, modulo 2^32. -/
abbrev Word := BitVec 32

end Sys2Proof
end

