-- ==== Sys2Proof/Syntax.lean ====
section
/-! DEFINITION. The instructions as syntax: operand specifiers (spec/30_encoding.md R54 to R59) and the five
instructions of spec/opcode_table.json with their operands in Format order (R50 to R52). -/

namespace Sys2Proof

/-- The sixteen general registers, R12 to R15 under their other names (spec/10_state.md R13). -/
inductive Reg where
  | r0 | r1 | r2 | r3 | r4 | r5 | r6 | r7 | r8 | r9 | r10 | r11 | ap | fp | sp | pc
deriving DecidableEq, Repr

/-- A displacement as the specifier holds it: 1, 2 or 4 bytes (R55, modes A to F). -/
inductive Displacement where
  | byte (d : BitVec 8)
  | word (d : BitVec 16)
  | long (d : BitVec 32)
deriving DecidableEq, Repr

/-- The addressing modes other than index mode (R55, R58). `autoinc .pc` and `autoincDeferred .pc` are not written:
mode 8 with the PC is `immediate`, mode 9 with the PC is `absolute` (R58). -/
inductive Mode where
  /-- modes 0 to 3: a 6-bit literal -/
  | literal (v : BitVec 6)
  /-- mode 5: `Rn` -/
  | register (r : Reg)
  /-- mode 6: `(Rn)` -/
  | deferred (r : Reg)
  /-- mode 7: `-(Rn)` -/
  | autodec (r : Reg)
  /-- mode 8: `(Rn)+` -/
  | autoinc (r : Reg)
  /-- mode 9: `@(Rn)+` -/
  | autoincDeferred (r : Reg)
  /-- 8F: the datum follows, as many bytes as the operand has; held zero-extended -/
  | immediate (d : BitVec 32)
  /-- 9F: the address follows, 4 bytes -/
  | absolute (a : BitVec 32)
  /-- modes A, C, E: `d(Rn)`; with the PC the relative modes -/
  | disp (r : Reg) (d : Displacement)
  /-- modes B, D, F: `@d(Rn)` -/
  | dispDeferred (r : Reg) (d : Displacement)
deriving DecidableEq, Repr

/-- An operand specifier (R54): a mode, or index mode 4 with its base. A base that is itself in index mode raises a
fault whatever follows it (R59), so nothing more of it is held: `indexedTwice`. -/
inductive Specifier where
  | direct (m : Mode)
  | indexed (x : Reg) (base : Mode)
  | indexedTwice (x y : Reg)
deriving DecidableEq, Repr

/-- The data types of an operand (R4): byte, word, longword. -/
inductive OpSize where
  | byte | word | long
deriving DecidableEq, Repr

/-- `size` of R55: 1, 2 or 4 bytes. -/
def OpSize.bytes : OpSize → Nat
  | .byte => 1
  | .word => 2
  | .long => 4

/-- The operand notations of the five Format lines: `.rb`, `.rw`, `.rl` read, `.ab` address access (R4). -/
inductive OperandKind where
  | rb | rw | rl | ab
deriving DecidableEq, Repr

def OperandKind.size : OperandKind → OpSize
  | .rb => .byte
  | .rw => .word
  | .rl => .long
  | .ab => .byte

/-- The five instructions (R2, R51), operands in the order of the Format line (R52). -/
inductive Instr where
  /-- 0B: `tbl.ab, inicrc.rl, strlen.rw, stream.ab` -/
  | crc (tbl inicrc strlen stream : Specifier)
  /-- 2A: `len.rw, addr.ab, tbladdr.ab, mask.rb` -/
  | scanc (len addr tbladdr mask : Specifier)
  /-- 2B: `len.rw, addr.ab, tbladdr.ab, mask.rb` -/
  | spanc (len addr tbladdr mask : Specifier)
  /-- 2F: `srclen.rw, srcaddr.ab, esc.rb, tbladdr.ab, dstlen.rw, dstaddr.ab` -/
  | movtuc (srclen srcaddr esc tbladdr dstlen dstaddr : Specifier)
  /-- 3B: `char.rb, len.rw, addr.ab` -/
  | skpc (char len addr : Specifier)
deriving DecidableEq, Repr

/-- The operands with their kinds, in Format order (R52). -/
def Instr.operands : Instr → List (OperandKind × Specifier)
  | .crc tbl inicrc strlen stream => [(.ab, tbl), (.rl, inicrc), (.rw, strlen), (.ab, stream)]
  | .scanc len addr tbladdr mask => [(.rw, len), (.ab, addr), (.ab, tbladdr), (.rb, mask)]
  | .spanc len addr tbladdr mask => [(.rw, len), (.ab, addr), (.ab, tbladdr), (.rb, mask)]
  | .movtuc srclen srcaddr esc tbladdr dstlen dstaddr =>
    [(.rw, srclen), (.ab, srcaddr), (.rb, esc), (.ab, tbladdr), (.rw, dstlen), (.ab, dstaddr)]
  | .skpc char len addr => [(.rb, char), (.rw, len), (.ab, addr)]

end Sys2Proof
end

