-- ==== Sys2Proof/WellFormed.lean ====
section
/-! DEFINITION. Which terms of the syntax are the reading of some bytes (spec/30_encoding.md R55, R58). A form that
raises a reserved addressing mode fault or is UNPREDICTABLE is well-formed: its bytes decode, and its evaluation stops. -/

namespace Sys2Proof

/-- A mode as bytes give it: modes 8 and 9 with the PC are immediate and absolute (R58), and an immediate datum has
the operand's width (R58, section 4.1). -/
def Mode.wellFormed (sz : OpSize) : Mode → Bool
  | .autoinc r => r != .pc
  | .autoincDeferred r => r != .pc
  | .immediate d => d.toNat < 2 ^ (8 * sz.bytes)
  | .literal _ | .register _ | .deferred _ | .autodec _ | .absolute _ | .disp _ _ | .dispDeferred _ _ => true

def Specifier.wellFormed (sz : OpSize) : Specifier → Bool
  | .direct m => m.wellFormed sz
  | .indexed _ m => m.wellFormed sz
  | .indexedTwice _ _ => true

def Instr.wellFormed (i : Instr) : Bool := i.operands.all fun o => o.2.wellFormed o.1.size

end Sys2Proof
end

