-- ==== Sys2Proof/Decode.lean ====
section
/-! DEFINITION. Decoding the bytes of an instruction (spec/30_encoding.md R50 to R65), and the encoder. The decoder is
total on any list of bytes: it gives the instruction and the bytes after it, or says that the opcode byte is none of
the five (R60) or that the list ends inside the instruction. -/

namespace Sys2Proof

/-- The bytes a displacement takes (R55). -/
def Displacement.bytes : Displacement → Nat
  | .byte _ => 1
  | .word _ => 2
  | .long _ => 4

/-- The displacement sign-extended to 32 bits (R55). -/
def Displacement.sext : Displacement → Word
  | .byte d => d.signExtend 32
  | .word d => d.signExtend 32
  | .long d => d

/-- A mode's length in bytes, its specifier byte included (R55, R58, column "bytes"). -/
def Mode.length (sz : OpSize) : Mode → Nat
  | .immediate _ => 1 + sz.bytes
  | .absolute _ => 5
  | .disp _ d => 1 + d.bytes
  | .dispDeferred _ d => 1 + d.bytes
  | .literal _ | .register _ | .deferred _ | .autodec _ | .autoinc _ | .autoincDeferred _ => 1

/-- A specifier's length: index mode is one byte and its base (R55). -/
def Specifier.length (sz : OpSize) : Specifier → Nat
  | .direct m => m.length sz
  | .indexed _ m => 1 + m.length sz
  | .indexedTwice _ _ => 2

/-- The length of a run of specifiers. -/
def specifiersLength (l : List (OperandKind × Specifier)) : Nat :=
  (l.map fun o => o.2.length o.1.size).sum

/-- An instruction's length: the opcode byte and its specifiers (R53). -/
def Instr.length (i : Instr) : Nat := 1 + specifiersLength i.operands

/-- The register number in bits 3:0 of a specifier byte (R54, spec/10_state.md R13). -/
def Reg.number : Reg → BitVec 4
  | .r0 => 0 | .r1 => 1 | .r2 => 2 | .r3 => 3 | .r4 => 4 | .r5 => 5 | .r6 => 6 | .r7 => 7
  | .r8 => 8 | .r9 => 9 | .r10 => 10 | .r11 => 11 | .ap => 12 | .fp => 13 | .sp => 14 | .pc => 15

def Reg.ofNumber (n : BitVec 4) : Reg :=
  match n.toNat with
  | 0 => .r0 | 1 => .r1 | 2 => .r2 | 3 => .r3 | 4 => .r4 | 5 => .r5 | 6 => .r6 | 7 => .r7
  | 8 => .r8 | 9 => .r9 | 10 => .r10 | 11 => .r11 | 12 => .ap | 13 => .fp | 14 => .sp | _ => .pc

/-- Bits 7:4 of a specifier byte: the mode (R54). -/
def specifierMode (b : Byte) : BitVec 4 := b.extractLsb' 4 4

/-- Bits 3:0 of a specifier byte: the register (R54). -/
def specifierReg (b : Byte) : Reg := Reg.ofNumber (b.extractLsb' 0 4)

/-- Two bytes, least significant first (spec/20_memory.md R31). -/
def take16 : List Byte → Option (BitVec 16 × List Byte)
  | b0 :: b1 :: bs => some (b1 ++ b0, bs)
  | _ => none

/-- Four bytes, least significant first (R31). -/
def take32 : List Byte → Option (BitVec 32 × List Byte)
  | b0 :: b1 :: b2 :: b3 :: bs => some (b3 ++ (b2 ++ (b1 ++ b0)), bs)
  | _ => none

/-- The `size` bytes of an immediate datum, zero-extended (R58). -/
def takeImmediate : OpSize → List Byte → Option (BitVec 32 × List Byte)
  | .byte, b :: bs => some (b.setWidth 32, bs)
  | .byte, [] => none
  | .word, bs => (take16 bs).map fun p => (p.1.setWidth 32, p.2)
  | .long, bs => take32 bs

/-- The displacement after a specifier byte of mode A to F: 1, 2 or 4 bytes (R55). -/
def takeDisplacement : OpSize → List Byte → Option (Displacement × List Byte)
  | .byte, b :: bs => some (.byte b, bs)
  | .byte, [] => none
  | .word, bs => (take16 bs).map fun p => (.word p.1, p.2)
  | .long, bs => (take32 bs).map fun p => (.long p.1, p.2)

/-- One mode other than index mode, from its specifier byte and the bytes after it (R54, R55, R58). `none`: the list
ends too soon, or the byte is an index byte. -/
def decodeMode (sz : OpSize) (b : Byte) (bs : List Byte) : Option (Mode × List Byte) :=
  let r := specifierReg b
  match (specifierMode b).toNat with
  | 0 | 1 | 2 | 3 => some (.literal (b.extractLsb' 0 6), bs)
  | 5 => some (.register r, bs)
  | 6 => some (.deferred r, bs)
  | 7 => some (.autodec r, bs)
  | 8 => if r = .pc then (takeImmediate sz bs).map fun p => (.immediate p.1, p.2) else some (.autoinc r, bs)
  | 9 => if r = .pc then (take32 bs).map fun p => (.absolute p.1, p.2) else some (.autoincDeferred r, bs)
  | 10 => (takeDisplacement .byte bs).map fun p => (.disp r p.1, p.2)
  | 11 => (takeDisplacement .byte bs).map fun p => (.dispDeferred r p.1, p.2)
  | 12 => (takeDisplacement .word bs).map fun p => (.disp r p.1, p.2)
  | 13 => (takeDisplacement .word bs).map fun p => (.dispDeferred r p.1, p.2)
  | 14 => (takeDisplacement .long bs).map fun p => (.disp r p.1, p.2)
  | 15 => (takeDisplacement .long bs).map fun p => (.dispDeferred r p.1, p.2)
  | _ => none

/-- One operand specifier of an operand of size `sz` (R54): an index byte (mode 4) is followed by its base. -/
def decodeSpecifier (sz : OpSize) : List Byte → Option (Specifier × List Byte)
  | [] => none
  | b :: bs =>
    if specifierMode b = 4 then
      match bs with
      | [] => none
      | b' :: bs' =>
        if specifierMode b' = 4 then some (.indexedTwice (specifierReg b) (specifierReg b'), bs')
        else (decodeMode sz b' bs').map fun p => (.indexed (specifierReg b) p.1, p.2)
    else (decodeMode sz b bs).map fun p => (.direct p.1, p.2)

/-- The specifiers of operands of the given kinds, in order (R53). -/
def decodeSpecifiers : List OperandKind → List Byte → Option (List Specifier × List Byte)
  | [], bs => some ([], bs)
  | k :: ks, bs =>
    match decodeSpecifier k.size bs with
    | none => none
    | some (sp, bs') => (decodeSpecifiers ks bs').map fun p => (sp :: p.1, p.2)

/-- Why a list of bytes is no instruction. -/
inductive DecodeError where
  /-- the opcode byte is none of 0B, 2A, 2B, 2F, 3B (R60) -/
  | unspecifiedOpcode (b : Byte)
  /-- the list ends inside the instruction -/
  | truncated
deriving DecidableEq, Repr

/-- The instruction of an opcode byte and its specifiers (R51, R52). -/
def instrOf (opcode : Byte) (sps : List Specifier) : Option Instr :=
  match opcode.toNat, sps with
  | 0x0B, [tbl, inicrc, strlen, stream] => some (.crc tbl inicrc strlen stream)
  | 0x2A, [len, addr, tbladdr, mask] => some (.scanc len addr tbladdr mask)
  | 0x2B, [len, addr, tbladdr, mask] => some (.spanc len addr tbladdr mask)
  | 0x2F, [srclen, srcaddr, esc, tbladdr, dstlen, dstaddr] => some (.movtuc srclen srcaddr esc tbladdr dstlen dstaddr)
  | 0x3B, [char, len, addr] => some (.skpc char len addr)
  | _, _ => none

/-- The Format line of an opcode byte: the kinds of its operands (R51, R52), `none` for the other 251 values. -/
def formatOf (opcode : Byte) : Option (List OperandKind) :=
  match opcode.toNat with
  | 0x0B => some [.ab, .rl, .rw, .ab]
  | 0x2A => some [.rw, .ab, .ab, .rb]
  | 0x2B => some [.rw, .ab, .ab, .rb]
  | 0x2F => some [.rw, .ab, .rb, .ab, .rw, .ab]
  | 0x3B => some [.rb, .rw, .ab]
  | _ => none

/-- The decoding procedure (R65): the opcode byte, then one specifier per operand. -/
def decode : List Byte → Except DecodeError (Instr × List Byte)
  | [] => .error .truncated
  | b :: bs =>
    match formatOf b with
    | none => .error (.unspecifiedOpcode b)
    | some ks =>
      match decodeSpecifiers ks bs with
      | none => .error .truncated
      | some (sps, rest) =>
        match instrOf b sps with
        | none => .error .truncated
        | some i => .ok (i, rest)

/-- The bytes of a longword, least significant first (spec/20_memory.md R31). -/
def bytes32 (v : BitVec 32) : List Byte :=
  [v.extractLsb' 0 8, v.extractLsb' 8 8, v.extractLsb' 16 8, v.extractLsb' 24 8]

/-- The bytes of a word, least significant first (R31). -/
def bytes16 (v : BitVec 16) : List Byte := [v.extractLsb' 0 8, v.extractLsb' 8 8]

/-- A specifier byte: mode and register (R54). -/
def specifierByte (mode : BitVec 4) (r : Reg) : Byte := mode ++ r.number

def Displacement.encode : Displacement → List Byte
  | .byte d => [d]
  | .word d => bytes16 d
  | .long d => bytes32 d

/-- The mode of a displacement of each width: A, C, E (R55). -/
def Displacement.mode : Displacement → BitVec 4
  | .byte _ => 0xA
  | .word _ => 0xC
  | .long _ => 0xE

def encodeImmediate (d : BitVec 32) : OpSize → List Byte
  | .byte => [d.setWidth 8]
  | .word => bytes16 (d.setWidth 16)
  | .long => bytes32 d

/-- The bytes of a mode (R54, R55, R58). -/
def Mode.encode (sz : OpSize) : Mode → List Byte
  | .literal v => [v.setWidth 8]
  | .register r => [specifierByte 5 r]
  | .deferred r => [specifierByte 6 r]
  | .autodec r => [specifierByte 7 r]
  | .autoinc r => [specifierByte 8 r]
  | .autoincDeferred r => [specifierByte 9 r]
  | .immediate d => specifierByte 8 .pc :: encodeImmediate d sz
  | .absolute a => specifierByte 9 .pc :: bytes32 a
  | .disp r d => specifierByte d.mode r :: d.encode
  | .dispDeferred r d => specifierByte (d.mode + 1) r :: d.encode

/-- The bytes of a specifier: an index byte is mode 4 (R54, R55). -/
def Specifier.encode (sz : OpSize) : Specifier → List Byte
  | .direct m => m.encode sz
  | .indexed x m => specifierByte 4 x :: m.encode sz
  | .indexedTwice x y => [specifierByte 4 x, specifierByte 4 y]

/-- The opcode byte (R51). -/
def Instr.opcode : Instr → Byte
  | .crc _ _ _ _ => 0x0B
  | .scanc _ _ _ _ => 0x2A
  | .spanc _ _ _ _ => 0x2B
  | .movtuc _ _ _ _ _ _ => 0x2F
  | .skpc _ _ _ => 0x3B

/-- The specifiers of a run of operands, in order, with no padding (R53). -/
def encodeOperands (l : List (OperandKind × Specifier)) : List Byte :=
  l.flatMap fun o => o.2.encode o.1.size

/-- The bytes of an instruction: opcode, then its specifiers (R53). -/
def encode (i : Instr) : List Byte := i.opcode :: encodeOperands i.operands

/-- The longest instruction: MOVTUC with six specifiers of 6 bytes (an index byte, a mode byte and 4 bytes). -/
def maxInstrBytes : Nat := 37

/-- `nbits` bits of `w`, least significant byte first, and zeros up to the longest instruction. -/
def layBytes (nbits w : Nat) : List Byte :=
  (List.range maxInstrBytes).map fun k => BitVec.ofNat 8 ((w % 2 ^ nbits) / 2 ^ (8 * k))

/-- The instruction the decoder reads from bytes laid out from a table word (bit 0 is the least significant bit of the
first byte). -/
def decodeTableWord (nbits w : Nat) : Option Instr :=
  match decode (layBytes nbits w) with
  | .ok (i, _) => some i
  | .error _ => none

end Sys2Proof
end

