-- ==== Sys2Proof/Config.lean ====
section
/-! DEFINITION. The free values: `draw T` of spec/00_scope.md section 5.2, an arbitrary value "not fixed by this spec,
possibly different at every execution", used only for UNPREDICTABLE results (R8, R82, R115; notes/assumptions/6.md).
Each is an opaque constant applied to a number: nothing can evaluate it, and a claim that holds, holds whatever it is.
The step takes a fresh number for each draw from `State.draws`. -/

namespace Sys2Proof.Config

/-- A drawn byte (R82: a byte of the destination extent). -/
opaque freeByte : Nat → Byte

/-- A drawn longword (R82: R0 to R5; R115: R0). -/
opaque freeWord : Nat → Word

/-- A drawn condition code (R82: V; R115: N and Z). -/
opaque freeBit : Nat → Bool

end Sys2Proof.Config
end

