-- ==== Sys2Proof/Machine/State.lean ====
section
/-! DEFINITION. The state of the machine as plain data, the reasons a step stops, and reset (spec/10_state.md,
spec/70_reset_and_hazards.md R190). INVENTORY.md lists every field with its rule. -/

namespace Sys2Proof.Machine

/-- The general registers R0 to R14; R15 is the PC and is stored once, as `State.pc` (R13, R15). -/
structure Regs where
  r0 : Word
  r1 : Word
  r2 : Word
  r3 : Word
  r4 : Word
  r5 : Word
  r6 : Word
  r7 : Word
  r8 : Word
  r9 : Word
  r10 : Word
  r11 : Word
  ap : Word
  fp : Word
  sp : Word
deriving DecidableEq, Repr

/-- Memory: (address, byte) pairs, in the canonical form `Memory.wf` (R22; notes/assumptions/4.md). -/
abbrev Memory := List Host.Cell

/-- The kinds of access a byte may allow (spec/20_memory.md R37). -/
inductive AccessKind where
  | read | write | fetch
deriving DecidableEq, Repr

/-- A run of byte addresses from `base` upwards, modulo 2^32 (R22): a string, a table, a part of the address space. -/
structure Extent where
  base : Word
  len : Nat
deriving DecidableEq, Repr

/-- How many bits CRC shifts per step: 1, 2 or 4 (spec/41_crc.md R116). -/
inductive CrcShift where
  | one | two | four
deriving DecidableEq, Repr

/-- The parameters of the launch state (R190): fixed for a run, changed by no step. -/
structure Platform where
  /-- `Accessible(addr, kind)` is false exactly on these extents (R37) -/
  denied : List (AccessKind × Extent)
  /-- `code_range`: the byte addresses holding the program (R43) -/
  codeRange : List Extent
  /-- `crc_shift` (R116) -/
  crcShift : CrcShift
  /-- `end_pc`: where a run ends (R192); read by `Safety.run`, never by `step` -/
  endPc : Option Word
deriving DecidableEq, Repr

structure State where
  regs : Regs
  /-- the program counter, R15 (R15) -/
  pc : Word
  /-- the processor status longword, whole (R18, R20) -/
  psl : Word
  mem : Memory
  platform : Platform
  /-- the model's own: how many values have been drawn (notes/assumptions/6.md) -/
  draws : Nat
deriving DecidableEq, Repr

/-- How a run ends in an exception: R160's codes with the information R160 records. Terminal (R169). -/
inductive Fault where
  /-- Raised by the length check of decimal string operands, which no admitted instruction makes (R161). Safe: the
  run stops, as the spec says. -/
  | reservedOperand (pcOfOpcode : Word)
  /-- Raised by `MemRead`, `MemWrite` and instruction fetch on a byte that is not accessible (R162). `mem` is memory
  with the stores made before the exception (R162, R169). Safe: the run stops, as the spec says. -/
  | accessViolation (pcOfOpcode : Word) (addr : Word) (kind : AccessKind) (mem : Memory)
  /-- Raised by the evaluation of an operand specifier its operand does not allow (R163). Safe: the run stops, as the
  spec says. -/
  | reservedAddressingMode (pcOfOpcode : Word)
  /-- Raised after a decimal string instruction overflows with DV set (R164), which no admitted instruction does.
  Safe: the run stops. -/
  | decimalOverflow
deriving DecidableEq, Repr

/-- The spec's `refuse`: "not specified here", never a behaviour of the hardware (spec/00_scope.md section 5.2).
Each is safe: nothing is claimed of the machine past it. -/
inductive Refusal where
  /-- Raised by an arm of `exec` whose instruction has no meaning yet: none. -/
  | notModelled (mnemonic : String)
  /-- Raised at the start of a step and of an instruction when first part done is set (R19). -/
  | firstPartDone
  /-- Raised by decoding: an opcode byte other than the five (R60). -/
  | unspecifiedOpcode (opcode : Byte)
  /-- Raised by specifier evaluation: the PC in register, register deferred or autodecrement mode (R58). -/
  | unpredictablePcMode
  /-- Raised by specifier evaluation: an immediate base under index mode (R59). -/
  | unpredictableIndexedImmediate
  /-- Raised by specifier evaluation: an index register that its base mode modifies (R59). -/
  | unpredictableIndexRegister
  /-- Raised by MOVTUC's store to a byte of `code_range` (R43). -/
  | storeIntoCode (addr : Word)
deriving DecidableEq, Repr

/-- The machine at reset. The source states no reset value for anything (R24, R190); first part done is 0 (R19). Every
other value is the model's: notes/assumptions/1.md to 6.md. -/
def State.reset : State where
  regs := { r0 := 0, r1 := 0, r2 := 0, r3 := 0, r4 := 0, r5 := 0, r6 := 0, r7 := 0, r8 := 0, r9 := 0, r10 := 0,
            r11 := 0, ap := 0, fp := 0, sp := 0 }
  pc := 0
  psl := 0
  mem := []
  platform := { denied := [], codeRange := [], crcShift := .one, endPc := none }
  draws := 0

end Sys2Proof.Machine
end

