-- ==== Sys2Proof/Machine/Flags.lean ====
section
/-! DEFINITION. The processor status longword and the condition codes (spec/10_state.md R16 to R20), and the
comparisons that give them (spec/00_scope.md R5). -/

namespace Sys2Proof.Machine

/-- The four condition codes (R16). -/
structure Codes where
  n : Bool
  z : Bool
  v : Bool
  c : Bool
deriving DecidableEq, Repr

/-- PSL bit positions of R20. -/
def pslC (psl : Word) : Bool := psl.getLsbD 0
def pslV (psl : Word) : Bool := psl.getLsbD 1
def pslZ (psl : Word) : Bool := psl.getLsbD 2
def pslN (psl : Word) : Bool := psl.getLsbD 3
def pslDV (psl : Word) : Bool := psl.getLsbD 7
def pslFPD (psl : Word) : Bool := psl.getLsbD 27

/-- The four codes as bits 3:0 of the PSL: N Z V C (R20). -/
def Codes.bits (k : Codes) : BitVec 4 :=
  BitVec.ofBool k.n ++ (BitVec.ofBool k.z ++ (BitVec.ofBool k.v ++ BitVec.ofBool k.c))

/-- The PSL with the four condition codes replaced and every other field as it was (R16, R20). -/
def pslWithCodes (psl : Word) (k : Codes) : Word := psl.extractLsb' 4 28 ++ k.bits

/-- The condition codes a PSL holds. -/
def codesOf (psl : Word) : Codes := { n := pslN psl, z := pslZ psl, v := pslV psl, c := pslC psl }

/-- First part done (R19). -/
def State.fpd (s : State) : Bool := pslFPD s.psl

def State.setCodes (s : State) (k : Codes) : State := { s with psl := pslWithCodes s.psl k }

def State.codes (s : State) : Codes := codesOf s.psl

/-- SCANC, SKPC, SPANC: Z tests the final R0, the others are cleared (R16). -/
def scanCodes (r0 : Word) : Codes := { n := false, z := r0 == 0, v := false, c := false }

/-- CRC: N is bit 31 of R0 (`R0 LSS 0`), Z tests it, V and C are cleared (R16, R5). -/
def crcCodes (r0 : Word) : Codes := { n := r0.getLsbD 31, z := r0 == 0, v := false, c := false }

/-- MOVTUC: N, Z, C compare the length operands, signed, for equality, unsigned; V is given (R16, R81). -/
def movtucCodes (srclen dstlen : Word16) (v : Bool) : Codes :=
  { n := srclen.slt dstlen, z := srclen == dstlen, v := v, c := srclen.ult dstlen }

end Sys2Proof.Machine
end

