-- ==== Sys2Proof/Machine/Ops.lean ====
section
/-! DEFINITION. The operations every meaning is written over: memory (spec/20_memory.md R30 to R37), registers
(spec/10_state.md R13, R15), draws (spec/00_scope.md section 5.2), and taking an exception (spec/60_exceptions.md R169). -/

namespace Sys2Proof.Machine

/-! ### Bytes of memory -/

/-- What an address nothing has written reads as (notes/assumptions/4.md, DESIGN CHOICE, unsafe). -/
def unlistedByte : Byte := 0

def Memory.get : Memory → Nat → Byte
  | [], _ => unlistedByte
  | c :: m, a => if c.1 = a then c.2 else Memory.get m a

/-- Put a pair in its place in a sorted list that does not hold its address. -/
def Memory.insert (m : Memory) (a : Nat) (b : Byte) : Memory :=
  match m with
  | [] => [(a, b)]
  | c :: m' => if a < c.1 then (a, b) :: c :: m' else c :: Memory.insert m' a b

/-- Write one byte, keeping the canonical form: a byte equal to what an unlisted address reads as is not listed. -/
def Memory.set (m : Memory) (a : Nat) (b : Byte) : Memory :=
  let m' := m.filter fun c => c.1 != a
  if b = unlistedByte then m' else Memory.insert m' a b

/-- The canonical form: addresses strictly rising and within the 2^32 of R22, and no entry equal to what an unlisted
address reads as. -/
abbrev Memory.wf (m : Memory) : Prop :=
  (m.map Prod.fst).Pairwise (· < ·) ∧ ∀ c ∈ m, c.2 ≠ unlistedByte ∧ c.1 < 2 ^ 32

/-- The `n` bytes from an address upwards, modulo 2^32, least significant first (R30, R31). -/
def Memory.readLE (m : Memory) (a : Word) : Nat → Word
  | 0 => 0
  | n + 1 => (m.get a.toNat).setWidth 32 ||| (Memory.readLE m (a + 1) n <<< 8)

/-- Store the low `n` bytes of a value, least significant first (R30, R31). -/
def Memory.writeLE (m : Memory) (a : Word) (v : Word) : Nat → Memory
  | 0 => m
  | n + 1 => Memory.writeLE (m.set a.toNat (v.setWidth 8)) (a + 1) (v >>> 8) n

/-! ### Extents and access -/

/-- Address `a` is one of the `len` byte addresses from `base`, modulo 2^32 (spec/40_character_string.md R82). -/
def Extent.contains (e : Extent) (a : Word) : Bool := decide ((a - e.base).toNat < e.len)

/-- Two extents share a byte address; an empty one overlaps nothing (R82). -/
def Extent.overlaps (e f : Extent) : Bool :=
  decide (0 < e.len) && decide (0 < f.len) && (e.contains f.base || f.contains e.base)

/-- `Accessible(addr, kind)` (R37). -/
def Platform.accessible (p : Platform) (a : Word) (k : AccessKind) : Bool :=
  p.denied.all fun d => !(d.1 == k && d.2.contains a)

/-- The byte belongs to the program (R43). -/
def Platform.inCode (p : Platform) (a : Word) : Bool := p.codeRange.any fun e => e.contains a

/-! ### Stopping: exceptions and refusals -/

/-- An exception with its information, before the PC of the opcode is added (R160). -/
inductive Exception where
  | reservedOperand
  | accessViolation (addr : Word) (kind : AccessKind)
  | reservedAddressingMode
  | decimalOverflow
deriving DecidableEq, Repr

/-- Why a computation stops: an exception, with memory as it stands then, or a refusal. -/
inductive Stop where
  | exception (e : Exception) (mem : Memory)
  | refusal (r : Refusal)
deriving DecidableEq, Repr

/-- A computation that may stop. -/
abbrev Res (α : Type) := Except Stop α

/-- `raise E` (spec/00_scope.md section 5.2). -/
def raise {α : Type} (s : State) (e : Exception) : Res α := .error (.exception e s.mem)

/-- `refuse` (spec/00_scope.md section 5.2). -/
def refuse {α : Type} (r : Refusal) : Res α := .error (.refusal r)

/-- TAKING AN EXCEPTION (R169): the run ends in `Fault(code, pc_of_opcode, info)`, the PC being the address of the
opcode (R161 to R163) and memory keeping the stores made before. No handler runs and there is no return (R170). -/
def takeException (pcOfOpcode : Word) (e : Exception) (mem : Memory) : Host.Outcome State Fault Refusal :=
  match e with
  | .reservedOperand => .fault (.reservedOperand pcOfOpcode)
  | .accessViolation a k => .fault (.accessViolation pcOfOpcode a k mem)
  | .reservedAddressingMode => .fault (.reservedAddressingMode pcOfOpcode)
  | .decimalOverflow => .fault .decimalOverflow

/-- The outcome of an instruction whose opcode stands at `pcOfOpcode`. -/
def conclude (pcOfOpcode : Word) : Res State → Host.Outcome State Fault Refusal
  | .ok t => .next t
  | .error (.exception e mem) => takeException pcOfOpcode e mem
  | .error (.refusal r) => .refused r

/-! ### Registers -/

/-- `R[i]`: read a general register, R15 being the PC (R13, R15). -/
def State.reg (s : State) : Reg → Word
  | .r0 => s.regs.r0 | .r1 => s.regs.r1 | .r2 => s.regs.r2 | .r3 => s.regs.r3
  | .r4 => s.regs.r4 | .r5 => s.regs.r5 | .r6 => s.regs.r6 | .r7 => s.regs.r7
  | .r8 => s.regs.r8 | .r9 => s.regs.r9 | .r10 => s.regs.r10 | .r11 => s.regs.r11
  | .ap => s.regs.ap | .fp => s.regs.fp | .sp => s.regs.sp | .pc => s.pc

/-- `R[i] <- v`. -/
def State.setReg (s : State) (r : Reg) (v : Word) : State :=
  match r with
  | .r0 => { s with regs := { s.regs with r0 := v } }
  | .r1 => { s with regs := { s.regs with r1 := v } }
  | .r2 => { s with regs := { s.regs with r2 := v } }
  | .r3 => { s with regs := { s.regs with r3 := v } }
  | .r4 => { s with regs := { s.regs with r4 := v } }
  | .r5 => { s with regs := { s.regs with r5 := v } }
  | .r6 => { s with regs := { s.regs with r6 := v } }
  | .r7 => { s with regs := { s.regs with r7 := v } }
  | .r8 => { s with regs := { s.regs with r8 := v } }
  | .r9 => { s with regs := { s.regs with r9 := v } }
  | .r10 => { s with regs := { s.regs with r10 := v } }
  | .r11 => { s with regs := { s.regs with r11 := v } }
  | .ap => { s with regs := { s.regs with ap := v } }
  | .fp => { s with regs := { s.regs with fp := v } }
  | .sp => { s with regs := { s.regs with sp := v } }
  | .pc => { s with pc := v }

/-- The PC moves past `n` bytes, modulo 2^32 (R15). -/
def State.advance (s : State) (n : Nat) : State := { s with pc := s.pc + BitVec.ofNat 32 n }

/-! ### Memory access -/

/-- Every byte of the access is checked, in address order, before any is touched (R30, R37). -/
def checkAccess (s : State) (k : AccessKind) (a : Word) : Nat → Res Unit
  | 0 => .ok ()
  | n + 1 => if s.platform.accessible a k then checkAccess s k (a + 1) n else raise s (.accessViolation a k)

/-- `MemRead(a, n)` (R30, R31), n = 1, 2 or 4. -/
def memRead (s : State) (a : Word) (n : Nat) : Res Word :=
  match checkAccess s .read a n with
  | .ok () => .ok (s.mem.readLE a n)
  | .error e => .error e

/-- `MemRead(a, 1)`: a byte of a string or of a 256-byte table (R34). -/
def readByte (s : State) (a : Word) : Res Byte :=
  if s.platform.accessible a .read then .ok (s.mem.get a.toNat) else raise s (.accessViolation a .read)

/-- A store that would touch a byte of `code_range` is refused (R43). -/
def checkCode (s : State) (a : Word) : Nat → Res Unit
  | 0 => .ok ()
  | n + 1 => if s.platform.inCode a then refuse (.storeIntoCode a) else checkCode s (a + 1) n

/-- `MemWrite(a, n, v)` (R30, R31, R43), n = 1, 2 or 4: all bytes are checked, then all are written. -/
def memWrite (s : State) (a : Word) (n : Nat) (v : Word) : Res State :=
  match checkAccess s .write a n with
  | .error e => .error e
  | .ok () =>
    match checkCode s a n with
    | .error e => .error e
    | .ok () => .ok { s with mem := s.mem.writeLE a v n }

/-! ### Draws -/

/-- `draw` a byte into memory at each address of an extent (R82), each with a fresh number. -/
def drawBytes (s : State) (a : Word) : Nat → State
  | 0 => s
  | n + 1 =>
    drawBytes { s with mem := s.mem.set a.toNat (Config.freeByte s.draws), draws := s.draws + 1 } (a + 1) n

/-- `R[i] <- draw` (R82, R115). -/
def drawReg (s : State) (r : Reg) : State :=
  { s.setReg r (Config.freeWord s.draws) with draws := s.draws + 1 }

/-- `draw` a condition code: its value and the state with the number used up. -/
def drawBit (s : State) : Bool × State := (Config.freeBit s.draws, { s with draws := s.draws + 1 })

/-! ### The start of an instruction -/

/-- With first part done set the state has no meaning (R19); otherwise the PC moves past the opcode byte (R15). -/
def beginInstr (s : State) : Res State := if s.fpd then refuse .firstPartDone else .ok (s.advance 1)

end Sys2Proof.Machine
end

