-- ==== Sys2Proof/Machine/Operands.lean ====
section
/-! DEFINITION. Operand specifiers evaluated (spec/30_encoding.md R54 to R59, R62): each mode's address and side effect,
the value an operand delivers, and the stops of reserved and UNPREDICTABLE forms. -/

namespace Sys2Proof

/-- Register, register deferred and autodecrement mode with the PC are UNPREDICTABLE (R58). -/
def Mode.unpredictablePc : Mode → Bool
  | .register r | .deferred r | .autodec r => r == .pc
  | .literal _ | .autoinc _ | .autoincDeferred _ | .immediate _ | .absolute _ | .disp _ _ | .dispDeferred _ _ => false

/-- The base modes index mode may not have: short literal and register (R59; a base in index mode is `indexedTwice`). -/
def Mode.reservedBase : Mode → Bool
  | .literal _ | .register _ => true
  | .deferred _ | .autodec _ | .autoinc _ | .autoincDeferred _ | .immediate _ | .absolute _ | .disp _ _
  | .dispDeferred _ _ => false

/-- The register a mode writes as its side effect (R55, modes 7, 8, 9). -/
def Mode.modifies : Mode → Option Reg
  | .autodec r | .autoinc r | .autoincDeferred r => some r
  | .literal _ | .register _ | .deferred _ | .immediate _ | .absolute _ | .disp _ _ | .dispDeferred _ _ => none

def Specifier.modifies : Specifier → Option Reg
  | .direct m => m.modifies
  | .indexed _ m => m.modifies
  | .indexedTwice _ _ => none

/-- The registers an instruction's specifiers write as side effects (R62). -/
def Instr.specifierWrites (i : Instr) : List Reg := i.operands.filterMap fun o => o.2.modifies

/-- The registers the body of an instruction writes (spec/10_state.md R11). -/
def Instr.resultRegs : Instr → List Reg
  | .crc _ _ _ _ => [.r0, .r1, .r2, .r3]
  | .scanc _ _ _ _ => [.r0, .r1, .r2, .r3]
  | .spanc _ _ _ _ => [.r0, .r1, .r2, .r3]
  | .movtuc _ _ _ _ _ _ => [.r0, .r1, .r2, .r3, .r4, .r5]
  | .skpc _ _ _ => [.r0, .r1]

/-- A specifier with no address: short literal or register mode (R56). -/
def Specifier.noAddress : Specifier → Bool
  | .direct m => m.reservedBase
  | .indexed _ _ | .indexedTwice _ _ => false

/-- A specifier that raises the reserved addressing mode fault for an operand of this kind (R56, R58, R59;
spec/60_exceptions.md R163). -/
def Specifier.reserved (k : OperandKind) : Specifier → Bool
  | .direct m => k == .ab && m.reservedBase
  | .indexed x m => x == .pc || m.reservedBase
  | .indexedTwice _ _ => true

/-- A specifier whose effect is UNPREDICTABLE (R58, R59): the PC in modes 5, 6, 7; an immediate base under index mode;
an index register its base modifies. -/
def Specifier.unpredictable : Specifier → Bool
  | .direct m => m.unpredictablePc
  | .indexed x m =>
    m.unpredictablePc || m.modifies == some x || (match m with | .immediate _ => true | _ => false)
  | .indexedTwice _ _ => false

def Specifier.legal (k : OperandKind) (sp : Specifier) : Bool := !sp.reserved k && !sp.unpredictable

def Instr.legal (i : Instr) : Bool := i.operands.all fun o => o.2.legal o.1

end Sys2Proof

namespace Sys2Proof.Machine

/-- What a mode gives (R55): a value with no address, an address, or an immediate datum with its address. -/
inductive Place where
  | value (v : Word)
  | address (ea : Word)
  | immediate (ea : Word) (d : Word)
deriving DecidableEq, Repr

/-- `size` as a longword. -/
def sizeWord (sz : OpSize) : Word := BitVec.ofNat 32 sz.bytes

/-- A mode other than index mode, the PC already past the whole specifier (R55, R58). -/
def evalMode (sz : OpSize) (m : Mode) (s : State) : Res (Place × State) :=
  match m with
  | .literal v => .ok (.value (v.setWidth 32), s)
  | .register r => if r = .pc then refuse .unpredictablePcMode else .ok (.value (s.reg r), s)
  | .deferred r => if r = .pc then refuse .unpredictablePcMode else .ok (.address (s.reg r), s)
  | .autodec r =>
    if r = .pc then refuse .unpredictablePcMode
    else .ok (.address (s.reg r - sizeWord sz), s.setReg r (s.reg r - sizeWord sz))
  | .autoinc r => .ok (.address (s.reg r), s.setReg r (s.reg r + sizeWord sz))
  | .autoincDeferred r => do
    let p ← memRead s (s.reg r) 4
    .ok (.address p, s.setReg r (s.reg r + 4))
  | .immediate d => .ok (.immediate (s.pc - sizeWord sz) d, s)
  | .absolute a => do
    let _ ← checkAccess s .read (s.pc - 4) 4
    .ok (.address a, s)
  | .disp r d => .ok (.address (s.reg r + d.sext), s)
  | .dispDeferred r d => do
    let p ← memRead s (s.reg r + d.sext) 4
    .ok (.address p, s)

/-- The address of a base under index mode; the other places do not occur there (R59). -/
def Place.baseAddress : Place → Word
  | .value v => v
  | .address ea => ea
  | .immediate ea _ => ea

/-- The stops of index mode, in the order the specifier is read: the index byte, then the base (R58, R59). -/
def checkIndexed (x : Reg) (m : Mode) (s : State) : Res Unit :=
  if x = .pc ∨ m.reservedBase then raise s .reservedAddressingMode
  else if m.unpredictablePc then refuse .unpredictablePcMode
  else if m.modifies = some x then refuse .unpredictableIndexRegister
  else
    match m with
    | .immediate _ => refuse .unpredictableIndexedImmediate
    | .literal _ | .register _ | .deferred _ | .autodec _ | .autoinc _ | .autoincDeferred _ | .absolute _ | .disp _ _
    | .dispDeferred _ _ => .ok ()

/-- A whole specifier (R54, R55): the PC moves past it, then it is evaluated. Index mode adds `size` times the index
register to the base's address, modulo 2^32 (R59). Its own stops come before the base's pointer is read: R167 gives no
order within one specifier (DESIGN CHOICE, notes/assumptions/11.md). -/
def evalSpecifier (sz : OpSize) (sp : Specifier) (s : State) : Res (Place × State) :=
  let s := s.advance (sp.length sz)
  match sp with
  | .direct m => evalMode sz m s
  | .indexed x m => do
    let _ ← checkIndexed x m s
    let (p, t) ← evalMode sz m s
    .ok (.address (p.baseAddress + sizeWord sz * t.reg x), t)
  | .indexedTwice _ _ => raise s .reservedAddressingMode

/-- A read operand (R56, R57): the value itself, or `MemRead(EA, size)`. Only the low `8 x size` bits are the
operand's. -/
def readOperand (sz : OpSize) (sp : Specifier) (s : State) : Res (Word × State) := do
  let (p, t) ← evalSpecifier sz sp s
  match p with
  | .value v => .ok (v, t)
  | .address ea => do
    let v ← memRead t ea sz.bytes
    .ok (v, t)
  | .immediate ea d => do
    let _ ← checkAccess t .read ea sz.bytes
    .ok (d, t)

/-- An address operand (R56): EA itself, memory at EA not accessed; short literal and register mode raise the reserved
addressing mode fault (spec/60_exceptions.md R163). -/
def addressOperand (sp : Specifier) (s : State) : Res (Word × State) :=
  if sp.noAddress then raise s .reservedAddressingMode
  else do
    let (p, t) ← evalSpecifier .byte sp s
    .ok (p.baseAddress, t)

/-- One operand of each kind, as a longword. -/
def evalOperand (k : OperandKind) (sp : Specifier) (s : State) : Res (Word × State) :=
  match k with
  | .rb => do let (v, t) ← readOperand .byte sp s; .ok ((v.setWidth 8).setWidth 32, t)
  | .rw => do let (v, t) ← readOperand .word sp s; .ok ((v.setWidth 16).setWidth 32, t)
  | .rl => readOperand .long sp s
  | .ab => addressOperand sp s

/-- The operands of an instruction, left to right, each with its side effects completed before the next begins (R62). -/
def evalOperands : List (OperandKind × Specifier) → State → Res (List Word × State)
  | [], s => .ok ([], s)
  | o :: os, s => do
    let (v, t) ← evalOperand o.1 o.2 s
    let (vs, u) ← evalOperands os t
    .ok (v :: vs, u)

end Sys2Proof.Machine
end

