-- ==== Sys2Proof/Machine/Crc.lean ====
section
/-! DEFINITION. CRC (spec/41_crc.md R110 to R121): the bit-serial algorithm, the table and its well-formedness, the
step sizes, and the instruction. -/

namespace Sys2Proof.Machine

/-! ### The polynomial and its table -/

/-- One shift of R110 and R113: right by one bit, and XOR with the polynomial when the bit lost is 1. -/
def crcShiftBit (poly v : Word) : Word :=
  if v.getLsbD 0 then (v >>> 1) ^^^ poly else v >>> 1

/-- A byte XORed into the rightmost 8 bits (R110). -/
def crcInclude (crc : Word) (b : Byte) : Word := crc ^^^ b.setWidth 32

/-- A byte included by the algorithm in words, eight single shifts (R110). -/
def crcByteSerial (poly crc : Word) (b : Byte) : Word := (crcShiftBit poly)^[8] (crcInclude crc b)

/-- A string of bytes, first to last (R110). -/
def crcSerial (poly crc : Word) (bs : List Byte) : Word := bs.foldl (crcByteSerial poly) crc

/-- Entry `k` of the table the routine of R113 builds: four shifts of the index. -/
def crcTableEntry (poly : Word) (k : Nat) : Word := (crcShiftBit poly)^[4] (BitVec.ofNat 32 k)

/-- R117: bit `order - 1 - e` is the coefficient of `x^e`; the exponents listed are those below `x^order`. -/
def crcPolynomial (order : Nat) (exponents : List Nat) : Word :=
  (exponents.map fun e => (1 : Word) <<< (order - 1 - e)).foldl (· ||| ·) 0

/-- Entry `k` of the table in memory: the longword at `tbl +32 4k` (R111). -/
def crcEntry (m : Memory) (tbl : Word) (k : Nat) : Word := m.readLE (tbl + BitVec.ofNat 32 (4 * k)) 4

/-- The table in memory is the one R113 builds for the polynomial in its entry 8 (R114). -/
def crcWellFormed (m : Memory) (tbl : Word) : Bool :=
  (List.range 16).all fun k => crcEntry m tbl k == crcTableEntry (crcEntry m tbl 8) k

/-! ### The step sizes (R116) -/

/-- Shift `s`. -/
def CrcShift.bits : CrcShift → Nat
  | .one => 1 | .two => 2 | .four => 4

/-- Steps per byte, `limit`. -/
def CrcShift.limit : CrcShift → Nat
  | .one => 8 | .two => 4 | .four => 2

/-- Table index multiplier, `i`. -/
def CrcShift.multiplier : CrcShift → Nat
  | .one => 8 | .two => 4 | .four => 1

/-- One step: index the table with the low `s` bits, shift right by `s`, XOR the entry (R111). -/
def crcStep (sh : CrcShift) (entry : Nat → Word) (crc : Word) : Word :=
  (crc >>> sh.bits) ^^^ entry (sh.multiplier * (crc.toNat % 2 ^ sh.bits))

/-- A byte included by table steps (R111). -/
def crcByte (sh : CrcShift) (entry : Nat → Word) (crc : Word) (b : Byte) : Word :=
  (crcStep sh entry)^[sh.limit] (crcInclude crc b)

/-! ### The instruction -/

/-- The loop of R111: `n` bytes are left, the next at `a`. The table's 64 bytes are readable (R116). -/
def crcString (s : State) (tbl : Word) : Nat → Word → Word → Res Word
  | 0, _, crc => .ok crc
  | n + 1, a, crc => do
    let b ← readByte s a
    crcString s tbl n (a + 1) (crcByte s.platform.crcShift (crcEntry s.mem tbl) crc b)

/-- R1, R2 and R3 after CRC: 0, 0, the address one byte past the string (R111). -/
def setCrcRest (s : State) (strlen : Word16) (stream : Word) : State :=
  ((s.setReg .r1 0).setReg .r2 0).setReg .r3 (stream + strlen.setWidth 32)

/-- The result of R111: R0 and the condition codes it gives. -/
def crcResult (s : State) (strlen : Word16) (stream crc : Word) : State :=
  (setCrcRest (s.setReg .r0 crc) strlen stream).setCodes (crcCodes crc)

/-- The result for a table that is not well-formed: R0, N and Z are drawn, independently (R115). -/
def drawnCrcResult (s : State) (strlen : Word16) (stream : Word) : State :=
  let s := drawReg s .r0
  let (n, s) := drawBit s
  let (z, s) := drawBit s
  (setCrcRest s strlen stream).setCodes { n := n, z := z, v := false, c := false }

/-- CRC on evaluated operands. A zero length reads nothing (R112 item 1). Otherwise the whole table must be readable
before any string byte is read (R116), the string is read (R111), and the result is drawn when the table is not
well-formed (R115; notes/assumptions/17.md). Of several unreadable table bytes the one at the lowest offset is named: the
spec gives the check no order (DESIGN CHOICE, notes/assumptions/29.md). -/
def crcBody (tbl inicrc : Word) (strlen : Word16) (stream : Word) (s : State) : Res State :=
  if strlen = 0 then .ok (crcResult s strlen stream inicrc)
  else do
    let _ ← checkAccess s .read tbl 64
    let crc ← crcString s tbl strlen.toNat stream inicrc
    if crcWellFormed s.mem tbl then .ok (crcResult s strlen stream crc)
    else .ok (drawnCrcResult s strlen stream)

/-- CRC `tbl.ab, inicrc.rl, strlen.rw, stream.ab` (R111). -/
def execCrc (tbl inicrc strlen stream : Specifier) (s : State) : Host.Outcome State Fault Refusal :=
  conclude s.pc do
    let s0 ← beginInstr s
    let (t, s1) ← evalOperand .ab tbl s0
    let (c, s2) ← evalOperand .rl inicrc s1
    let (n, s3) ← evalOperand .rw strlen s2
    let (a, s4) ← evalOperand .ab stream s3
    crcBody t c (n.setWidth 16) a s4

end Sys2Proof.Machine
end

