-- ==== Sys2Proof/Machine/Strings.lean ====
section
/-! DEFINITION. SCANC, SPANC and SKPC (spec/40_character_string.md R80, R84 to R90). One loop looks at a string's bytes
from the first upwards; the three differ in what stops it. -/

namespace Sys2Proof.Machine

/-- The loop of R84, R86, R88: `n` bytes are left and the next is at `a`. It ends with the bytes left and the next
address; the byte that stops it is neither counted off nor passed. -/
def scanString (s : State) (stops : Byte → Res Bool) : Nat → Word → Res (Nat × Word)
  | 0, a => .ok (0, a)
  | n + 1, a => do
    let b ← readByte s a
    let hit ← stops b
    if hit then .ok (n + 1, a) else scanString s stops n (a + 1)

/-- The table byte a string byte selects, ANDed with the mask: entry `b` is at `tbladdr +32 b` (R80, R84). -/
def maskedEntry (s : State) (tbladdr : Word) (mask : Byte) (b : Byte) : Res Byte := do
  let t ← readByte s (tbladdr + b.setWidth 32)
  .ok (t &&& mask)

/-- R0 and R1 and the condition codes after SCANC, SPANC, SKPC (R84, R86, R88). -/
def setScanResult (s : State) (left : Nat) (next : Word) : State :=
  ((s.setReg .r0 (BitVec.ofNat 32 left)).setReg .r1 next).setCodes (scanCodes (BitVec.ofNat 32 left))

/-- R2 and R3 after SCANC and SPANC, whatever the length (R84, R85 item 5). -/
def setTableResult (s : State) (tbladdr : Word) : State := (s.setReg .r2 0).setReg .r3 tbladdr

/-- SCANC: stop at the first nonzero AND (R84). -/
def scancBody (len : Word16) (addr tbladdr : Word) (mask : Byte) (s : State) : Res State := do
  let (left, next) ← scanString s (fun b => (maskedEntry s tbladdr mask b).map fun t => t != 0) len.toNat addr
  .ok (setTableResult (setScanResult s left next) tbladdr)

/-- SPANC: stop at the first zero AND (R88; spec/90_conflicts.md C3 for R1). -/
def spancBody (len : Word16) (addr tbladdr : Word) (mask : Byte) (s : State) : Res State := do
  let (left, next) ← scanString s (fun b => (maskedEntry s tbladdr mask b).map fun t => t == 0) len.toNat addr
  .ok (setTableResult (setScanResult s left next) tbladdr)

/-- SKPC: stop at the first byte that differs from the character (R86). -/
def skpcBody (char : Byte) (len : Word16) (addr : Word) (s : State) : Res State := do
  let (left, next) ← scanString s (fun b => .ok (b != char)) len.toNat addr
  .ok (setScanResult s left next)

/-- SCANC `len.rw, addr.ab, tbladdr.ab, mask.rb` (R84). -/
def execScanc (len addr tbladdr mask : Specifier) (s : State) : Host.Outcome State Fault Refusal :=
  conclude s.pc do
    let s0 ← beginInstr s
    let (n, s1) ← evalOperand .rw len s0
    let (a, s2) ← evalOperand .ab addr s1
    let (t, s3) ← evalOperand .ab tbladdr s2
    let (k, s4) ← evalOperand .rb mask s3
    scancBody (n.setWidth 16) a t (k.setWidth 8) s4

/-- SPANC `len.rw, addr.ab, tbladdr.ab, mask.rb` (R88). -/
def execSpanc (len addr tbladdr mask : Specifier) (s : State) : Host.Outcome State Fault Refusal :=
  conclude s.pc do
    let s0 ← beginInstr s
    let (n, s1) ← evalOperand .rw len s0
    let (a, s2) ← evalOperand .ab addr s1
    let (t, s3) ← evalOperand .ab tbladdr s2
    let (k, s4) ← evalOperand .rb mask s3
    spancBody (n.setWidth 16) a t (k.setWidth 8) s4

/-- SKPC `char.rb, len.rw, addr.ab` (R86). -/
def execSkpc (char len addr : Specifier) (s : State) : Host.Outcome State Fault Refusal :=
  conclude s.pc do
    let s0 ← beginInstr s
    let (c, s1) ← evalOperand .rb char s0
    let (n, s2) ← evalOperand .rw len s1
    let (a, s3) ← evalOperand .ab addr s2
    skpcBody (c.setWidth 8) (n.setWidth 16) a s3

end Sys2Proof.Machine
end

