-- ==== Sys2Proof/Machine/Translate.lean ====
section
/-! DEFINITION. MOVTUC (spec/40_character_string.md R81 to R83): the translation, and the UNPREDICTABLE overlaps. -/

namespace Sys2Proof.Machine

/-- Where a translation stands: what is left of each string, the next addresses, whether the escape stopped it, and
the state with the stores made so far (R81's r0, r1, r4, r5, v). -/
structure Translation where
  srcLeft : Nat
  src : Word
  dstLeft : Nat
  dst : Word
  escaped : Bool
  state : State
deriving DecidableEq, Repr

/-- The loop of R81: read a source byte, read the table entry it selects; the escape stops the loop before anything is
stored, any other translated byte is stored. -/
def translateString (esc : Byte) (tbladdr : Word) : Nat → Nat → Word → Word → State → Res Translation
  | 0, m, src, dst, s => .ok ⟨0, src, m, dst, false, s⟩
  | n + 1, 0, src, dst, s => .ok ⟨n + 1, src, 0, dst, false, s⟩
  | n + 1, m + 1, src, dst, s => do
    let b ← readByte s src
    let t ← readByte s (tbladdr + b.setWidth 32)
    if t = esc then .ok ⟨n + 1, src, m + 1, dst, true, s⟩
    else do
      let s' ← memWrite s dst 1 (t.setWidth 32)
      translateString esc tbladdr n m (src + 1) (dst + 1) s'

/-- R82's two UNPREDICTABLE conditions, on the extents the operands specify. -/
def overlapUnpredictable (srclen : Word16) (srcaddr tbladdr : Word) (dstlen : Word16) (dstaddr : Word) : Bool :=
  let dst : Extent := ⟨dstaddr, dstlen.toNat⟩
  dst.overlaps ⟨tbladdr, 256⟩ || ((Extent.mk srcaddr srclen.toNat).overlaps dst && srcaddr != dstaddr)

/-- The six result registers of R81. -/
def setTranslateResult (r : Translation) (tbladdr : Word) : State :=
  ((((((r.state.setReg .r0 (BitVec.ofNat 32 r.srcLeft)).setReg .r1 r.src).setReg .r2 0).setReg .r3 tbladdr).setReg .r4
    (BitVec.ofNat 32 r.dstLeft)).setReg .r5 r.dst)

/-- R82's result: every byte of the destination extent, R0 to R5 and V are drawn; N, Z, C are those of R81. -/
def drawnTranslateResult (srclen dstlen : Word16) (dstaddr : Word) (s : State) : State :=
  let s := drawBytes s dstaddr dstlen.toNat
  let s := drawReg (drawReg (drawReg (drawReg (drawReg (drawReg s .r0) .r1) .r2) .r3) .r4) .r5
  let (v, s) := drawBit s
  s.setCodes (movtucCodes srclen dstlen v)

/-- MOVTUC on evaluated operands (R81, R82). A drawn destination that touches `code_range` is refused like a store
(R43; notes/assumptions/15.md). -/
def movtucBody (srclen : Word16) (srcaddr : Word) (esc : Byte) (tbladdr : Word) (dstlen : Word16) (dstaddr : Word)
    (s : State) : Res State :=
  if overlapUnpredictable srclen srcaddr tbladdr dstlen dstaddr then do
    let _ ← checkCode s dstaddr dstlen.toNat
    .ok (drawnTranslateResult srclen dstlen dstaddr s)
  else do
    let r ← translateString esc tbladdr srclen.toNat dstlen.toNat srcaddr dstaddr s
    .ok ((setTranslateResult r tbladdr).setCodes (movtucCodes srclen dstlen r.escaped))

/-- MOVTUC `srclen.rw, srcaddr.ab, esc.rb, tbladdr.ab, dstlen.rw, dstaddr.ab` (R81). -/
def execMovtuc (srclen srcaddr esc tbladdr dstlen dstaddr : Specifier) (s : State) :
    Host.Outcome State Fault Refusal :=
  conclude s.pc do
    let s0 ← beginInstr s
    let (n, s1) ← evalOperand .rw srclen s0
    let (a, s2) ← evalOperand .ab srcaddr s1
    let (e, s3) ← evalOperand .rb esc s2
    let (t, s4) ← evalOperand .ab tbladdr s3
    let (m, s5) ← evalOperand .rw dstlen s4
    let (d, s6) ← evalOperand .ab dstaddr s5
    movtucBody (n.setWidth 16) a (e.setWidth 8) t (m.setWidth 16) d s6

end Sys2Proof.Machine
end

