-- ==== Sys2Proof/Machine/Dispatch.lean ====
section
/-! DEFINITION. One arm per instruction. -/

namespace Sys2Proof.Machine

def exec (i : Instr) (s : State) : Host.Outcome State Fault Refusal :=
  match i with
  | .crc tbl inicrc strlen stream => Sys2Proof.Machine.execCrc tbl inicrc strlen stream s
  | .scanc len addr tbladdr mask => Sys2Proof.Machine.execScanc len addr tbladdr mask s
  | .spanc len addr tbladdr mask => Sys2Proof.Machine.execSpanc len addr tbladdr mask s
  | .movtuc srclen srcaddr esc tbladdr dstlen dstaddr => Sys2Proof.Machine.execMovtuc srclen srcaddr esc tbladdr dstlen dstaddr s
  | .skpc char len addr => Sys2Proof.Machine.execSkpc char len addr s

end Sys2Proof.Machine
end

