-- ==== Sys2Proof/Machine/Fetch.lean ====
section
/-! DEFINITION. Fetching the next instruction (spec/30_encoding.md R65, spec/20_memory.md R37, spec/60_exceptions.md R162,
R167). Only the instruction's own bytes are fetched, in address order, all of them before any operand is evaluated. -/

namespace Sys2Proof.Machine

/-- The bytes from an address upwards, modulo 2^32, up to the first one that may not be fetched. -/
def fetchBytes (s : State) : Nat → Word → List Byte
  | 0, _ => []
  | n + 1, a => if s.platform.accessible a .fetch then s.mem.get a.toNat :: fetchBytes s n (a + 1) else []

/-- The instruction at the PC. A state with first part done has no meaning (R19). A byte of the instruction that may
not be fetched raises AccessViolation (R162); an opcode byte other than the five is refused (R60). -/
def nextInstr (s : State) : Res Instr :=
  if s.fpd then refuse .firstPartDone
  else
    let bytes := fetchBytes s maxInstrBytes s.pc
    match decode bytes with
    | .ok (i, _) => .ok i
    | .error (.unspecifiedOpcode b) => refuse (.unspecifiedOpcode b)
    | .error .truncated => raise s (.accessViolation (s.pc + BitVec.ofNat 32 bytes.length) .fetch)

/-- Bytes put into memory from outside the machine, from an address upwards. -/
def loadBytes (m : Memory) (a : Word) : List Byte → Memory
  | [] => m
  | b :: bs => loadBytes (m.set a.toNat b) (a + 1) bs

end Sys2Proof.Machine
end

