-- ==== Sys2Proof/Machine/Step.lean ====
section
/-! DEFINITION. One step: the instruction at the PC is fetched, decoded and executed (spec/30_encoding.md R65). -/

namespace Sys2Proof.Machine

/-- The run of one instruction. What stops the fetch stops the step, with the PC at the opcode. -/
def step (s : State) : Host.Outcome State Fault Refusal :=
  match nextInstr s with
  | .ok i => exec i s
  | .error (.exception e mem) => takeException s.pc e mem
  | .error (.refusal r) => .refused r

/-- The state with an instruction's bytes stored at the PC, where the step fetches. It stands for a program loaded from
outside the machine (notes/assumptions/2.md). -/
def State.withFetchWord (s : State) (nbits w : Nat) : State :=
  { s with mem := loadBytes s.mem s.pc (layBytes nbits w) }

end Sys2Proof.Machine
end

