-- ==== Sys2Proof/Machine/Decimal.lean ====
section
/-! DEFINITION. The common rules of the decimal string instructions (spec/42_decimal_string_common.md R130 to R149,
spec/60_exceptions.md R161, R164). The source describes no decimal instruction and the model admits none (R150), so no
meaning calls these; they are what every such instruction would obey. The sizes, the packed layout, the bytes of numeric strings, the invalid nibbles,
the control block's layout and the overflow trap are the spec's general knowledge (notes/assumptions/23.md). -/

namespace Sys2Proof.Machine

/-- The three data types (R130). -/
inductive DecimalType where
  | packed | trailing | leadingSeparate
deriving DecidableEq, Repr

/-- How many bytes a string of `digits` digits occupies (R132, R145, R146, R147). -/
def DecimalType.bytes (t : DecimalType) (digits : Nat) : Nat :=
  match t with
  | .packed => digits / 2 + 1
  | .trailing => digits
  | .leadingSeparate => digits + 1

/-- A decimal string operand (R131): a length in digits, a word, and the address of its lowest-addressed byte. -/
structure DecimalString where
  type : DecimalType
  length : Word16
  address : Word
deriving DecidableEq, Repr

/-- The address of the byte holding the most significant digit (R131, R134's caption): the lowest-addressed byte, but
past the sign byte for a leading separate string. R134 also has these addresses serve as operands of a subsequent
instruction on the same strings, which for a leading separate string would be the sign byte's (R131); following the
caption there, and using the same formula for zero digits, where the spec names no such byte, are the model's choices
(DESIGN CHOICE, notes/assumptions/28.md). -/
def DecimalString.mostSignificant (d : DecimalString) : Word :=
  match d.type with
  | .packed => d.address
  | .trailing => d.address
  | .leadingSeparate => d.address + 1

/-- A value: an integer with its sign kept apart, so that -0 is held (R133, R139). -/
structure Decimal where
  magnitude : Nat
  negative : Bool
deriving DecidableEq, Repr

/-- The integer a value denotes: -0 is +0 (R139). -/
def Decimal.toInt (v : Decimal) : Int := if v.negative then -(v.magnitude : Int) else v.magnitude

/-- The result has more digits than the destination (R136). -/
def Decimal.overflows (v : Decimal) (digits : Nat) : Bool := decide (10 ^ digits ≤ v.magnitude)

/-- What a destination of so many digits receives of a true result (R136, R139): on overflow the least significant
digits with the true sign, -0 included; otherwise a zero is +0, but for CVTPT, which keeps a -0. -/
def Decimal.stored (v : Decimal) (digits : Nat) (keepsMinusZero : Bool) : Decimal :=
  if v.overflows digits then ⟨v.magnitude % 10 ^ digits, v.negative⟩
  else if v.magnitude = 0 ∧ keepsMinusZero = false then ⟨0, false⟩
  else v

/-- N and Z on a decimal result: -0 sets them as +0 does (R139). V and C are given. -/
def decimalCodes (r : Decimal) (v c : Bool) : Codes :=
  { n := r.negative && r.magnitude != 0, z := r.magnitude == 0, v := v, c := c }

/-- The condition codes of a true result stored into so many digits: N and Z of what is stored (R139), V set exactly on
decimal overflow (R138, R164). C is the instruction's. -/
def decimalResultCodes (v : Decimal) (digits : Nat) (keepsMinusZero c : Bool) : Codes :=
  decimalCodes (v.stored digits keepsMinusZero) (v.overflows digits) c

/-- The reserved operand abort on a length outside 0 to 31 (R140, R161). -/
def checkDecimalLength (s : State) (length : Word16) : Res Unit :=
  if 31 < length.toNat then raise s .reservedOperand else .ok ()

/-- The decimal overflow trap, when DV enables it (R164). -/
def decimalOverflowTrap (s : State) (overflow : Bool) : Res State :=
  if overflow && pslDV s.psl then raise s .decimalOverflow else .ok s

/-- What a decimal string instruction does with its true result once the destination is stored: the condition codes,
and then the trap (R138, R164). -/
def completeDecimal (s : State) (v : Decimal) (digits : Nat) (keepsMinusZero c : Bool) : Res State :=
  decimalOverflowTrap (s.setCodes (decimalResultCodes v digits keepsMinusZero c)) (v.overflows digits)

/-- The control block at completion: ADDRESS 1, 2 and, for three string operands, 3 (R134). -/
def setControlBlock (s : State) (first second : DecimalString) (third : Option DecimalString) : State :=
  let t := (((s.setReg .r0 0).setReg .r1 first.mostSignificant).setReg .r2 0).setReg .r3 second.mostSignificant
  match third with
  | none => t
  | some d => (t.setReg .r4 0).setReg .r5 d.mostSignificant

/-- The bytes of a decimal string operand, lowest address first; a zero-length trailing numeric string makes no
reference (R131, R146). -/
def readDecimalBytes (s : State) (a : Word) : Nat → Res (List Byte)
  | 0 => .ok []
  | n + 1 => do
    let b ← readByte s a
    let bs ← readDecimalBytes s (a + 1) n
    .ok (b :: bs)

/-- The digits of a magnitude, most significant first. -/
def decimalDigits (m : Nat) : Nat → List (BitVec 4)
  | 0 => []
  | n + 1 => BitVec.ofNat 4 (m / 10 ^ n % 10) :: decimalDigits m n

/-- The preferred sign nibble: 12 for plus, 13 for minus (R143). -/
def signNibble (negative : Bool) : BitVec 4 := if negative then 13 else 12

/-- The nibbles of a generated packed string: a 0 first when the length is even, the digits, the sign (R143, R148). -/
def packedNibbles (v : Decimal) (digits : Nat) : List (BitVec 4) :=
  (if digits % 2 = 0 then [0] else []) ++ decimalDigits v.magnitude digits ++ [signNibble v.negative]

/-- Nibbles two to a byte, the first in bits 7:4 (R148). -/
def pairNibbles : List (BitVec 4) → List Byte
  | h :: l :: rest => (h ++ l : BitVec 8) :: pairNibbles rest
  | _ => []

/-- The bytes of a generated packed string (R143, R145, R148). -/
def packedBytes (v : Decimal) (digits : Nat) : List Byte := pairNibbles (packedNibbles v digits)

/-- The nibbles of a byte string, high nibble first (R148). -/
def splitNibbles (bs : List Byte) : List (BitVec 4) := bs.flatMap fun b => [b.extractLsb' 4 4, b.extractLsb' 0 4]

/-- A packed string of so many digits holds an invalid nibble (R144). -/
def packedInvalid (digits : Nat) (bs : List Byte) : Bool :=
  let ns := splitNibbles bs
  ns.dropLast.any (fun d => decide (9 < d.toNat)) || (ns.getLast?.any fun d => decide (d.toNat ≤ 9)) ||
    (digits % 2 == 0 && ns.head? != some 0)

/-- A sign nibble reads as minus: 11 and 13 (R148). -/
def signIsMinus (d : BitVec 4) : Bool := d == 11 || d == 13

/-- The value of a packed string whose nibbles are valid (R133, R148). -/
def packedValue (bs : List Byte) : Decimal :=
  let ns := splitNibbles bs
  { magnitude := ns.dropLast.foldl (fun m d => 10 * m + d.toNat) 0
    negative := ns.getLast?.any signIsMinus }

/-! ### Numeric strings

The characters are R149's: general knowledge, "for orientation only". The code of a trailing numeric string's last byte,
which that rule leaves to a table operand of CVTPT and CVTTP, is an argument: `code` writes it for a digit and a sign,
`last` reads it, `none` being an invalid byte. -/

/-- The character of a digit: 30 to 39 (R149). -/
def digitByte (d : BitVec 4) : Byte := 0x30 + d.setWidth 8

/-- The digit a character stands for; `none`, an invalid digit. -/
def digitOfByte (b : Byte) : Option Nat := if 0x30 ≤ b.toNat ∧ b.toNat ≤ 0x39 then some (b.toNat - 0x30) else none

/-- The magnitude of a run of digit characters, most significant first, after digits worth `m`; `none`, an invalid
digit. -/
def numericMagnitude : Nat → List Byte → Option Nat
  | m, [] => some m
  | m, b :: bs => (digitOfByte b).bind fun d => numericMagnitude (10 * m + d) bs

/-- Whether a leading separate sign byte is minus: 2B and 20 are plus, 2D minus (R149); `none`, an invalid sign. -/
def separateSignIsMinus (b : Byte) : Option Bool :=
  if b = 0x2B ∨ b = 0x20 then some false else if b = 0x2D then some true else none

/-- The bytes of a leading separate numeric string: the sign, then the digits (R131, R149). Of the two plus signs 2B is
written (DESIGN CHOICE, notes/assumptions/31.md). -/
def leadingSeparateBytes (v : Decimal) (digits : Nat) : List Byte :=
  (if v.negative then 0x2D else 0x2B) :: (decimalDigits v.magnitude digits).map digitByte

/-- The value of a leading separate numeric string (R133, R147); `none`, an invalid sign or digit. -/
def leadingSeparateValue : List Byte → Option Decimal
  | [] => none
  | sign :: ds => (separateSignIsMinus sign).bind fun n => (numericMagnitude 0 ds).map fun m => ⟨m, n⟩

/-- The bytes of a trailing numeric string: its most significant digit at the lowest address, its least significant
digit and the sign together in the last byte (R131, R132). With no digit nothing is stored and the sign is lost
(R146). -/
def trailingBytes (code : Nat → Bool → Byte) (v : Decimal) : Nat → List Byte
  | 0 => []
  | n + 1 => (decimalDigits (v.magnitude / 10) n).map digitByte ++ [code (v.magnitude % 10) v.negative]

/-- The value of a trailing numeric string (R131 to R133); `none`, an invalid sign or digit. With no byte it is zero
(R146). -/
def trailingValue (last : Byte → Option (Nat × Bool)) (bs : List Byte) : Option Decimal :=
  match bs.getLast? with
  | none => some ⟨0, false⟩
  | some b => (last b).bind fun p => (numericMagnitude 0 bs.dropLast).map fun m => ⟨10 * m + p.1, p.2⟩

/-- A source whose signs and digits are verified: an invalid one is a reserved operand abort (R140, R141). All `n` bytes
are read first, so an unreadable byte is reported before an invalid one: the spec gives no order (R167; DESIGN CHOICE,
notes/assumptions/30.md). -/
def readVerified (s : State) (a : Word) (n : Nat) (value : List Byte → Option Decimal) : Res Decimal := do
  let bs ← readDecimalBytes s a n
  match value bs with
  | some v => .ok v
  | none => raise s .reservedOperand

/-- The source of CVTSP (R140, R147): the sign byte is read whatever the length. -/
def readLeadingSeparate (s : State) (a : Word) (digits : Nat) : Res Decimal :=
  readVerified s a (DecimalType.leadingSeparate.bytes digits) leadingSeparateValue

/-- The source of CVTTP (R140, R146): with no digit no byte is read. -/
def readTrailing (last : Byte → Option (Nat × Bool)) (s : State) (a : Word) (digits : Nat) : Res Decimal :=
  readVerified s a (DecimalType.trailing.bytes digits) (trailingValue last)

end Sys2Proof.Machine
end

