-- ==== Sys2Proof/Safety.lean ====
section
/-! DEFINITION. Runs and what holds along them (spec/70_reset_and_hazards.md R190, R192). -/

namespace Sys2Proof.Machine

/-- How a run of at most so many instructions stands (R192). -/
inductive RunResult where
  /-- the PC equals `end_pc` at an instruction boundary: the normal end -/
  | ended (s : State)
  /-- an exception (spec/60_exceptions.md R169) -/
  | fault (f : Fault)
  /-- the state has no meaning in the spec -/
  | refused (r : Refusal)
  /-- not ended yet -/
  | running (s : State)
deriving DecidableEq, Repr

/-- The PC stands at `end_pc` (R192). -/
def State.atEnd (s : State) : Bool := s.platform.endPc == some s.pc

/-- A run. A state with first part done set is refused wherever its PC stands (R19); otherwise the run ends normally where
the PC equals `end_pc` (R192), before whatever bytes stand there are fetched. -/
def run : Nat → State → RunResult
  | 0, s =>
    if s.fpd then .refused .firstPartDone
    else if s.atEnd then .ended s
    else .running s
  | n + 1, s =>
    if s.fpd then .refused .firstPartDone
    else if s.atEnd then .ended s
    else
      match step s with
      | .next t => run n t
      | .fault f => .fault f
      | .refused r => .refused r

/-- The invariant of the machine: memory in canonical form, first part done 0 (spec/10_state.md R19). -/
abbrev State.inv (s : State) : Prop := s.mem.wf ∧ s.fpd = false

/-- A run that never stops abnormally within `n` instructions: the safe runs that claims speak of. -/
def State.safeFor (s : State) (n : Nat) : Prop :=
  (∃ t, run n s = .ended t) ∨ (∃ t, run n s = .running t)

end Sys2Proof.Machine
end

