-- ==== Sys2Proof/Certificates/Slice0/Obligations.lean ====
section
/-! DEFINITION. The statements for the provers, from the numbered rules of spec/. The words used in several of them come
first; each is read off the state and the operands alone. -/

namespace Sys2Proof.Machine

/-- The byte at position `i` from address `a` upwards (spec/40_character_string.md R80). -/
abbrev byteAt (s : State) (a : Word) (i : Nat) : Byte := s.mem.get (a + BitVec.ofNat 32 i).toNat

/-- That byte may be read (spec/20_memory.md R37). -/
abbrev readableAt (s : State) (a : Word) (i : Nat) : Prop :=
  s.platform.accessible (a + BitVec.ofNat 32 i) .read = true

/-- Of the `n` bytes from address `a` upwards, the one at position `j` is the first that may not be read. -/
abbrev firstUnreadable (s : State) (a : Word) (n j : Nat) : Prop :=
  j < n ∧ (∀ i < j, readableAt s a i) ∧ s.platform.accessible (a + BitVec.ofNat 32 j) .read = false

/-- The entry of a 256-byte table that a string byte selects (R80). -/
abbrev entryOf (s : State) (tbladdr : Word) (b : Byte) : Byte := s.mem.get (tbladdr + b.setWidth 32).toNat

abbrev entryReadable (s : State) (tbladdr : Word) (b : Byte) : Prop :=
  s.platform.accessible (tbladdr + b.setWidth 32) .read = true

/-- Every register but the PC and the listed ones, bits 31:4 of the PSL, and the platform are as they were. -/
abbrev unchangedBut (s t : State) (rs : List Reg) : Prop :=
  (∀ r, r ≠ .pc → r ∉ rs → t.reg r = s.reg r) ∧ (∀ j, 4 ≤ j → t.psl.getLsbD j = s.psl.getLsbD j) ∧
    t.platform = s.platform

/-- Every byte of memory reads as it did. -/
abbrev sameMemory (s t : State) : Prop := ∀ x, t.mem.get x = s.mem.get x

/-- Byte `k` of an instruction's encoding stands in memory at the PC plus `k` and may be fetched. -/
abbrev codeByteAt (s : State) (i : Instr) (k : Nat) : Prop :=
  (encode i)[k]? = some (byteAt s s.pc k) ∧ s.platform.accessible (s.pc + BitVec.ofNat 32 k) .fetch = true

/-- The operands of an instruction whose first part done is 0 evaluate, left to right, to these values and leave the
state `u`, its PC past the last specifier (spec/30_encoding.md R62, R65). -/
abbrev operandsGive (i : Instr) (s : State) (vs : List Word) (u : State) : Prop :=
  s.fpd = false ∧ evalOperands i.operands (s.advance 1) = .ok (vs, u)

/-- A length operand as the number of bytes it counts. -/
abbrev lengthOf (v : Word) : Nat := (v.setWidth 16).toNat

/-- Of a string of `n` bytes at `a`, `k` bytes are not passed: the count register holds `k` in bits 15:0 and zeros above,
and the address register the address of the first of them (spec/10_state.md R12). -/
abbrev countLeft (t : State) (count address : Reg) (a : Word) (n : Nat) : Prop :=
  ∃ k ≤ n, t.reg address = a + BitVec.ofNat 32 (n - k) ∧ (t.reg count).extractLsb' 16 16 = 0 ∧
    (t.reg count).extractLsb' 0 16 = BitVec.ofNat 16 k

/-- The extents `[a, a+n)` and `[b, b+m)` share a byte address (spec/40_character_string.md R82). -/
abbrev shareAByte (a : Word) (n : Nat) (b : Word) (m : Nat) : Prop :=
  ∃ i < n, ∃ j < m, a + BitVec.ofNat 32 i = b + BitVec.ofNat 32 j

/-- R82's conditions (a) and (b) for MOVTUC's extents. -/
abbrev forbiddenOverlap (srcaddr : Word) (srclen : Nat) (tbladdr dstaddr : Word) (dstlen : Nat) : Prop :=
  shareAByte dstaddr dstlen tbladdr 256 ∨ (shareAByte srcaddr srclen dstaddr dstlen ∧ srcaddr ≠ dstaddr)

/-- Source byte `i` translated: the entry it selects, both read from the state before the instruction's body. -/
abbrev translated (u : State) (srcaddr tbladdr : Word) (i : Nat) : Byte := entryOf u tbladdr (byteAt u srcaddr i)

/-- Source byte `i` and the entry it selects may be read. -/
abbrev translationReadable (u : State) (srcaddr tbladdr : Word) (i : Nat) : Prop :=
  readableAt u srcaddr i ∧ entryReadable u tbladdr (byteAt u srcaddr i)

/-- MOVTUC's bytes below `k` go through: read, translated to something other than the escape, and stored where a store
is allowed. -/
abbrev movesBelow (u : State) (srcaddr : Word) (esc : Byte) (tbladdr dstaddr : Word) (k : Nat) : Prop :=
  ∀ i < k, translationReadable u srcaddr tbladdr i ∧ translated u srcaddr tbladdr i ≠ esc ∧
    u.platform.accessible (dstaddr + BitVec.ofNat 32 i) .write = true ∧
    u.platform.inCode (dstaddr + BitVec.ofNat 32 i) = false

/-- Memory after MOVTUC's first `k` stores: the translated bytes at the first `k` destination addresses, and every
other byte as it was. -/
abbrev storedBelow (u : State) (mem : Memory) (srcaddr tbladdr dstaddr : Word) (k : Nat) : Prop :=
  (∀ i < k, mem.get (dstaddr + BitVec.ofNat 32 i).toNat = translated u srcaddr tbladdr i) ∧
    ∀ x, (∀ i < k, x ≠ (dstaddr + BitVec.ofNat 32 i).toNat) → mem.get x = u.mem.get x

/-- Position `k` of a translation stops at an unreadable byte, at address `x`: the string byte, or the entry it selects
(spec/20_memory.md R35: first the one, then the other). -/
abbrev unreadableAt (u : State) (a tbladdr : Word) (k : Nat) (x : Word) : Prop :=
  (u.platform.accessible (a + BitVec.ofNat 32 k) .read = false ∧ x = a + BitVec.ofNat 32 k) ∨
    (readableAt u a k ∧ u.platform.accessible (tbladdr + (byteAt u a k).setWidth 32) .read = false ∧
      x = tbladdr + (byteAt u a k).setWidth 32)

/-- The value of 1, 2 or 4 bytes in memory, least significant first, as a longword (spec/20_memory.md R31). -/
abbrev valueAt (s : State) (a : Word) (sz : OpSize) : Word :=
  match sz with
  | .byte => (byteAt s a 0).setWidth 32
  | .word => (byteAt s a 1 ++ byteAt s a 0 : BitVec 16).setWidth 32
  | .long => byteAt s a 3 ++ (byteAt s a 2 ++ (byteAt s a 1 ++ byteAt s a 0))

/-- The low 8, 16 or 32 bits of a longword, zero-extended. -/
abbrev lowBits (v : Word) (sz : OpSize) : Word :=
  match sz with
  | .byte => (v.extractLsb' 0 8).setWidth 32
  | .word => (v.extractLsb' 0 16).setWidth 32
  | .long => v

/-- The 16 longwords at `tbl` are the table of R113 for `poly` (spec/41_crc.md R114). -/
abbrev tableFor (u : State) (tbl poly : Word) : Prop := ∀ k < 16, crcEntry u.mem tbl k = crcTableEntry poly k

/-- The bytes of a string, first to last. -/
abbrev stringBytes (u : State) (a : Word) (n : Nat) : List Byte := (List.range n).map (byteAt u a)

/-- A CRC instruction whose operands evaluate to these values, with a readable table for `poly` and a readable string. -/
abbrev crcOver (i : Instr) (s u : State) (tb c n a poly : Word) : Prop :=
  (∃ tbl inicrc strlen stream, i = .crc tbl inicrc strlen stream) ∧ operandsGive i s [tb, c, n, a] u ∧
    (∀ j < 64, readableAt u tb j) ∧ tableFor u tb poly ∧ ∀ j < lengthOf n, readableAt u a j

end Sys2Proof.Machine

open Sys2Proof Sys2Proof.Machine

/-! ### Encoding and decoding -/

/-- R53, R54, R55, R58: the decoder gives back every well-formed instruction the encoder writes, whatever follows. -/
def Obligations.DecodeEncodeRoundTrip : Prop :=
  ∀ (i : Instr) (rest : List Byte), i.wellFormed = true → decode (encode i ++ rest) = .ok (i, rest)

/-- R53, R54, R55, R58: an instruction decoded is well-formed and encodes to the bytes it was read from, so no two byte
strings decode to it and no bit of them is dropped. -/
def Obligations.DecodedBytesReencode : Prop :=
  ∀ (bs : List Byte) (i : Instr) (rest : List Byte),
    decode bs = .ok (i, rest) → i.wellFormed = true ∧ bs = encode i ++ rest

/-- R53, R55: the encoding has the length of the rule, 1 plus the specifier lengths, at least one byte per operand and
the opcode. That a doubly indexed specifier ends after its two index bytes, and with it the bound of 37 bytes, is the
model's choice (notes/assumptions/8.md). -/
def Obligations.EncodingHasTheRuleLength : Prop :=
  ∀ i : Instr, i.wellFormed = true →
    (encode i).length = i.length ∧ 1 + i.operands.length ≤ i.length ∧ i.length ≤ 37

/-- R51, R54 to R58: the worked encodings of spec/30_encoding.md and spec/95_test_vectors.md decode as printed. -/
def Obligations.WorkedEncodingsDecode : Prop :=
  decode [0x3B, 0x20, 0x06, 0x9F, 0x00, 0x20, 0x00, 0x00] =
      .ok (.skpc (.direct (.literal 0x20)) (.direct (.literal 6)) (.direct (.absolute 0x2000)), []) ∧
    decode [0x2A, 0x50, 0x61, 0x9F, 0x00, 0x30, 0x00, 0x00, 0x01] =
      .ok (.scanc (.direct (.register .r0)) (.direct (.deferred .r1)) (.direct (.absolute 0x3000))
        (.direct (.literal 1)), []) ∧
    decode [0x2B, 0x50, 0x61, 0x9F, 0x00, 0x30, 0x00, 0x00, 0x01] =
      .ok (.spanc (.direct (.register .r0)) (.direct (.deferred .r1)) (.direct (.absolute 0x3000))
        (.direct (.literal 1)), []) ∧
    decode [0x2F, 0x50, 0x61, 0x2C, 0x63, 0x54, 0x65] =
      .ok (.movtuc (.direct (.register .r0)) (.direct (.deferred .r1)) (.direct (.literal 0x2C))
        (.direct (.deferred .r3)) (.direct (.register .r4)) (.direct (.deferred .r5)), []) ∧
    decode [0x0B, 0x9F, 0x00, 0x50, 0x00, 0x00, 0x8F, 0xFF, 0xFF, 0xFF, 0xFF, 0x05, 0x9F, 0x00, 0x40, 0x00, 0x00] =
      .ok (.crc (.direct (.absolute 0x5000)) (.direct (.immediate 0xFFFFFFFF)) (.direct (.literal 5))
        (.direct (.absolute 0x4000)), [])

/-! ### The step -/

/-- R65: when the bytes at the PC decode to an instruction, the step is that instruction's meaning in the same state,
its PC at the opcode; the meaning moves the PC. -/
def Obligations.StepRunsDecodedInstruction : Prop :=
  ∀ (s : State) (i : Instr) (rest : List Byte),
    s.fpd = false → decode (fetchBytes s maxInstrBytes s.pc) = .ok (i, rest) → step s = exec i s

/-- R65, R37: a well-formed instruction whose bytes stand at the PC, each fetchable, is the one executed, whatever bytes
stand after it and whether or not those may be fetched. -/
def Obligations.CodeInMemoryIsExecuted : Prop :=
  ∀ (s : State) (i : Instr), s.fpd = false → i.wellFormed = true →
    (∀ k < i.length, codeByteAt s i k) → step s = exec i s

/-- R37, R162, R167: an instruction's first byte that may not be fetched raises AccessViolation, kind fetch, with the PC
at the opcode and memory as it was, before any operand is evaluated. That this comes before the stop of a reserved or
UNPREDICTABLE specifier in an earlier byte, the bytes after it being decoded all the same, is the model's choice
(notes/assumptions/8.md). -/
def Obligations.FetchOfInaccessibleByteFaults : Prop :=
  ∀ (s : State) (i : Instr) (k : Nat), s.fpd = false → i.wellFormed = true → k < i.length →
    (∀ j < k, codeByteAt s i j) → s.platform.accessible (s.pc + BitVec.ofNat 32 k) .fetch = false →
    step s = .fault (.accessViolation s.pc (s.pc + BitVec.ofNat 32 k) .fetch s.mem)

/-- R60: an opcode byte that is none of 0B, 2A, 2B, 2F, 3B is refused, and the refusal names it. -/
def Obligations.UnspecifiedOpcodeRefused : Prop :=
  ∀ s : State, s.fpd = false → s.platform.accessible s.pc .fetch = true →
    (s.mem.get s.pc.toNat).toNat ∉ [0x0B, 0x2A, 0x2B, 0x2F, 0x3B] →
    step s = .refused (.unspecifiedOpcode (s.mem.get s.pc.toNat))

/-- R19: a state with first part done set is given no meaning, by the step, by every instruction, and by a run of any
number of steps, also where its PC equals `end_pc`. -/
def Obligations.FirstPartDoneRefused : Prop :=
  ∀ s : State, s.fpd = true →
    step s = .refused .firstPartDone ∧ (∀ i : Instr, exec i s = .refused .firstPartDone) ∧
      ∀ n : Nat, run n s = .refused .firstPartDone

/-- R19, and the canonical form of memory: from any state in which memory is canonical and first part done is 0, a step
gives such a state. -/
def Obligations.StepKeepsInvariant : Prop :=
  ∀ s t : State, s.inv → step s = .next t → t.inv

/-- R19, R24: reset has first part done 0, and canonical memory (the model's form, notes/assumptions/4.md). -/
def Obligations.ResetHasInvariant : Prop := State.reset.inv

/-! ### Every instruction -/

/-- R56, R58, R59, R90: with first part done 0, no access denied and no code range, every instruction whose specifiers
are legal for their operands completes, for every form and every data. -/
def Obligations.LegalInstructionsComplete : Prop :=
  ∀ (i : Instr) (s : State), i.legal = true → s.fpd = false → s.platform.denied = [] → s.platform.codeRange = [] →
    ∃ t, exec i s = .next t

/-- R15, R53, R104: an instruction that completes leaves the PC at the byte after its last specifier, modulo 2^32,
whatever its data. -/
def Obligations.PcMovesPastInstruction : Prop :=
  ∀ (i : Instr) (s t : State), i.wellFormed = true → exec i s = .next t → t.pc = s.pc + BitVec.ofNat 32 i.length

/-- R11, R13, R20, R62, R194: the frame of every instruction. A register other than the PC, the instruction's result
registers and the registers its specifiers increment or decrement is unchanged, and so are bits 31:4 of the PSL and
the platform; all but MOVTUC leave every byte of memory as it was. -/
def Obligations.InstructionFrame : Prop :=
  ∀ (i : Instr) (s t : State), exec i s = .next t →
    unchangedBut s t (i.resultRegs ++ i.specifierWrites) ∧
    ((∀ a b c d e f, i ≠ .movtuc a b c d e f) → sameMemory s t)

/-- R34, R82, R83 item 6: MOVTUC changes no byte of memory outside the destination extent its operands give, forbidden
overlap or not. -/
def Obligations.MovtucMemoryFrame : Prop :=
  ∀ (srclen srcaddr esc tbladdr dstlen dstaddr : Specifier) (s t u : State) (n a e tb m d : Word),
    operandsGive (.movtuc srclen srcaddr esc tbladdr dstlen dstaddr) s [n, a, e, tb, m, d] u →
    exec (.movtuc srclen srcaddr esc tbladdr dstlen dstaddr) s = .next t →
    ∀ x, (∀ i < lengthOf m, x ≠ (d + BitVec.ofNat 32 i).toNat) → t.mem.get x = s.mem.get x

/-- R90, R161: the only exceptions an instruction raises are AccessViolation and ReservedAddressingMode, recorded with
the PC of its opcode; ReservedOperand and DecimalOverflow are raised by none. -/
def Obligations.InstructionsRaiseOnlyAccessAndAddressing : Prop :=
  ∀ (i : Instr) (s : State) (f : Fault), exec i s = .fault f →
    (∃ a k m, f = .accessViolation s.pc a k m) ∨ f = .reservedAddressingMode s.pc

/-- R162: a step's AccessViolation names an address whose access of that kind is not allowed, with the PC of the opcode;
only a MOVTUC may have changed memory before it. -/
def Obligations.AccessViolationNamesDeniedByte : Prop :=
  ∀ (s : State) (p a : Word) (k : AccessKind) (m : Memory), step s = .fault (.accessViolation p a k m) →
    p = s.pc ∧ s.platform.accessible a k = false ∧
    ((∀ i, nextInstr s = .ok i → ∀ x1 x2 x3 x4 x5 x6, i ≠ .movtuc x1 x2 x3 x4 x5 x6) → m = s.mem)

/-- R16, R84, R86, R88: SCANC, SPANC, SKPC leave N, V and C 0 and Z the test of the final R0. -/
def Obligations.ScanConditionCodes : Prop :=
  ∀ (i : Instr) (s t : State), exec i s = .next t →
    ((∃ a b c d, i = .scanc a b c d) ∨ (∃ a b c d, i = .spanc a b c d) ∨ (∃ a b c, i = .skpc a b c)) →
    t.codes = { n := false, z := t.reg .r0 == 0, v := false, c := false }

/-- R12: a count left in R0 (SCANC, SPANC, SKPC, MOVTUC) or R4 (MOVTUC) fills the whole register: bits 31:16 are zero and
bits 15:0 hold the number of bytes not passed, the string's length less the bytes from its first to the address left
beside the count. For MOVTUC outside the forbidden overlaps. -/
def Obligations.CountsFillTheRegister : Prop :=
  (∀ (len addr tbladdr mask : Specifier) (s t u : State) (n a tb mk : Word),
    (operandsGive (.scanc len addr tbladdr mask) s [n, a, tb, mk] u → exec (.scanc len addr tbladdr mask) s = .next t →
      countLeft t .r0 .r1 a (lengthOf n)) ∧
    (operandsGive (.spanc len addr tbladdr mask) s [n, a, tb, mk] u → exec (.spanc len addr tbladdr mask) s = .next t →
      countLeft t .r0 .r1 a (lengthOf n))) ∧
  (∀ (char len addr : Specifier) (s t u : State) (c n a : Word),
    operandsGive (.skpc char len addr) s [c, n, a] u → exec (.skpc char len addr) s = .next t →
    countLeft t .r0 .r1 a (lengthOf n)) ∧
  ∀ (srclen srcaddr esc tbladdr dstlen dstaddr : Specifier) (s t u : State) (n a e tb m d : Word),
    operandsGive (.movtuc srclen srcaddr esc tbladdr dstlen dstaddr) s [n, a, e, tb, m, d] u →
    ¬ forbiddenOverlap a (lengthOf n) tb d (lengthOf m) →
    exec (.movtuc srclen srcaddr esc tbladdr dstlen dstaddr) s = .next t →
    countLeft t .r0 .r1 a (lengthOf n) ∧ countLeft t .r4 .r5 d (lengthOf m)

/-! ### Operand specifiers -/

/-- R56, R58, R59, R163: a specifier that is reserved for its operand, met after the operands before it evaluate, ends
the instruction in ReservedAddressingMode at its opcode. That a specifier both reserved and UNPREDICTABLE faults is the
model's choice: 5F on an address operand and as an index base (notes/assumptions/10.md), 4F before an UNPREDICTABLE base
(notes/assumptions/11.md). So is that an index specifier stops so before its base's pointer is read (the same entry). -/
def Obligations.ReservedSpecifierFaults : Prop :=
  ∀ (i : Instr) (s v : State) (pre post : List (OperandKind × Specifier)) (o : OperandKind × Specifier)
    (vs : List Word), i.operands = pre ++ o :: post → s.fpd = false →
    evalOperands pre (s.advance 1) = .ok (vs, v) → o.2.reserved o.1 = true →
    exec i s = .fault (.reservedAddressingMode s.pc)

/-- R58, R59: the specifier forms the architecture calls UNPREDICTABLE, met after the operands before them evaluate and
not reserved, are refused, each under the name of its form: the PC in register, register deferred or autodecrement mode,
alone or (the model's choice, notes/assumptions/14.md) as a base under index mode; an index register that its base
modifies, before its base's pointer is read (the model's choice, notes/assumptions/11.md); an immediate base. -/
def Obligations.UnpredictableSpecifierRefused : Prop :=
  ∀ (i : Instr) (s v : State) (pre post : List (OperandKind × Specifier)) (o : OperandKind × Specifier)
    (vs : List Word), i.operands = pre ++ o :: post → s.fpd = false →
    evalOperands pre (s.advance 1) = .ok (vs, v) → o.2.reserved o.1 = false →
    (∀ m ∈ [Mode.register .pc, .deferred .pc, .autodec .pc], (o.2 = .direct m ∨ ∃ x, o.2 = .indexed x m) →
      exec i s = .refused .unpredictablePcMode) ∧
    (∀ x, ∀ m ∈ [Mode.autodec x, .autoinc x, .autoincDeferred x], o.2 = .indexed x m →
      exec i s = .refused .unpredictableIndexRegister) ∧
    ∀ x d, o.2 = .indexed x (.immediate d) → exec i s = .refused .unpredictableIndexedImmediate

/-- R62, R167: the first operand that stops, left to right, stops the instruction, whatever the later ones would do. -/
def Obligations.FirstStoppingOperandDecides : Prop :=
  ∀ (i j : Instr) (s v : State) (pre post post' : List (OperandKind × Specifier)) (o : OperandKind × Specifier)
    (vs : List Word) (e : Stop), i.operands = pre ++ o :: post → j.operands = pre ++ o :: post' → s.fpd = false →
    evalOperands pre (s.advance 1) = .ok (vs, v) → evalOperand o.1 o.2 v = .error e →
    exec i s = exec j s ∧ exec i s = conclude s.pc (.error e)

/-- R55: the address and the side effect of register deferred, autodecrement, autoincrement and displacement mode for
an operand of any size, `n` not the PC. -/
def Obligations.RegisterModesGiveAddresses : Prop :=
  ∀ (s : State) (sz : OpSize) (r : Reg) (d : Displacement), r ≠ .pc →
    evalSpecifier sz (.direct (.deferred r)) s = .ok (.address (s.reg r), s.advance 1) ∧
    evalSpecifier sz (.direct (.autodec r)) s =
      .ok (.address (s.reg r - BitVec.ofNat 32 sz.bytes),
        (s.advance 1).setReg r (s.reg r - BitVec.ofNat 32 sz.bytes)) ∧
    evalSpecifier sz (.direct (.autoinc r)) s =
      .ok (.address (s.reg r), (s.advance 1).setReg r (s.reg r + BitVec.ofNat 32 sz.bytes)) ∧
    evalSpecifier sz (.direct (.disp r d)) s = .ok (.address (s.reg r + d.sext), s.advance (1 + d.bytes))

/-- R55, R30, R62, R162: the deferred modes read the 4-byte pointer, least significant byte first, when its bytes may be
read; otherwise the first byte that may not be read raises AccessViolation, memory as it was. -/
def Obligations.DeferredModesReadThePointer : Prop :=
  ∀ (s : State) (sz : OpSize) (r : Reg) (d : Displacement), r ≠ .pc →
    ((∀ i < 4, readableAt s (s.reg r) i) →
      evalSpecifier sz (.direct (.autoincDeferred r)) s =
        .ok (.address (valueAt s (s.reg r) .long), (s.advance 1).setReg r (s.reg r + 4))) ∧
    (∀ j, firstUnreadable s (s.reg r) 4 j →
      evalSpecifier sz (.direct (.autoincDeferred r)) s =
        raise s (.accessViolation (s.reg r + BitVec.ofNat 32 j) .read)) ∧
    ((∀ i < 4, readableAt s (s.reg r + d.sext) i) →
      evalSpecifier sz (.direct (.dispDeferred r d)) s =
        .ok (.address (valueAt s (s.reg r + d.sext) .long), s.advance (1 + d.bytes))) ∧
    (∀ j, firstUnreadable s (s.reg r + d.sext) 4 j →
      evalSpecifier sz (.direct (.dispDeferred r d)) s =
        raise s (.accessViolation (s.reg r + d.sext + BitVec.ofNat 32 j) .read))

/-- R56, R58: with the PC a displacement is relative to the byte after it, and relative deferred mode reads the 4-byte
pointer there, its first unreadable byte raising AccessViolation (R30, R162); an absolute operand is its address, its four
bytes being read-checked (the model's reading, notes/assumptions/9.md). An operand of address access is the address its
specifier gives, and of an immediate the address of its datum, with nothing read. -/
def Obligations.PcModesGiveAddresses : Prop :=
  (∀ (s : State) (sz : OpSize) (d : Displacement) (a : Word),
    evalSpecifier sz (.direct (.disp .pc d)) s =
      .ok (.address (s.pc + BitVec.ofNat 32 (1 + d.bytes) + d.sext), s.advance (1 + d.bytes)) ∧
    ((∀ i < 4, readableAt s (s.pc + BitVec.ofNat 32 (1 + d.bytes) + d.sext) i) →
      evalSpecifier sz (.direct (.dispDeferred .pc d)) s =
        .ok (.address (valueAt s (s.pc + BitVec.ofNat 32 (1 + d.bytes) + d.sext) .long), s.advance (1 + d.bytes))) ∧
    (∀ j, firstUnreadable s (s.pc + BitVec.ofNat 32 (1 + d.bytes) + d.sext) 4 j →
      evalSpecifier sz (.direct (.dispDeferred .pc d)) s =
        raise s (.accessViolation (s.pc + BitVec.ofNat 32 (1 + d.bytes) + d.sext + BitVec.ofNat 32 j) .read)) ∧
    ((∀ i < 4, readableAt s (s.pc + 1) i) →
      evalSpecifier sz (.direct (.absolute a)) s = .ok (.address a, s.advance 5)) ∧
    (∀ j, firstUnreadable s (s.pc + 1) 4 j →
      evalSpecifier sz (.direct (.absolute a)) s = raise s (.accessViolation (s.pc + 1 + BitVec.ofNat 32 j) .read))) ∧
  (∀ (s t : State) (sp : Specifier) (ea : Word),
    evalSpecifier .byte sp s = .ok (.address ea, t) → addressOperand sp s = .ok (ea, t)) ∧
  ∀ (s : State) (v : Word), addressOperand (.direct (.immediate v)) s = .ok (s.pc + 1, s.advance 2)

/-- R55, R59: index mode adds the operand's size times the index register to the base's address, with the base's side
effect, for every legal base. -/
def Obligations.IndexModeAddsScaledIndex : Prop :=
  ∀ (s t : State) (sz : OpSize) (x : Reg) (m : Mode) (ea : Word),
    x ≠ .pc → m.reservedBase = false → m.unpredictablePc = false → m.modifies ≠ some x → (∀ d, m ≠ .immediate d) →
    evalMode sz m (s.advance (1 + m.length sz)) = .ok (.address ea, t) →
    evalSpecifier sz (.indexed x m) s = .ok (.address (ea + BitVec.ofNat 32 sz.bytes * s.reg x), t)

/-- R55, R56, R57, R30, R162: the value of a read operand of each size. Short literal is its 6 bits zero-extended, register
mode the low bits of the register. Every specifier that gives an address delivers the operand's bytes there, least
significant first, when they may be read; otherwise the first byte that may not be read raises AccessViolation, memory as
it was. An immediate is its datum, its bytes being read-checked in the same way (the model's reading,
notes/assumptions/9.md). -/
def Obligations.ReadOperandsDeliverValues : Prop :=
  ∀ k ∈ [OperandKind.rb, .rw, .rl],
    (∀ (s : State) (l : BitVec 6), evalOperand k (.direct (.literal l)) s = .ok (l.setWidth 32, s.advance 1)) ∧
    (∀ (s : State) (r : Reg), r ≠ .pc →
      evalOperand k (.direct (.register r)) s = .ok (lowBits (s.reg r) k.size, s.advance 1)) ∧
    (∀ (s t : State) (sp : Specifier) (ea : Word), evalSpecifier k.size sp s = .ok (.address ea, t) →
      ((∀ i < k.size.bytes, readableAt t ea i) → evalOperand k sp s = .ok (valueAt t ea k.size, t)) ∧
      ∀ j, firstUnreadable t ea k.size.bytes j →
        evalOperand k sp s = raise s (.accessViolation (ea + BitVec.ofNat 32 j) .read)) ∧
    ∀ (s : State) (v : Word),
      ((∀ i < k.size.bytes, readableAt s (s.pc + 1) i) →
        evalOperand k (.direct (.immediate v)) s = .ok (lowBits v k.size, s.advance (1 + k.size.bytes))) ∧
      ∀ j, firstUnreadable s (s.pc + 1) k.size.bytes j →
        evalOperand k (.direct (.immediate v)) s = raise s (.accessViolation (s.pc + 1 + BitVec.ofNat 32 j) .read)

/-- R62: specifiers are evaluated left to right. What a run of specifiers leaves is what the next one starts from, and
none changes memory, so each reads memory as it was before the first. So two autoincrement specifiers on one register see
its value and then its value plus the first's size. -/
def Obligations.SpecifiersEvaluateLeftToRight : Prop :=
  (∀ (l l' : List (OperandKind × Specifier)) (s u : State) (vs : List Word),
    evalOperands (l ++ l') s = .ok (vs, u) ↔
      ∃ ws t ws', evalOperands l s = .ok (ws, t) ∧ evalOperands l' t = .ok (ws', u) ∧ vs = ws ++ ws' ∧
        t.mem = s.mem) ∧
  ∀ (s : State) (r : Reg), r ≠ .pc → (∀ i < 2, readableAt s (s.reg r) i) →
    evalOperands [(.rw, .direct (.autoinc r)), (.ab, .direct (.autoinc r))] s =
      .ok ([valueAt s (s.reg r) .word, s.reg r + 2], (s.advance 2).setReg r (s.reg r + 3))

/-! ### SKPC, SCANC, SPANC -/

/-- R86, R87, R35: SKPC passes the bytes equal to the character and stops at the first other one, position `k`, or at
the end; R0, R1, the codes and nothing else of the state after the operands change, and no byte past `k` is touched. -/
def Obligations.SkpcStopsAtFirstOther : Prop :=
  ∀ (char len addr : Specifier) (s u : State) (c n a : Word) (k : Nat),
    operandsGive (.skpc char len addr) s [c, n, a] u → k ≤ lengthOf n →
    (∀ i < k, readableAt u a i ∧ byteAt u a i = c.setWidth 8) →
    (k < lengthOf n → readableAt u a k ∧ byteAt u a k ≠ c.setWidth 8) →
    exec (.skpc char len addr) s =
      .next (((u.setReg .r0 (BitVec.ofNat 32 (lengthOf n - k))).setReg .r1 (a + BitVec.ofNat 32 k)).setCodes
        { n := false, z := decide (k = lengthOf n), v := false, c := false })

/-- R84, R85, R35: SCANC passes the bytes whose table entry ANDed with the mask is zero and stops at the first other
one, position `k`, or at the end. -/
def Obligations.ScancStopsAtFirstNonzero : Prop :=
  ∀ (len addr tbladdr mask : Specifier) (s u : State) (n a tb mk : Word) (k : Nat),
    operandsGive (.scanc len addr tbladdr mask) s [n, a, tb, mk] u → k ≤ lengthOf n →
    (∀ i < k, readableAt u a i ∧ entryReadable u tb (byteAt u a i) ∧
      entryOf u tb (byteAt u a i) &&& mk.setWidth 8 = 0) →
    (k < lengthOf n → readableAt u a k ∧ entryReadable u tb (byteAt u a k) ∧
      entryOf u tb (byteAt u a k) &&& mk.setWidth 8 ≠ 0) →
    exec (.scanc len addr tbladdr mask) s =
      .next (((((u.setReg .r0 (BitVec.ofNat 32 (lengthOf n - k))).setReg .r1 (a + BitVec.ofNat 32 k)).setReg .r2 0).setReg
        .r3 tb).setCodes { n := false, z := decide (k = lengthOf n), v := false, c := false })

/-- R88, R89, R35: SPANC passes the bytes whose table entry ANDed with the mask is nonzero and stops at the first zero,
position `k`, or at the end. -/
def Obligations.SpancStopsAtFirstZero : Prop :=
  ∀ (len addr tbladdr mask : Specifier) (s u : State) (n a tb mk : Word) (k : Nat),
    operandsGive (.spanc len addr tbladdr mask) s [n, a, tb, mk] u → k ≤ lengthOf n →
    (∀ i < k, readableAt u a i ∧ entryReadable u tb (byteAt u a i) ∧
      entryOf u tb (byteAt u a i) &&& mk.setWidth 8 ≠ 0) →
    (k < lengthOf n → readableAt u a k ∧ entryReadable u tb (byteAt u a k) ∧
      entryOf u tb (byteAt u a k) &&& mk.setWidth 8 = 0) →
    exec (.spanc len addr tbladdr mask) s =
      .next (((((u.setReg .r0 (BitVec.ofNat 32 (lengthOf n - k))).setReg .r1 (a + BitVec.ofNat 32 k)).setReg .r2 0).setReg
        .r3 tb).setCodes { n := false, z := decide (k = lengthOf n), v := false, c := false })

/-- R35, R85, R87, R89: a string of length zero sets Z and leaves the address in R1, and nothing is accessed: on every
platform, readable or not. -/
def Obligations.ZeroLengthScansSetZ : Prop :=
  (∀ (char len addr : Specifier) (s u : State) (c n a : Word),
    operandsGive (.skpc char len addr) s [c, n, a] u → lengthOf n = 0 →
    ∃ t, exec (.skpc char len addr) s = .next t ∧ t.reg .r0 = 0 ∧ t.reg .r1 = a ∧
      t.codes = { n := false, z := true, v := false, c := false }) ∧
  (∀ (len addr tbladdr mask : Specifier) (s u : State) (n a tb mk : Word),
    operandsGive (.scanc len addr tbladdr mask) s [n, a, tb, mk] u → lengthOf n = 0 →
    ∃ t, exec (.scanc len addr tbladdr mask) s = .next t ∧ t.reg .r0 = 0 ∧ t.reg .r1 = a ∧ t.reg .r2 = 0 ∧
      t.reg .r3 = tb ∧ t.codes = { n := false, z := true, v := false, c := false }) ∧
  ∀ (len addr tbladdr mask : Specifier) (s u : State) (n a tb mk : Word),
    operandsGive (.spanc len addr tbladdr mask) s [n, a, tb, mk] u → lengthOf n = 0 →
    ∃ t, exec (.spanc len addr tbladdr mask) s = .next t ∧ t.reg .r0 = 0 ∧ t.reg .r1 = a ∧ t.reg .r2 = 0 ∧
      t.reg .r3 = tb ∧ t.codes = { n := false, z := true, v := false, c := false }

/-- R35, R162: a scan that reaches an unreadable byte raises AccessViolation on it, kind read, memory as it was: SKPC on
the string byte, SCANC and SPANC on the string byte or on the table entry it selects. -/
def Obligations.ScansFaultAtUnreadableByte : Prop :=
  (∀ (char len addr : Specifier) (s u : State) (c n a : Word) (k : Nat),
    operandsGive (.skpc char len addr) s [c, n, a] u → k < lengthOf n →
    (∀ i < k, readableAt u a i ∧ byteAt u a i = c.setWidth 8) →
    u.platform.accessible (a + BitVec.ofNat 32 k) .read = false →
    exec (.skpc char len addr) s = .fault (.accessViolation s.pc (a + BitVec.ofNat 32 k) .read s.mem)) ∧
  ∀ (len addr tbladdr mask : Specifier) (s u : State) (n a tb mk x : Word) (k : Nat), k < lengthOf n →
    (∀ i < k, readableAt u a i ∧ entryReadable u tb (byteAt u a i)) → unreadableAt u a tb k x →
    (operandsGive (.scanc len addr tbladdr mask) s [n, a, tb, mk] u →
      (∀ i < k, entryOf u tb (byteAt u a i) &&& mk.setWidth 8 = 0) →
      exec (.scanc len addr tbladdr mask) s = .fault (.accessViolation s.pc x .read s.mem)) ∧
    (operandsGive (.spanc len addr tbladdr mask) s [n, a, tb, mk] u →
      (∀ i < k, entryOf u tb (byteAt u a i) &&& mk.setWidth 8 ≠ 0) →
      exec (.spanc len addr tbladdr mask) s = .fault (.accessViolation s.pc x .read s.mem))

/-! ### MOVTUC -/

/-- R81, R83: MOVTUC moves `k` translated bytes and stops at the escape (`k` short of both lengths), or where a string
is exhausted. The source bytes and the table are those of the state before the body, also where source and destination
are the same string; every byte of memory but the `k` stored is as it was. -/
def Obligations.MovtucMovesTranslatedBytes : Prop :=
  ∀ (srclen srcaddr esc tbladdr dstlen dstaddr : Specifier) (s u : State) (n a e tb m d : Word) (k : Nat),
    operandsGive (.movtuc srclen srcaddr esc tbladdr dstlen dstaddr) s [n, a, e, tb, m, d] u →
    ¬ forbiddenOverlap a (lengthOf n) tb d (lengthOf m) → k ≤ lengthOf n → k ≤ lengthOf m →
    movesBelow u a (e.setWidth 8) tb d k →
    (k < lengthOf n → k < lengthOf m → translationReadable u a tb k ∧ translated u a tb k = e.setWidth 8) →
    ∃ t, exec (.movtuc srclen srcaddr esc tbladdr dstlen dstaddr) s = .next t ∧
      t.reg .r0 = BitVec.ofNat 32 (lengthOf n - k) ∧ t.reg .r1 = a + BitVec.ofNat 32 k ∧ t.reg .r2 = 0 ∧
      t.reg .r3 = tb ∧ t.reg .r4 = BitVec.ofNat 32 (lengthOf m - k) ∧ t.reg .r5 = d + BitVec.ofNat 32 k ∧
      t.codes = { n := (n.setWidth 16).slt (m.setWidth 16), z := decide (lengthOf n = lengthOf m),
                  v := decide (k < lengthOf n ∧ k < lengthOf m), c := decide (lengthOf n < lengthOf m) } ∧
      storedBelow u t.mem a tb d k ∧ t.pc = u.pc ∧ unchangedBut u t [.r0, .r1, .r2, .r3, .r4, .r5]

/-- R82: with a forbidden overlap (and no byte of the destination in the program) MOVTUC completes without a fault; N,
Z and C are those of the lengths, the PC advances, memory outside the destination extent and the other registers are
unchanged. Of the destination extent, R0 to R5 and V nothing is said: they are drawn. -/
def Obligations.MovtucForbiddenOverlapCompletes : Prop :=
  ∀ (srclen srcaddr esc tbladdr dstlen dstaddr : Specifier) (s u : State) (n a e tb m d : Word),
    operandsGive (.movtuc srclen srcaddr esc tbladdr dstlen dstaddr) s [n, a, e, tb, m, d] u →
    forbiddenOverlap a (lengthOf n) tb d (lengthOf m) →
    (∀ i < lengthOf m, u.platform.inCode (d + BitVec.ofNat 32 i) = false) →
    ∃ t, exec (.movtuc srclen srcaddr esc tbladdr dstlen dstaddr) s = .next t ∧
      t.codes.n = (n.setWidth 16).slt (m.setWidth 16) ∧ t.codes.z = decide (lengthOf n = lengthOf m) ∧
      t.codes.c = decide (lengthOf n < lengthOf m) ∧ t.pc = u.pc ∧
      unchangedBut u t [.r0, .r1, .r2, .r3, .r4, .r5] ∧
      ∀ x, (∀ i < lengthOf m, x ≠ (d + BitVec.ofNat 32 i).toNat) → t.mem.get x = u.mem.get x

/-- R35, R91, R162: a MOVTUC that reaches an unreadable source byte, an unreadable table entry, or (the translated byte
not being the escape) an unwritable destination byte raises AccessViolation on it, and the bytes stored before stay
stored, the rest of memory as it was. -/
def Obligations.MovtucStoresBeforeFaultStay : Prop :=
  ∀ (srclen srcaddr esc tbladdr dstlen dstaddr : Specifier) (s u : State) (n a e tb m d : Word) (k : Nat),
    operandsGive (.movtuc srclen srcaddr esc tbladdr dstlen dstaddr) s [n, a, e, tb, m, d] u →
    ¬ forbiddenOverlap a (lengthOf n) tb d (lengthOf m) → k < lengthOf n → k < lengthOf m →
    movesBelow u a (e.setWidth 8) tb d k →
    (∀ x, unreadableAt u a tb k x →
      ∃ mem, exec (.movtuc srclen srcaddr esc tbladdr dstlen dstaddr) s =
        .fault (.accessViolation s.pc x .read mem) ∧ storedBelow u mem a tb d k) ∧
    (translationReadable u a tb k → translated u a tb k ≠ e.setWidth 8 →
      u.platform.accessible (d + BitVec.ofNat 32 k) .write = false →
      ∃ mem, exec (.movtuc srclen srcaddr esc tbladdr dstlen dstaddr) s =
        .fault (.accessViolation s.pc (d + BitVec.ofNat 32 k) .write mem) ∧ storedBelow u mem a tb d k)

/-- R43: a MOVTUC that reaches a store to a byte of the program is refused there. One with a forbidden overlap, whose
destination extent is drawn, is refused at the first byte of that extent that belongs to the program: the model's choice
(notes/assumptions/15.md). -/
def Obligations.MovtucStoreIntoCodeRefused : Prop :=
  ∀ (srclen srcaddr esc tbladdr dstlen dstaddr : Specifier) (s u : State) (n a e tb m d : Word) (k : Nat),
    operandsGive (.movtuc srclen srcaddr esc tbladdr dstlen dstaddr) s [n, a, e, tb, m, d] u → k < lengthOf m →
    u.platform.inCode (d + BitVec.ofNat 32 k) = true →
    (¬ forbiddenOverlap a (lengthOf n) tb d (lengthOf m) → k < lengthOf n →
      movesBelow u a (e.setWidth 8) tb d k →
      translationReadable u a tb k → translated u a tb k ≠ e.setWidth 8 →
      u.platform.accessible (d + BitVec.ofNat 32 k) .write = true →
      exec (.movtuc srclen srcaddr esc tbladdr dstlen dstaddr) s =
        .refused (.storeIntoCode (d + BitVec.ofNat 32 k))) ∧
    (forbiddenOverlap a (lengthOf n) tb d (lengthOf m) →
      (∀ i < k, u.platform.inCode (d + BitVec.ofNat 32 i) = false) →
      exec (.movtuc srclen srcaddr esc tbladdr dstlen dstaddr) s =
        .refused (.storeIntoCode (d + BitVec.ofNat 32 k)))

/-! ### CRC -/

/-- R110, R111, R116: with a readable well-formed table for `poly`, CRC leaves in R0 what the bit-serial algorithm of
R110 gives for `poly`, whatever the step size; R1 to R3, the codes and nothing else of the state after the operands
change. -/
def Obligations.CrcIsTheBitSerialCrc : Prop :=
  ∀ (tbl inicrc strlen stream : Specifier) (s u : State) (tb c n a poly : Word),
    operandsGive (.crc tbl inicrc strlen stream) s [tb, c, n, a] u →
    (∀ j < 64, readableAt u tb j) → tableFor u tb poly → (∀ i < lengthOf n, readableAt u a i) →
    exec (.crc tbl inicrc strlen stream) s =
      .next (((((u.setReg .r0 (crcSerial poly c (stringBytes u a (lengthOf n)))).setReg .r1 0).setReg .r2 0).setReg .r3
        (a + BitVec.ofNat 32 (lengthOf n))).setCodes
          { n := (crcSerial poly c (stringBytes u a (lengthOf n))).getLsbD 31,
            z := crcSerial poly c (stringBytes u a (lengthOf n)) == 0, v := false, c := false })

/-- R112 item 1: a stream of length zero leaves the initial CRC in R0, reading no byte of string or table: on every
platform and whatever the table. -/
def Obligations.CrcOfEmptyStreamIsInitialCrc : Prop :=
  ∀ (tbl inicrc strlen stream : Specifier) (s u : State) (tb c n a : Word),
    operandsGive (.crc tbl inicrc strlen stream) s [tb, c, n, a] u → lengthOf n = 0 →
    exec (.crc tbl inicrc strlen stream) s =
      .next (((((u.setReg .r0 c).setReg .r1 0).setReg .r2 0).setReg .r3 a).setCodes
        { n := c.getLsbD 31, z := c == 0, v := false, c := false })

/-- R115: a table that is the table of no polynomial does not stop CRC; R1, R2, R3, V, C and the PC are as for any
other table, memory and the other registers are unchanged. Of R0, N and Z nothing is said: they are drawn. -/
def Obligations.CrcIllFormedTableCompletes : Prop :=
  ∀ (tbl inicrc strlen stream : Specifier) (s u : State) (tb c n a : Word),
    operandsGive (.crc tbl inicrc strlen stream) s [tb, c, n, a] u → lengthOf n ≠ 0 →
    (∀ j < 64, readableAt u tb j) → (∀ poly, ¬ tableFor u tb poly) → (∀ i < lengthOf n, readableAt u a i) →
    ∃ t, exec (.crc tbl inicrc strlen stream) s = .next t ∧ t.reg .r1 = 0 ∧ t.reg .r2 = 0 ∧
      t.reg .r3 = a + BitVec.ofNat 32 (lengthOf n) ∧ t.codes.v = false ∧ t.codes.c = false ∧ t.pc = u.pc ∧
      sameMemory u t ∧ unchangedBut u t [.r0, .r1, .r2, .r3]

/-- R35, R116, R162: CRC of a stream that is not empty faults at an unreadable byte. An unreadable byte of the table's 64
ends it in AccessViolation before any string byte is looked at, whatever the step size; that the first of several is the
one named is the model's choice (notes/assumptions/29.md). With the table readable, the first string byte that may not be
read is the one named; that this is so also with a table that is not well-formed, where R115 says that the result is
drawn and there is no fault, is the model's reading (notes/assumptions/17.md). -/
def Obligations.CrcFaultsAtUnreadableByte : Prop :=
  ∀ (tbl inicrc strlen stream : Specifier) (s u : State) (tb c n a : Word) (j : Nat),
    operandsGive (.crc tbl inicrc strlen stream) s [tb, c, n, a] u →
    (lengthOf n ≠ 0 → j < 64 → (∀ i < j, readableAt u tb i) →
      u.platform.accessible (tb + BitVec.ofNat 32 j) .read = false →
      exec (.crc tbl inicrc strlen stream) s =
        .fault (.accessViolation s.pc (tb + BitVec.ofNat 32 j) .read s.mem)) ∧
    (j < lengthOf n → (∀ i < 64, readableAt u tb i) → (∀ i < j, readableAt u a i) →
      u.platform.accessible (a + BitVec.ofNat 32 j) .read = false →
      exec (.crc tbl inicrc strlen stream) s =
        .fault (.accessViolation s.pc (a + BitVec.ofNat 32 j) .read s.mem))

/-- R116: one byte included by table steps of 1, 2 or 4 bits is the byte included by eight single shifts, for every
polynomial, every CRC and every byte. -/
def Obligations.StepSizesAgree : Prop :=
  ∀ (sh : CrcShift) (poly crc : Word) (b : Byte),
    crcByte sh (crcTableEntry poly) crc b = crcByteSerial poly crc b

/-- R114: 16 longwords in memory are a well-formed table exactly when they are, entry for entry, what R113 gives for some
polynomial, and that polynomial is then entry 8; entry 0 is zero, entry 4 one shift of the polynomial, and the entry of
an XOR of indices the XOR of the entries. -/
def Obligations.WellFormedTables : Prop :=
  (∀ (m : Memory) (tbl : Word),
    (crcWellFormed m tbl = true ↔ ∃ poly, ∀ k < 16, crcEntry m tbl k = crcTableEntry poly k) ∧
    ∀ poly, (∀ k < 16, crcEntry m tbl k = crcTableEntry poly k) → crcEntry m tbl 0 = 0 ∧ crcEntry m tbl 8 = poly) ∧
  ∀ poly : Word, crcTableEntry poly 0 = 0 ∧ crcTableEntry poly 8 = poly ∧
    crcTableEntry poly 4 = (poly >>> 1) ^^^ (if poly.getLsbD 0 then poly else 0) ∧
    ∀ j < 16, ∀ k < 16, crcTableEntry poly (j ^^^ k) = crcTableEntry poly j ^^^ crcTableEntry poly k

/-- R112 item 3, R119: a stream held in two strings. The CRC of the second string, its inicrc the R0 that the CRC of the
first leaves, is the CRC of the concatenated stream: whichever step sizes, and wherever the strings and the tables for
`poly` stand in each run. -/
def Obligations.CrcContinuesOverParts : Prop :=
  ∀ (i1 i2 i3 : Instr) (s1 u1 t1 s2 u2 s3 u3 : State) (tb1 n1 a1 tb2 n2 a2 tb3 n3 a3 c poly : Word),
    crcOver i1 s1 u1 tb1 c n1 a1 poly → exec i1 s1 = .next t1 →
    crcOver i2 s2 u2 tb2 (t1.reg .r0) n2 a2 poly → crcOver i3 s3 u3 tb3 c n3 a3 poly →
    stringBytes u3 a3 (lengthOf n3) = stringBytes u1 a1 (lengthOf n1) ++ stringBytes u2 a2 (lengthOf n2) →
    ∃ t2 t3, exec i2 s2 = .next t2 ∧ exec i3 s3 = .next t3 ∧ t2.reg .r0 = t3.reg .r0

/-- R112 item 2: with a 16-bit polynomial and an initial CRC of 16 bits the upper half of the CRC stays zero. -/
def Obligations.ShortPolynomialsKeepUpperBitsZero : Prop :=
  ∀ (poly crc : Word) (bs : List Byte), poly.toNat < 2 ^ 16 → crc.toNat < 2 ^ 16 →
    (crcSerial poly crc bs).toNat < 2 ^ 16

/-- R117: bit `j` of the polynomial value is the coefficient of `x^(order - 1 - j)` for `j` below the order, and zero
from there up. -/
def Obligations.PolynomialBitsAreCoefficients : Prop :=
  ∀ (order : Nat) (exponents : List Nat) (j : Nat), order ≤ 32 → (∀ e ∈ exponents, e < order) → j < 32 →
    ((crcPolynomial order exponents).getLsbD j = true ↔ j < order ∧ order - 1 - j ∈ exponents)

/-- R118: the three polynomials of the source, written with R117, have the values printed. -/
def Obligations.PrintedPolynomials : Prop :=
  crcPolynomial 16 [15, 2, 0] = 0xA001 ∧ crcPolynomial 16 [12, 5, 0] = 0x8408 ∧
    crcPolynomial 32 [26, 23, 22, 16, 12, 11, 10, 8, 7, 5, 4, 2, 1, 0] = 0xEDB88320

/-! ### Memory -/

/-- R30, R31, R40: after a store of `n` bytes that succeeds, each of its addresses reads the value's byte of that
position, least significant first, every other address reads as before, and reading `n` bytes back gives the value's
low `8 n` bits. -/
def Obligations.StoreThenLoadReturnsValue : Prop :=
  ∀ (s t : State) (a v : Word) (n : Nat), n ≤ 4 → memWrite s a n v = .ok t →
    (∀ i < n, byteAt t a i = v.extractLsb' (8 * i) 8) ∧
    (∀ x, (∀ i < n, x ≠ (a + BitVec.ofNat 32 i).toNat) → t.mem.get x = s.mem.get x) ∧
    ((∀ i < n, readableAt t a i) → ∃ w, memRead t a n = .ok w ∧ w.toNat = v.toNat % 2 ^ (8 * n))

/-- R30: a store with an inaccessible byte stores nothing: the first such byte is reported and memory is as it was. -/
def Obligations.FailedStoreWritesNothing : Prop :=
  ∀ (s : State) (a v : Word) (n i : Nat), i < n →
    s.platform.accessible (a + BitVec.ofNat 32 i) .write = false →
    (∀ j < i, s.platform.accessible (a + BitVec.ofNat 32 j) .write = true) →
    memWrite s a n v = .error (.exception (.accessViolation (a + BitVec.ofNat 32 i) .write) s.mem)

/-- R30, R31, R37: a longword read is its four bytes, the lowest address in bits 7:0, when they may be read; a read of any
number of bytes with one that may not be read gives no value: the first such byte is reported. -/
def Obligations.LongwordsAreLittleEndian : Prop :=
  ∀ (s : State) (a : Word),
    ((∀ i < 4, readableAt s a i) →
      memRead s a 4 = .ok (byteAt s a 3 ++ (byteAt s a 2 ++ (byteAt s a 1 ++ byteAt s a 0)))) ∧
    ∀ n j, firstUnreadable s a n j → memRead s a n = raise s (.accessViolation (a + BitVec.ofNat 32 j) .read)

/-- The canonical form of memory (the model's, notes/assumptions/4.md): two canonical memories that read the same
everywhere are the same data. -/
def Obligations.CanonicalMemoriesAreEqual : Prop :=
  ∀ m m' : Memory, m.wf → m'.wf → (∀ x, m.get x = m'.get x) → m = m'

/-! ### Decimal strings: the common rules -/

/-- R136: overflow is exactly `m >= 10^L`, and then the value stored has magnitude `m mod 10^L` and the true sign, -0
included. -/
def Obligations.DecimalOverflowKeepsLowDigits : Prop :=
  ∀ (v : Decimal) (digits : Nat) (keep : Bool),
    (v.overflows digits = true ↔ 10 ^ digits ≤ v.magnitude) ∧
    (v.overflows digits = true → v.stored digits keep = ⟨v.magnitude % 10 ^ digits, v.negative⟩)

/-- R139: a zero stored without overflow is +0 unless -0 is kept (CVTPT); a zero left by overflow has the true sign; N
is cleared and Z set on either zero. -/
def Obligations.DecimalZeroSigns : Prop :=
  ∀ (v : Decimal) (digits : Nat) (vBit cBit : Bool),
    (v.overflows digits = false → v.magnitude = 0 → v.stored digits false = ⟨0, false⟩) ∧
    (v.overflows digits = false → v.stored digits true = v) ∧
    (v.overflows digits = true → (v.stored digits false).negative = v.negative) ∧
    (v.magnitude = 0 → (decimalCodes v vBit cBit).n = false ∧ (decimalCodes v vBit cBit).z = true ∧ v.toInt = 0)

/-- R143, R144, R148, R133: a packed string generated for a value that fits has the bytes its length gives, no invalid
nibble, and reads back as the value, sign included. -/
def Obligations.PackedStringsReadBack : Prop :=
  ∀ (v : Decimal) (digits : Nat), v.overflows digits = false →
    (packedBytes v digits).length = DecimalType.packed.bytes digits ∧
    packedInvalid digits (packedBytes v digits) = false ∧ packedValue (packedBytes v digits) = v

/-- R140, R161: a decimal length operand is reserved exactly when it is above 31, and the abort leaves the PC at the
opcode. -/
def Obligations.DecimalLengthAbove31IsReserved : Prop :=
  ∀ (s : State) (length : Word16),
    (length.toNat ≤ 31 → checkDecimalLength s length = .ok ()) ∧
    (31 < length.toNat → ∀ p : Word,
      conclude p ((checkDecimalLength s length).map fun _ => s) = .fault (.reservedOperand p))

/-- R145, R146, R147: the storage of zero-length strings is 1, 0 and 1 bytes; a zero-length trailing numeric source is
zero, read without an access on every platform and whatever its code, and a destination stores nothing. -/
def Obligations.ZeroLengthDecimalStrings : Prop :=
  DecimalType.packed.bytes 0 = 1 ∧ DecimalType.trailing.bytes 0 = 0 ∧ DecimalType.leadingSeparate.bytes 0 = 1 ∧
    packedBytes ⟨0, false⟩ 0 = [0x0C] ∧ packedBytes ⟨0, true⟩ 0 = [0x0D] ∧
    (∀ (s : State) (a : Word), readDecimalBytes s a (DecimalType.trailing.bytes 0) = .ok []) ∧
    (∀ (last : Byte → Option (Nat × Bool)) (s : State) (a : Word), readTrailing last s a 0 = .ok ⟨0, false⟩) ∧
    ∀ (code : Nat → Bool → Byte) (v : Decimal), trailingBytes code v 0 = []

/-- R131, R133: a numeric string generated for a value that fits has the bytes its length gives and reads back as the
value; a trailing string's most significant digit stands at the lowest address, and its last byte is the code of its
least significant digit and sign, for every code that is read as it is written. With no digit a trailing string reads as
+0 (R146). The characters are general knowledge (R149, notes/assumptions/23.md). -/
def Obligations.NumericStringsReadBack : Prop :=
  ∀ (v : Decimal) (digits : Nat), v.overflows digits = false →
    (leadingSeparateBytes v digits).length = DecimalType.leadingSeparate.bytes digits ∧
    leadingSeparateValue (leadingSeparateBytes v digits) = some v ∧
    ∀ (code : Nat → Bool → Byte) (last : Byte → Option (Nat × Bool)),
      (∀ d ≤ 9, ∀ neg, last (code d neg) = some (d, neg)) →
      (trailingBytes code v digits).length = DecimalType.trailing.bytes digits ∧
      trailingValue last (trailingBytes code v digits) = some (if digits = 0 then ⟨0, false⟩ else v) ∧
      (2 ≤ digits → (trailingBytes code v digits)[0]? =
        some (digitByte (BitVec.ofNat 4 (v.magnitude / 10 ^ (digits - 1))))) ∧
      (1 ≤ digits → (trailingBytes code v digits)[digits - 1]? = some (code (v.magnitude % 10) v.negative))

/-- R140, R141, R147, R161: the sources of CVTSP and CVTTP are verified: readable bytes that hold an invalid sign or digit
end in ReservedOperand at the opcode, any others give their value. A zero-length leading separate source is read through
its sign byte: an unreadable byte raises AccessViolation, an invalid sign ReservedOperand, and otherwise the value is a
zero with that sign. Which bytes are signs and digits is general knowledge (R149, notes/assumptions/23.md). -/
def Obligations.NumericSourcesAreVerified : Prop :=
  (∀ (s t : State) (p a : Word) (digits : Nat),
    (∀ i < DecimalType.leadingSeparate.bytes digits, readableAt s a i) →
    (∀ v, leadingSeparateValue (stringBytes s a (DecimalType.leadingSeparate.bytes digits)) = some v →
      readLeadingSeparate s a digits = .ok v) ∧
    (leadingSeparateValue (stringBytes s a (DecimalType.leadingSeparate.bytes digits)) = none →
      conclude p ((readLeadingSeparate s a digits).map fun _ => t) = .fault (.reservedOperand p))) ∧
  (∀ (last : Byte → Option (Nat × Bool)) (s t : State) (p a : Word) (digits : Nat),
    (∀ i < digits, readableAt s a i) →
    (∀ v, trailingValue last (stringBytes s a digits) = some v → readTrailing last s a digits = .ok v) ∧
    (trailingValue last (stringBytes s a digits) = none →
      conclude p ((readTrailing last s a digits).map fun _ => t) = .fault (.reservedOperand p))) ∧
  ∀ (s : State) (a : Word),
    (s.platform.accessible a .read = false → readLeadingSeparate s a 0 = raise s (.accessViolation a .read)) ∧
    (s.platform.accessible a .read = true →
      (s.mem.get a.toNat ∉ [0x2B, 0x20, 0x2D] → readLeadingSeparate s a 0 = raise s .reservedOperand) ∧
      (s.mem.get a.toNat ∈ [0x2B, 0x20] → readLeadingSeparate s a 0 = .ok ⟨0, false⟩) ∧
      (s.mem.get a.toNat = 0x2D → readLeadingSeparate s a 0 = .ok ⟨0, true⟩))

/-- R134: at completion R1, R3 and, for three string operands, R5 hold the addresses of the most significant digits: the
lowest-addressed byte of a packed or trailing string, the byte after the sign of a leading separate one (the model's
choice between that and the sign byte, and for a string of no digits too: notes/assumptions/28.md); and no register but
R0 to R3, or R0 to R5, changes. The zeros in R0, R2 and R4 are general knowledge (notes/assumptions/23.md). -/
def Obligations.ControlBlockHoldsDigitAddresses : Prop :=
  ∀ (s : State) (first second : DecimalString) (third : Option DecimalString),
    (∀ d : DecimalString, d.mostSignificant =
      d.address + (if d.type = .leadingSeparate then 1 else 0)) ∧
    (setControlBlock s first second third).reg .r1 = first.mostSignificant ∧
    (setControlBlock s first second third).reg .r3 = second.mostSignificant ∧
    (setControlBlock s first second third).reg .r0 = 0 ∧ (setControlBlock s first second third).reg .r2 = 0 ∧
    (∀ d, third = some d → (setControlBlock s first second third).reg .r4 = 0 ∧
      (setControlBlock s first second third).reg .r5 = d.mostSignificant) ∧
    ∀ r, r ∉ [Reg.r0, .r1, .r2, .r3] → (third = none ∨ r ∉ [Reg.r4, .r5]) →
      (setControlBlock s first second third).reg r = s.reg r

/-- R138, R164: a decimal instruction that completes has V set exactly on decimal overflow, N and Z those of the value
stored and C as given, and changes nothing else; with DV set an overflow traps instead of going on. That this is what
overflow does is general knowledge (notes/assumptions/23.md). -/
def Obligations.DecimalOverflowSetsVAndTraps : Prop :=
  ∀ (s : State) (v : Decimal) (digits : Nat) (keep c : Bool),
    (v.overflows digits = true → pslDV s.psl = true →
      completeDecimal s v digits keep c = raise s .decimalOverflow) ∧
    (v.overflows digits = false ∨ pslDV s.psl = false →
      ∃ t, completeDecimal s v digits keep c = .ok t ∧ t.codes.v = v.overflows digits ∧ t.codes.c = c ∧
        (t.codes.n = true ↔ (v.stored digits keep).toInt < 0) ∧ (t.codes.z = true ↔ (v.stored digits keep).toInt = 0) ∧
        (∀ r, t.reg r = s.reg r) ∧ (∀ j, 4 ≤ j → t.psl.getLsbD j = s.psl.getLsbD j) ∧ sameMemory s t)
end

