-- ==== Sys2Proof/Laws/Memory.lean ====
section
/-! SUPPORT. The laws of memory: a read after a write, the canonical form, extents. -/

namespace Sys2Proof.Machine

/-! ### Reading and writing one byte -/

theorem Memory.get_filter_ne (m : Memory) {a b : Nat} (h : b ≠ a) :
    Memory.get (m.filter fun c => c.1 != a) b = Memory.get m b := by
  induction m with
  | nil => rfl
  | cons c m ih =>
    by_cases hc : c.1 = a
    · have hb : ¬ c.1 = b := by omega
      simp [hc, Memory.get, ih, show ¬ a = b by omega]
    · simp [hc, Memory.get, ih]

theorem Memory.get_filter_same (m : Memory) (a : Nat) :
    Memory.get (m.filter fun c => c.1 != a) a = unlistedByte := by
  induction m with
  | nil => rfl
  | cons c m ih =>
    by_cases hc : c.1 = a
    · simp [hc, ih]
    · simp [hc, Memory.get, ih]

theorem Memory.get_insert_ne (m : Memory) {a x : Nat} (b : Byte) (h : x ≠ a) :
    Memory.get (Memory.insert m a b) x = Memory.get m x := by
  induction m with
  | nil => simp [Memory.insert, Memory.get, Ne.symm h]
  | cons c m ih =>
    unfold Memory.insert
    split
    · simp [Memory.get, Ne.symm h]
    · simp [Memory.get, ih]

theorem Memory.get_insert_same (m : Memory) (a : Nat) (b : Byte) (h : ∀ c ∈ m, c.1 ≠ a) :
    Memory.get (Memory.insert m a b) a = b := by
  induction m with
  | nil => simp [Memory.insert, Memory.get]
  | cons c m ih =>
    unfold Memory.insert
    split
    · simp [Memory.get]
    · have hc : c.1 ≠ a := h c (by simp)
      simp [Memory.get, hc, ih fun d hd => h d (by simp [hd])]

/-- A read of the address written gives the byte written (R40). -/
@[simp] theorem Memory.get_set_same (m : Memory) (a : Nat) (b : Byte) : (m.set a b).get a = b := by
  unfold Memory.set
  simp only
  split
  · next h => rw [Memory.get_filter_same, h]
  · refine Memory.get_insert_same _ _ _ fun c hc => ?_
    simpa using (List.mem_filter.mp hc).2

/-- A write leaves every other address alone (R40). -/
theorem Memory.get_set_ne (m : Memory) {a x : Nat} (b : Byte) (h : x ≠ a) : (m.set a b).get x = m.get x := by
  unfold Memory.set
  simp only
  split
  · exact Memory.get_filter_ne m h
  · rw [Memory.get_insert_ne _ _ h, Memory.get_filter_ne m h]

theorem Memory.get_set (m : Memory) (a x : Nat) (b : Byte) :
    (m.set a b).get x = if x = a then b else m.get x := by
  split
  · next h => subst h; simp
  · next h => exact Memory.get_set_ne m b h

/-! ### The canonical form -/

theorem Memory.wf_nil : Memory.wf [] := by decide

theorem Memory.mem_insert {m : Memory} {a : Nat} {b : Byte} {c : Host.Cell} :
    c ∈ Memory.insert m a b → c = (a, b) ∨ c ∈ m := by
  induction m with
  | nil => simp [Memory.insert]
  | cons d m ih =>
    unfold Memory.insert
    split
    · simp
    · intro h
      rcases List.mem_cons.mp h with h | h
      · exact .inr (by simp [h])
      · rcases ih h with h | h
        · exact .inl h
        · exact .inr (by simp [h])

theorem Memory.wf_filter {m : Memory} (h : m.wf) (a : Nat) : Memory.wf (m.filter fun c => c.1 != a) :=
  ⟨h.1.sublist (List.filter_sublist.map _), fun c hc => h.2 c (List.mem_filter.mp hc).1⟩

theorem Memory.insert_sorted {m : Memory} {a : Nat} (b : Byte) (h : (m.map Prod.fst).Pairwise (· < ·))
    (ha : ∀ c ∈ m, c.1 ≠ a) : ((Memory.insert m a b).map Prod.fst).Pairwise (· < ·) := by
  induction m with
  | nil => simp [Memory.insert]
  | cons c m ih =>
    rw [List.map_cons, List.pairwise_cons] at h
    have hca : c.1 ≠ a := ha c (by simp)
    unfold Memory.insert
    split
    · next hlt =>
      simp only [List.map_cons, List.pairwise_cons]
      refine ⟨fun x hx => ?_, h⟩
      rcases List.mem_cons.mp hx with hx | hx
      · omega
      · have := h.1 x hx
        omega
    · next hlt =>
      simp only [List.map_cons, List.pairwise_cons]
      refine ⟨fun x hx => ?_, ih h.2 fun d hd => ha d (by simp [hd])⟩
      obtain ⟨d, hd, rfl⟩ := List.mem_map.mp hx
      rcases Memory.mem_insert hd with rfl | hd
      · show c.1 < a
        omega
      · exact h.1 _ (List.mem_map_of_mem hd)

/-- A write of one byte keeps the canonical form. -/
theorem Memory.wf_set {m : Memory} (h : m.wf) {a : Nat} (ha : a < 2 ^ 32) (b : Byte) : (m.set a b).wf := by
  unfold Memory.set
  simp only
  have hf := Memory.wf_filter h a
  split
  · exact hf
  · next hb =>
    refine ⟨Memory.insert_sorted b hf.1 fun c hc => by simpa using (List.mem_filter.mp hc).2, fun c hc => ?_⟩
    rcases Memory.mem_insert hc with rfl | hc
    · exact ⟨hb, ha⟩
    · exact hf.2 c hc

theorem Memory.wf_writeLE {m : Memory} (h : m.wf) (a v : Word) (n : Nat) : (m.writeLE a v n).wf := by
  induction n generalizing m a v with
  | zero => exact h
  | succ n ih => exact ih (Memory.wf_set h a.isLt _) _ _

theorem Memory.wf_loadBytes {m : Memory} (h : m.wf) (a : Word) (bs : List Byte) : (loadBytes m a bs).wf := by
  induction bs generalizing m a with
  | nil => exact h
  | cons b bs ih => exact ih (Memory.wf_set h a.isLt _) _

/-- Drawing the bytes of an extent keeps the canonical form. -/
theorem Memory.wf_drawBytes {s : State} (h : s.mem.wf) (a : Word) (n : Nat) : (drawBytes s a n).mem.wf := by
  induction n generalizing s a with
  | zero => exact h
  | succ n ih => exact ih (s := { s with mem := _, draws := _ }) (Memory.wf_set h a.isLt _) _

/-! ### Values of several bytes -/

@[simp] theorem Memory.readLE_zero (m : Memory) (a : Word) : m.readLE a 0 = 0 := rfl

theorem Memory.readLE_succ (m : Memory) (a : Word) (n : Nat) :
    m.readLE a (n + 1) = (m.get a.toNat).setWidth 32 ||| (m.readLE (a + 1) n <<< 8) := rfl

@[simp] theorem Memory.readLE_one (m : Memory) (a : Word) : m.readLE a 1 = (m.get a.toNat).setWidth 32 := by
  simp [Memory.readLE]

/-! ### Addresses of an extent -/

theorem addr_toNat (a : Word) (i : Nat) : (a + BitVec.ofNat 32 i).toNat = (a.toNat + i) % 2 ^ 32 := by
  simp [BitVec.toNat_add]

/-- Within 2^32 bytes, different positions have different addresses. -/
theorem addr_ne (a : Word) {i j : Nat} (hi : i < 2 ^ 32) (hj : j < 2 ^ 32) (h : i ≠ j) :
    (a + BitVec.ofNat 32 i).toNat ≠ (a + BitVec.ofNat 32 j).toNat := by
  rw [addr_toNat, addr_toNat]
  have := a.isLt
  omega

theorem addr_succ (a : Word) (i : Nat) : a + 1 + BitVec.ofNat 32 i = a + BitVec.ofNat 32 (i + 1) := by
  apply BitVec.eq_of_toNat_eq
  simp [BitVec.toNat_add]
  omega

@[simp] theorem addr_zero (a : Word) : a + BitVec.ofNat 32 0 = a := by simp

theorem Extent.contains_iff (e : Extent) (he : e.len ≤ 2 ^ 32) (a : Word) :
    e.contains a = true ↔ ∃ i < e.len, a = e.base + BitVec.ofNat 32 i := by
  unfold Extent.contains
  rw [decide_eq_true_iff]
  constructor
  · intro h
    refine ⟨_, h, ?_⟩
    apply BitVec.eq_of_toNat_eq
    simp only [BitVec.toNat_add, BitVec.toNat_sub, BitVec.toNat_ofNat]
    have := a.isLt
    have := e.base.isLt
    omega
  · rintro ⟨i, hi, rfl⟩
    simp only [BitVec.toNat_sub, BitVec.toNat_add, BitVec.toNat_ofNat]
    have := e.base.isLt
    omega

/-- Two extents overlap exactly when they share a byte address (R82). -/
theorem Extent.overlaps_iff (e f : Extent) (he : e.len ≤ 2 ^ 32) (hf : f.len ≤ 2 ^ 32) :
    e.overlaps f = true ↔
      ∃ i < e.len, ∃ j < f.len, e.base + BitVec.ofNat 32 i = f.base + BitVec.ofNat 32 j := by
  unfold Extent.overlaps
  simp only [Bool.and_eq_true, Bool.or_eq_true, decide_eq_true_iff]
  rw [Extent.contains_iff e he, Extent.contains_iff f hf]
  constructor
  · rintro ⟨⟨h1, h2⟩, ⟨i, hi, h⟩ | ⟨j, hj, h⟩⟩
    · exact ⟨i, hi, 0, h2, by simp [h]⟩
    · exact ⟨0, h1, j, hj, by simp [h]⟩
  · rintro ⟨i, hi, j, hj, h⟩
    refine ⟨⟨by omega, by omega⟩, ?_⟩
    have hn := congrArg BitVec.toNat h
    rw [addr_toNat, addr_toNat] at hn
    have := e.base.isLt
    have := f.base.isLt
    by_cases hij : j ≤ i
    · left
      refine ⟨i - j, by omega, BitVec.eq_of_toNat_eq ?_⟩
      rw [addr_toNat]
      omega
    · right
      refine ⟨j - i, by omega, BitVec.eq_of_toNat_eq ?_⟩
      rw [addr_toNat]
      omega

end Sys2Proof.Machine
end

