-- ==== Sys2Proof/Laws/State.lean ====
section
/-! SUPPORT. One lemma per field of State per update, and the laws of registers, of the condition codes and of the
PSL. -/

namespace Sys2Proof.Machine

@[simp] theorem State.setReg_mem (s : State) (r : Reg) (v : Word) : (s.setReg r v).mem = s.mem := by cases r <;> rfl
@[simp] theorem State.setReg_psl (s : State) (r : Reg) (v : Word) : (s.setReg r v).psl = s.psl := by cases r <;> rfl
@[simp] theorem State.setReg_platform (s : State) (r : Reg) (v : Word) : (s.setReg r v).platform = s.platform := by
  cases r <;> rfl
@[simp] theorem State.setReg_draws (s : State) (r : Reg) (v : Word) : (s.setReg r v).draws = s.draws := by
  cases r <;> rfl

@[simp] theorem State.reg_setReg_same (s : State) (r : Reg) (v : Word) : (s.setReg r v).reg r = v := by
  cases r <;> rfl

@[simp] theorem State.reg_setReg_ne (s : State) {r q : Reg} (v : Word) (h : q ≠ r) :
    (s.setReg r v).reg q = s.reg q := by
  cases r <;> cases q <;> first | rfl | exact absurd rfl h

/-- Reading any register after a write to any register. -/
theorem State.reg_setReg (s : State) (r q : Reg) (v : Word) :
    (s.setReg r v).reg q = if q = r then v else s.reg q := by
  split
  · next h => subst h; simp
  · next h => simp [h]

theorem State.setReg_pc (s : State) {r : Reg} (v : Word) (h : r ≠ .pc) : (s.setReg r v).pc = s.pc := by
  cases r <;> first | rfl | exact absurd rfl h

@[simp] theorem State.setReg_r0_pc (s : State) (v : Word) : (s.setReg .r0 v).pc = s.pc := rfl
@[simp] theorem State.setReg_r1_pc (s : State) (v : Word) : (s.setReg .r1 v).pc = s.pc := rfl
@[simp] theorem State.setReg_r2_pc (s : State) (v : Word) : (s.setReg .r2 v).pc = s.pc := rfl
@[simp] theorem State.setReg_r3_pc (s : State) (v : Word) : (s.setReg .r3 v).pc = s.pc := rfl
@[simp] theorem State.setReg_r4_pc (s : State) (v : Word) : (s.setReg .r4 v).pc = s.pc := rfl
@[simp] theorem State.setReg_r5_pc (s : State) (v : Word) : (s.setReg .r5 v).pc = s.pc := rfl

@[simp] theorem State.reg_pc (s : State) : s.reg .pc = s.pc := rfl

@[simp] theorem State.setCodes_regs (s : State) (k : Codes) : (s.setCodes k).regs = s.regs := rfl
@[simp] theorem State.setCodes_pc (s : State) (k : Codes) : (s.setCodes k).pc = s.pc := rfl
@[simp] theorem State.setCodes_mem (s : State) (k : Codes) : (s.setCodes k).mem = s.mem := rfl
@[simp] theorem State.setCodes_platform (s : State) (k : Codes) : (s.setCodes k).platform = s.platform := rfl
@[simp] theorem State.setCodes_draws (s : State) (k : Codes) : (s.setCodes k).draws = s.draws := rfl
@[simp] theorem State.setCodes_psl (s : State) (k : Codes) : (s.setCodes k).psl = pslWithCodes s.psl k := rfl
@[simp] theorem State.reg_setCodes (s : State) (k : Codes) (r : Reg) : (s.setCodes k).reg r = s.reg r := by
  cases r <;> rfl

@[simp] theorem State.advance_regs (s : State) (n : Nat) : (s.advance n).regs = s.regs := rfl
@[simp] theorem State.advance_pc (s : State) (n : Nat) : (s.advance n).pc = s.pc + BitVec.ofNat 32 n := rfl
@[simp] theorem State.advance_mem (s : State) (n : Nat) : (s.advance n).mem = s.mem := rfl
@[simp] theorem State.advance_psl (s : State) (n : Nat) : (s.advance n).psl = s.psl := rfl
@[simp] theorem State.advance_platform (s : State) (n : Nat) : (s.advance n).platform = s.platform := rfl
@[simp] theorem State.advance_draws (s : State) (n : Nat) : (s.advance n).draws = s.draws := rfl
theorem State.reg_advance (s : State) (n : Nat) {r : Reg} (h : r ≠ .pc) : (s.advance n).reg r = s.reg r := by
  cases r <;> first | rfl | exact absurd rfl h

@[simp] theorem drawReg_mem (s : State) (r : Reg) : (drawReg s r).mem = s.mem := by cases r <;> rfl
@[simp] theorem drawReg_psl (s : State) (r : Reg) : (drawReg s r).psl = s.psl := by cases r <;> rfl
@[simp] theorem drawReg_platform (s : State) (r : Reg) : (drawReg s r).platform = s.platform := by cases r <;> rfl
@[simp] theorem drawReg_draws (s : State) (r : Reg) : (drawReg s r).draws = s.draws + 1 := rfl
theorem reg_drawReg_ne (s : State) {r q : Reg} (h : q ≠ r) : (drawReg s r).reg q = s.reg q := by
  cases r <;> cases q <;> first | rfl | exact absurd rfl h

@[simp] theorem drawBit_mem (s : State) : (drawBit s).2.mem = s.mem := rfl
@[simp] theorem drawBit_psl (s : State) : (drawBit s).2.psl = s.psl := rfl
@[simp] theorem drawBit_platform (s : State) : (drawBit s).2.platform = s.platform := rfl
@[simp] theorem drawBit_pc (s : State) : (drawBit s).2.pc = s.pc := rfl
@[simp] theorem reg_drawBit (s : State) (r : Reg) : (drawBit s).2.reg r = s.reg r := by cases r <;> rfl

/-! ### The PSL -/

/-- Bits 31:4 of the PSL are not touched by the condition codes (R20). -/
theorem pslWithCodes_high (psl : Word) (k : Codes) {j : Nat} (h : 4 ≤ j) :
    (pslWithCodes psl k).getLsbD j = psl.getLsbD j := by
  unfold pslWithCodes
  rw [BitVec.getLsbD_append]
  have : ¬ j < 4 := by omega
  simp only [this, BitVec.getLsbD_extractLsb']
  by_cases hj : j < 32
  · have h1 : j - 4 < 28 := by omega
    have h2 : 4 + (j - 4) = j := by omega
    simp [h1, h2]
  · have h1 : ¬ j - 4 < 28 := by omega
    simp [h1, BitVec.getLsbD_of_ge psl j (by omega)]

/-- Bits 3:0 of the PSL are the condition codes (R16, R20). -/
theorem pslWithCodes_low (psl : Word) (k : Codes) {j : Nat} (h : j < 4) :
    (pslWithCodes psl k).getLsbD j = k.bits.getLsbD j := by
  unfold pslWithCodes
  rw [BitVec.getLsbD_append]
  simp only [h, if_true]

/-- The four condition codes read back as they were set (R16). -/
@[simp] theorem codesOf_pslWithCodes (psl : Word) (k : Codes) : codesOf (pslWithCodes psl k) = k := by
  obtain ⟨n, z, v, c⟩ := k
  unfold codesOf pslN pslZ pslV pslC
  rw [pslWithCodes_low _ _ (by decide), pslWithCodes_low _ _ (by decide), pslWithCodes_low _ _ (by decide),
    pslWithCodes_low _ _ (by decide)]
  cases n <;> cases z <;> cases v <;> cases c <;> rfl

/-- First part done is not touched by the condition codes (R19). -/
@[simp] theorem pslFPD_pslWithCodes (psl : Word) (k : Codes) : pslFPD (pslWithCodes psl k) = pslFPD psl :=
  pslWithCodes_high psl k (by decide)

@[simp] theorem State.fpd_setCodes (s : State) (k : Codes) : (s.setCodes k).fpd = s.fpd := by
  simp [State.fpd]

@[simp] theorem State.codes_setCodes (s : State) (k : Codes) : (s.setCodes k).codes = k := by
  simp [State.codes]

end Sys2Proof.Machine
end

