-- ==== Sys2Proof/Laws/Ops.lean ====
section
/-! SUPPORT. What each shared operation can do: access checks, reads, stores, draws, and how a result concludes. -/

namespace Sys2Proof.Machine

/-! ### Computations that may stop -/

theorem Res.bind_eq_ok {α β : Type} {x : Res α} {f : α → Res β} {b : β} :
    (x >>= f) = .ok b ↔ ∃ a, x = .ok a ∧ f a = .ok b := by
  cases x with
  | error e => simp [bind, Except.bind]
  | ok a => simp [bind, Except.bind]

theorem Res.bind_eq_error {α β : Type} {x : Res α} {f : α → Res β} {e : Stop} :
    (x >>= f) = .error e ↔ x = .error e ∨ ∃ a, x = .ok a ∧ f a = .error e := by
  cases x with
  | error e' => simp [bind, Except.bind]
  | ok a => simp [bind, Except.bind]

@[simp] theorem Res.ok_bind {α β : Type} (a : α) (f : α → Res β) : ((Except.ok a : Res α) >>= f) = f a := rfl

@[simp] theorem Res.error_bind {α β : Type} (e : Stop) (f : α → Res β) :
    ((Except.error e : Res α) >>= f) = .error e := rfl

@[simp] theorem conclude_ok (p : Word) (t : State) : conclude p (.ok t) = .next t := rfl

@[simp] theorem conclude_refusal (p : Word) (r : Refusal) : conclude p (.error (.refusal r)) = .refused r := rfl

theorem conclude_eq_next {p : Word} {r : Res State} {t : State} : conclude p r = .next t ↔ r = .ok t := by
  rcases r with (⟨e, m⟩ | r) | u
  · cases e <;> simp [conclude, takeException]
  · simp [conclude]
  · simp [conclude]

/-- An exception ends an instruction in the fault of its code, at the PC of the opcode (R169). -/
theorem conclude_eq_fault {p : Word} {r : Res State} {f : Fault} (h : conclude p r = .fault f) :
    ∃ e m, r = .error (.exception e m) ∧ takeException p e m = .fault f := by
  rcases r with (⟨e, m⟩ | r) | u
  · exact ⟨e, m, rfl, h⟩
  · simp [conclude] at h
  · simp [conclude] at h

/-! ### Access checks -/

/-- A check passes exactly when every byte of the access is accessible (R30, R37). -/
theorem checkAccess_ok_iff (s : State) (k : AccessKind) (a : Word) (n : Nat) :
    checkAccess s k a n = .ok () ↔ ∀ i < n, s.platform.accessible (a + BitVec.ofNat 32 i) k = true := by
  induction n generalizing a with
  | zero => simp [checkAccess]
  | succ n ih =>
    unfold checkAccess
    constructor
    · intro h i hi
      split at h
      · next h0 =>
        cases i with
        | zero => simpa using h0
        | succ i => rw [← addr_succ]; exact (ih (a + 1)).mp h i (by omega)
      · simp [raise] at h
    · intro h
      have h0 := h 0 (by omega)
      rw [addr_zero] at h0
      rw [if_pos h0]
      exact (ih (a + 1)).mpr fun i hi => by rw [addr_succ]; exact h (i + 1) (by omega)

/-- A check that fails raises AccessViolation on the first byte that is not accessible (R30). -/
theorem checkAccess_error {s : State} {k : AccessKind} {a : Word} {n : Nat} {e : Stop}
    (h : checkAccess s k a n = .error e) :
    ∃ i < n, e = .exception (.accessViolation (a + BitVec.ofNat 32 i) k) s.mem ∧
      s.platform.accessible (a + BitVec.ofNat 32 i) k = false ∧
      ∀ j < i, s.platform.accessible (a + BitVec.ofNat 32 j) k = true := by
  induction n generalizing a with
  | zero => simp [checkAccess] at h
  | succ n ih =>
    unfold checkAccess at h
    split at h
    · next h0 =>
      obtain ⟨i, hi, he, ha, hj⟩ := ih h
      refine ⟨i + 1, by omega, by rw [← addr_succ]; exact he, by rw [← addr_succ]; exact ha, fun j hj' => ?_⟩
      cases j with
      | zero => simpa using h0
      | succ j =>
        rw [← addr_succ]
        exact hj j (by omega)
    · next h0 =>
      refine ⟨0, by omega, ?_, by simpa using h0, fun j hj => absurd hj (by omega)⟩
      rw [addr_zero]
      simpa [raise] using h.symm

theorem readByte_ok_iff {s : State} {a : Word} {b : Byte} :
    readByte s a = .ok b ↔ s.platform.accessible a .read = true ∧ s.mem.get a.toNat = b := by
  unfold readByte raise
  split <;> simp_all

theorem readByte_ok {s : State} {a : Word} (h : s.platform.accessible a .read = true) :
    readByte s a = .ok (s.mem.get a.toNat) := by
  simp [readByte, h]

theorem readByte_error {s : State} {a : Word} {e : Stop} (h : readByte s a = .error e) :
    e = .exception (.accessViolation a .read) s.mem ∧ s.platform.accessible a .read = false := by
  unfold readByte raise at h
  split at h
  · simp at h
  · next h0 => exact ⟨by simpa using h.symm, by simpa using h0⟩

/-- The first byte that is not accessible is the one reported (R30). -/
theorem checkAccess_first_denied {s : State} {k : AccessKind} {a : Word} {n j : Nat} (hj : j < n)
    (hi : ∀ i < j, s.platform.accessible (a + BitVec.ofNat 32 i) k = true)
    (hx : s.platform.accessible (a + BitVec.ofNat 32 j) k = false) :
    checkAccess s k a n = .error (.exception (.accessViolation (a + BitVec.ofNat 32 j) k) s.mem) := by
  rcases hc : checkAccess s k a n with e | u
  · obtain ⟨i, hin, rfl, hd, hb⟩ := checkAccess_error hc
    have : i = j := by
      rcases Nat.lt_trichotomy i j with h1 | h1 | h1
      · rw [hi i h1] at hd
        simp at hd
      · exact h1
      · rw [hb j h1] at hx
        simp at hx
    rw [this]
  · rw [(checkAccess_ok_iff s k a n).mp hc j hj] at hx
    simp at hx

/-- A read with a byte that may not be read gives no value: the first such byte is reported (R30, R37, R162). -/
theorem memRead_first_denied {s : State} {a : Word} {n j : Nat} (hj : j < n)
    (hi : ∀ i < j, s.platform.accessible (a + BitVec.ofNat 32 i) .read = true)
    (hx : s.platform.accessible (a + BitVec.ofNat 32 j) .read = false) :
    memRead s a n = .error (.exception (.accessViolation (a + BitVec.ofNat 32 j) .read) s.mem) := by
  simp only [memRead, checkAccess_first_denied hj hi hx]

/-- `MemRead` delivers the bytes least significant first when all are readable (R30, R31). -/
theorem memRead_ok_iff {s : State} {a : Word} {n : Nat} {v : Word} :
    memRead s a n = .ok v ↔
      (∀ i < n, s.platform.accessible (a + BitVec.ofNat 32 i) .read = true) ∧ s.mem.readLE a n = v := by
  rw [← checkAccess_ok_iff]
  unfold memRead
  rcases checkAccess s .read a n with e | u <;> simp

theorem memRead_error {s : State} {a : Word} {n : Nat} {e : Stop} (h : memRead s a n = .error e) :
    checkAccess s .read a n = .error e := by
  unfold memRead at h
  rcases hc : checkAccess s .read a n with e' | u <;> simp_all

/-- A store passes the check of `code_range` exactly when it touches no byte of the program (R43). -/
theorem checkCode_ok_iff (s : State) (a : Word) (n : Nat) :
    checkCode s a n = .ok () ↔ ∀ i < n, s.platform.inCode (a + BitVec.ofNat 32 i) = false := by
  induction n generalizing a with
  | zero => simp [checkCode]
  | succ n ih =>
    unfold checkCode
    constructor
    · intro h i hi
      split at h
      · simp [refuse] at h
      · next h0 =>
        cases i with
        | zero => simpa using h0
        | succ i => rw [← addr_succ]; exact (ih (a + 1)).mp h i (by omega)
    · intro h
      have h0 := h 0 (by omega)
      rw [addr_zero] at h0
      simp only [h0, Bool.false_eq_true, if_false]
      exact (ih (a + 1)).mpr fun i hi => by rw [addr_succ]; exact h (i + 1) (by omega)

theorem checkCode_error {s : State} {a : Word} {n : Nat} {e : Stop} (h : checkCode s a n = .error e) :
    ∃ i < n, e = .refusal (.storeIntoCode (a + BitVec.ofNat 32 i)) ∧
      s.platform.inCode (a + BitVec.ofNat 32 i) = true := by
  induction n generalizing a with
  | zero => simp [checkCode] at h
  | succ n ih =>
    unfold checkCode at h
    split at h
    · next h0 =>
      refine ⟨0, by omega, ?_, by simpa using h0⟩
      rw [addr_zero]
      simpa [refuse] using h.symm
    · obtain ⟨i, hi, he, ha⟩ := ih h
      exact ⟨i + 1, by omega, by rw [← addr_succ]; exact he, by rw [← addr_succ]; exact ha⟩

/-- `MemWrite` succeeds exactly when every byte is writable and outside the program, and then stores the value's bytes
least significant first, changing nothing but memory (R30, R31, R43). -/
theorem memWrite_ok_iff {s t : State} {a : Word} {n : Nat} {v : Word} :
    memWrite s a n v = .ok t ↔
      (∀ i < n, s.platform.accessible (a + BitVec.ofNat 32 i) .write = true) ∧
      (∀ i < n, s.platform.inCode (a + BitVec.ofNat 32 i) = false) ∧
      t = { s with mem := s.mem.writeLE a v n } := by
  rw [← checkAccess_ok_iff, ← checkCode_ok_iff]
  unfold memWrite
  rcases checkAccess s .write a n with e | u <;> rcases checkCode s a n with e' | u' <;> simp [eq_comm]

theorem memWrite_error {s : State} {a : Word} {n : Nat} {v : Word} {e : Stop} (h : memWrite s a n v = .error e) :
    checkAccess s .write a n = .error e ∨ checkCode s a n = .error e := by
  unfold memWrite at h
  rcases hc : checkAccess s .write a n with e' | u <;> rcases hd : checkCode s a n with e'' | u' <;> simp_all

/-! ### Draws -/

/-- Draws change memory and the draw counter, and memory only within the extent (R82). -/
theorem drawBytes_frame (s : State) (a : Word) (n : Nat) :
    (drawBytes s a n).regs = s.regs ∧ (drawBytes s a n).pc = s.pc ∧ (drawBytes s a n).psl = s.psl ∧
      (drawBytes s a n).platform = s.platform := by
  induction n generalizing s a with
  | zero => exact ⟨rfl, rfl, rfl, rfl⟩
  | succ n ih => exact ih _ _

theorem drawBytes_mem (s : State) (a : Word) (n : Nat) (x : Nat)
    (h : ∀ i < n, x ≠ (a + BitVec.ofNat 32 i).toNat) : (drawBytes s a n).mem.get x = s.mem.get x := by
  induction n generalizing s a with
  | zero => rfl
  | succ n ih =>
    unfold drawBytes
    rw [ih _ (a + 1) fun i hi => by rw [addr_succ]; exact h (i + 1) (by omega)]
    exact Memory.get_set_ne _ _ (by simpa using h 0 (by omega))

/-- Reading any register depends on the registers and the PC only. -/
theorem State.reg_congr {s t : State} (h : t.regs = s.regs) (hp : t.pc = s.pc) (r : Reg) : t.reg r = s.reg r := by
  cases r <;> simp [State.reg, h, hp]

/-- An instruction begins with the PC past the opcode byte, and only with first part done 0 (R15, R19). -/
theorem beginInstr_ok {s t : State} : beginInstr s = .ok t ↔ s.fpd = false ∧ t = s.advance 1 := by
  unfold beginInstr refuse
  cases s.fpd <;> simp [eq_comm]

theorem beginInstr_of (s : State) (h : s.fpd = false) : beginInstr s = .ok (s.advance 1) := beginInstr_ok.mpr ⟨h, rfl⟩

theorem beginInstr_error {s : State} {e : Stop} (h : beginInstr s = .error e) : e = .refusal .firstPartDone := by
  unfold beginInstr refuse at h
  split at h <;> simp_all

end Sys2Proof.Machine
end

