-- ==== Sys2Proof/Laws/Operands.lean ====
section
/-! SUPPORT. What the evaluation of an operand specifier can do: what it changes when it succeeds, how it stops. -/

namespace Sys2Proof.Machine

/-- What an operand's evaluation leaves alone: everything but the PC and the register its mode writes (R62). -/
structure OperandFrame (s t : State) (writes : List Reg) : Prop where
  mem : t.mem = s.mem
  psl : t.psl = s.psl
  platform : t.platform = s.platform
  draws : t.draws = s.draws
  regs : ∀ r, r ≠ .pc → r ∉ writes → t.reg r = s.reg r

theorem OperandFrame.refl (s : State) (w : List Reg) : OperandFrame s s w := ⟨rfl, rfl, rfl, rfl, fun _ _ _ => rfl⟩

theorem OperandFrame.trans {s t u : State} {v w : List Reg} (h : OperandFrame s t v) (k : OperandFrame t u w) :
    OperandFrame s u (v ++ w) :=
  ⟨k.mem.trans h.mem, k.psl.trans h.psl, k.platform.trans h.platform, k.draws.trans h.draws, fun r hr hw =>
    (k.regs r hr fun h' => hw (by simp [h'])).trans (h.regs r hr fun h' => hw (by simp [h']))⟩

theorem OperandFrame.advance (s : State) (n : Nat) (w : List Reg) : OperandFrame s (s.advance n) w :=
  ⟨rfl, rfl, rfl, rfl, fun _ hr _ => State.reg_advance s n hr⟩

theorem OperandFrame.setReg (s : State) (r : Reg) (v : Word) : OperandFrame s (s.setReg r v) [r] :=
  ⟨by simp, by simp, by simp, by simp, fun q _ hq => State.reg_setReg_ne s v (by simpa using hq)⟩

/-- A mode changes nothing but the register it writes (R55), and leaves the PC where the specifier ends (R58). -/
theorem evalMode_ok {sz : OpSize} {m : Mode} {s t : State} {p : Place} (h : evalMode sz m s = .ok (p, t)) :
    OperandFrame s t m.modifies.toList ∧ (m.wellFormed sz = true → t.pc = s.pc) := by
  cases m with
  | literal v => simp only [evalMode, Except.ok.injEq, Prod.mk.injEq] at h; obtain ⟨-, rfl⟩ := h
                 exact ⟨.refl _ _, fun _ => rfl⟩
  | register r =>
    simp only [evalMode, refuse] at h
    split at h
    · simp at h
    · simp only [Except.ok.injEq, Prod.mk.injEq] at h; obtain ⟨-, rfl⟩ := h; exact ⟨.refl _ _, fun _ => rfl⟩
  | deferred r =>
    simp only [evalMode, refuse] at h
    split at h
    · simp at h
    · simp only [Except.ok.injEq, Prod.mk.injEq] at h; obtain ⟨-, rfl⟩ := h; exact ⟨.refl _ _, fun _ => rfl⟩
  | autodec r =>
    simp only [evalMode, refuse] at h
    split at h
    · simp at h
    · next hr =>
      simp only [Except.ok.injEq, Prod.mk.injEq] at h; obtain ⟨-, rfl⟩ := h
      exact ⟨.setReg _ _ _, fun _ => State.setReg_pc _ _ hr⟩
  | autoinc r =>
    simp only [evalMode, Except.ok.injEq, Prod.mk.injEq] at h; obtain ⟨-, rfl⟩ := h
    exact ⟨.setReg _ _ _, fun hw => State.setReg_pc _ _ (by simpa [Mode.wellFormed] using hw)⟩
  | autoincDeferred r =>
    simp only [evalMode, Res.bind_eq_ok, Except.ok.injEq, Prod.mk.injEq] at h
    obtain ⟨q, -, -, rfl⟩ := h
    exact ⟨.setReg _ _ _, fun hw => State.setReg_pc _ _ (by simpa [Mode.wellFormed] using hw)⟩
  | immediate d => simp only [evalMode, Except.ok.injEq, Prod.mk.injEq] at h; obtain ⟨-, rfl⟩ := h
                   exact ⟨.refl _ _, fun _ => rfl⟩
  | absolute a =>
    simp only [evalMode, Res.bind_eq_ok, Except.ok.injEq, Prod.mk.injEq] at h
    obtain ⟨q, -, -, rfl⟩ := h
    exact ⟨.refl _ _, fun _ => rfl⟩
  | disp r d => simp only [evalMode, Except.ok.injEq, Prod.mk.injEq] at h; obtain ⟨-, rfl⟩ := h
                exact ⟨.refl _ _, fun _ => rfl⟩
  | dispDeferred r d =>
    simp only [evalMode, Res.bind_eq_ok, Except.ok.injEq, Prod.mk.injEq] at h
    obtain ⟨q, -, -, rfl⟩ := h
    exact ⟨.refl _ _, fun _ => rfl⟩

/-- A specifier moves the PC past itself and changes nothing else but the register its mode writes (R55, R62). -/
theorem evalSpecifier_ok {sz : OpSize} {sp : Specifier} {s t : State} {p : Place}
    (h : evalSpecifier sz sp s = .ok (p, t)) :
    OperandFrame s t sp.modifies.toList ∧
      (sp.wellFormed sz = true → t.pc = s.pc + BitVec.ofNat 32 (sp.length sz)) := by
  cases sp with
  | direct m =>
    obtain ⟨hf, hp⟩ := evalMode_ok h
    exact ⟨OperandFrame.trans (v := []) (.advance s _ []) hf, hp⟩
  | indexed x m =>
    simp only [evalSpecifier, Res.bind_eq_ok, Except.ok.injEq, Prod.mk.injEq] at h
    obtain ⟨-, -, ⟨q, u⟩, hm, -, rfl⟩ := h
    obtain ⟨hf, hp⟩ := evalMode_ok hm
    exact ⟨OperandFrame.trans (v := []) (.advance s _ []) hf, hp⟩
  | indexedTwice x y => simp [evalSpecifier, raise] at h

theorem readOperand_ok {sz : OpSize} {sp : Specifier} {s t : State} {v : Word} (h : readOperand sz sp s = .ok (v, t)) :
    ∃ p, evalSpecifier sz sp s = .ok (p, t) := by
  simp only [readOperand, Res.bind_eq_ok] at h
  obtain ⟨⟨p, u⟩, he, h⟩ := h
  cases p with
  | value w => simp only [Except.ok.injEq, Prod.mk.injEq] at h; obtain ⟨-, rfl⟩ := h; exact ⟨_, he⟩
  | address ea =>
    simp only [Res.bind_eq_ok, Except.ok.injEq, Prod.mk.injEq] at h
    obtain ⟨-, -, -, rfl⟩ := h; exact ⟨_, he⟩
  | immediate ea d =>
    simp only [Res.bind_eq_ok, Except.ok.injEq, Prod.mk.injEq] at h
    obtain ⟨-, -, -, rfl⟩ := h; exact ⟨_, he⟩

theorem addressOperand_ok {sp : Specifier} {s t : State} {v : Word} (h : addressOperand sp s = .ok (v, t)) :
    ∃ p, evalSpecifier .byte sp s = .ok (p, t) := by
  unfold addressOperand at h
  split at h
  · simp [raise] at h
  · simp only [Res.bind_eq_ok, Except.ok.injEq, Prod.mk.injEq] at h
    obtain ⟨⟨p, u⟩, he, -, rfl⟩ := h
    exact ⟨p, he⟩

/-- An operand of any kind: the PC moves past its specifier, and nothing else changes but the register its mode
writes (R62). -/
theorem evalOperand_ok {k : OperandKind} {sp : Specifier} {s t : State} {v : Word}
    (h : evalOperand k sp s = .ok (v, t)) :
    OperandFrame s t sp.modifies.toList ∧
      (sp.wellFormed k.size = true → t.pc = s.pc + BitVec.ofNat 32 (sp.length k.size)) := by
  have : ∃ p, evalSpecifier k.size sp s = .ok (p, t) := by
    cases k with
    | rb =>
      simp only [evalOperand, Res.bind_eq_ok, Except.ok.injEq, Prod.mk.injEq] at h
      obtain ⟨⟨w, u⟩, hr, -, rfl⟩ := h
      exact readOperand_ok hr
    | rw =>
      simp only [evalOperand, Res.bind_eq_ok, Except.ok.injEq, Prod.mk.injEq] at h
      obtain ⟨⟨w, u⟩, hr, -, rfl⟩ := h
      exact readOperand_ok hr
    | rl => exact readOperand_ok h
    | ab => exact addressOperand_ok h
  obtain ⟨p, hp⟩ := this
  exact evalSpecifier_ok hp

theorem evalOperands_cons_ok {o : OperandKind × Specifier} {os : List (OperandKind × Specifier)} {s u : State}
    {vs : List Word} :
    evalOperands (o :: os) s = .ok (vs, u) ↔
      ∃ v t ws, evalOperand o.1 o.2 s = .ok (v, t) ∧ evalOperands os t = .ok (ws, u) ∧ vs = v :: ws := by
  simp only [evalOperands, Res.bind_eq_ok, Except.ok.injEq, Prod.mk.injEq]
  constructor
  · rintro ⟨⟨v, t⟩, h1, ⟨ws, u'⟩, h2, rfl, rfl⟩
    exact ⟨v, t, ws, h1, h2, rfl⟩
  · rintro ⟨v, t, ws, h1, h2, rfl⟩
    exact ⟨⟨v, t⟩, h1, ⟨ws, u⟩, h2, rfl, rfl⟩

@[simp] theorem evalOperands_nil_ok {s u : State} {vs : List Word} :
    evalOperands [] s = .ok (vs, u) ↔ vs = [] ∧ u = s := by
  simp [evalOperands, eq_comm]

/-- All operands of a list: the PC past them all, and nothing else but the registers their modes write (R62). -/
theorem evalOperands_ok {l : List (OperandKind × Specifier)} {s t : State} {vs : List Word}
    (h : evalOperands l s = .ok (vs, t)) :
    OperandFrame s t (l.filterMap fun o => o.2.modifies) ∧
      ((∀ o ∈ l, o.2.wellFormed o.1.size = true) → t.pc = s.pc + BitVec.ofNat 32 (specifiersLength l)) := by
  induction l generalizing s vs with
  | nil =>
    obtain ⟨-, rfl⟩ := evalOperands_nil_ok.mp h
    exact ⟨.refl _ _, fun _ => by simp [specifiersLength]⟩
  | cons o l ih =>
    obtain ⟨v, u, ws, h1, h2, rfl⟩ := evalOperands_cons_ok.mp h
    obtain ⟨f1, p1⟩ := evalOperand_ok h1
    obtain ⟨f2, p2⟩ := ih h2
    refine ⟨?_, fun hw => ?_⟩
    · have := f1.trans f2
      rcases hm : o.2.modifies with _ | r <;> simpa [hm] using this
    · rw [p2 fun o' ho => hw o' (by simp [ho]), p1 (hw o (by simp))]
      apply BitVec.eq_of_toNat_eq
      simp [specifiersLength, BitVec.toNat_add]
      omega

/-- Every way an operand's evaluation stops: an inaccessible read, a reserved addressing mode, an UNPREDICTABLE form
(R58, R59, R62, R163); memory is as it was. -/
inductive OperandStop (s : State) : Stop → Prop where
  | read (a : Word) (h : s.platform.accessible a .read = false) :
    OperandStop s (.exception (.accessViolation a .read) s.mem)
  | reserved : OperandStop s (.exception .reservedAddressingMode s.mem)
  | pcMode : OperandStop s (.refusal .unpredictablePcMode)
  | indexedImmediate : OperandStop s (.refusal .unpredictableIndexedImmediate)
  | indexRegister : OperandStop s (.refusal .unpredictableIndexRegister)

theorem OperandStop.of_frame {s t : State} {w : List Reg} {e : Stop} (h : OperandFrame s t w) (k : OperandStop t e) :
    OperandStop s e := by
  have hm := h.mem
  have hp := h.platform
  cases k with
  | read a ha => rw [hm]; exact .read a (by rw [← hp]; exact ha)
  | reserved => rw [hm]; exact .reserved
  | pcMode => exact .pcMode
  | indexedImmediate => exact .indexedImmediate
  | indexRegister => exact .indexRegister

theorem checkAccess_operandStop {s : State} {a : Word} {n : Nat} {e : Stop} (h : checkAccess s .read a n = .error e) :
    OperandStop s e := by
  obtain ⟨i, -, rfl, ha, -⟩ := checkAccess_error h
  exact .read _ ha

theorem memRead_operandStop {s : State} {a : Word} {n : Nat} {e : Stop} (h : memRead s a n = .error e) :
    OperandStop s e := checkAccess_operandStop (memRead_error h)

theorem evalMode_error {sz : OpSize} {m : Mode} {s : State} {e : Stop} (h : evalMode sz m s = .error e) :
    OperandStop s e := by
  cases m with
  | literal v => simp [evalMode] at h
  | register r =>
    simp only [evalMode, refuse] at h
    split at h
    · obtain rfl : Stop.refusal .unpredictablePcMode = e := by simpa using h
      exact .pcMode
    · simp at h
  | deferred r =>
    simp only [evalMode, refuse] at h
    split at h
    · obtain rfl : Stop.refusal .unpredictablePcMode = e := by simpa using h
      exact .pcMode
    · simp at h
  | autodec r =>
    simp only [evalMode, refuse] at h
    split at h
    · obtain rfl : Stop.refusal .unpredictablePcMode = e := by simpa using h
      exact .pcMode
    · simp at h
  | autoinc r => simp [evalMode] at h
  | autoincDeferred r =>
    simp only [evalMode, Res.bind_eq_error] at h
    rcases h with h | ⟨_, _, h⟩
    · exact memRead_operandStop h
    · simp at h
  | immediate d => simp [evalMode] at h
  | absolute a =>
    simp only [evalMode, Res.bind_eq_error] at h
    rcases h with h | ⟨_, _, h⟩
    · exact checkAccess_operandStop h
    · simp at h
  | disp r d => simp [evalMode] at h
  | dispDeferred r d =>
    simp only [evalMode, Res.bind_eq_error] at h
    rcases h with h | ⟨_, _, h⟩
    · exact memRead_operandStop h
    · simp at h

theorem checkIndexed_error {x : Reg} {m : Mode} {s : State} {e : Stop} (h : checkIndexed x m s = .error e) :
    OperandStop s e := by
  unfold checkIndexed raise refuse at h
  split at h
  · obtain rfl : Stop.exception .reservedAddressingMode s.mem = e := by simpa using h
    exact .reserved
  · split at h
    · obtain rfl : Stop.refusal .unpredictablePcMode = e := by simpa using h
      exact .pcMode
    · split at h
      · obtain rfl : Stop.refusal .unpredictableIndexRegister = e := by simpa using h
        exact .indexRegister
      · cases m with
        | immediate d =>
          obtain rfl : Stop.refusal .unpredictableIndexedImmediate = e := by simpa using h
          exact .indexedImmediate
        | _ => simp at h

theorem evalSpecifier_error {sz : OpSize} {sp : Specifier} {s : State} {e : Stop}
    (h : evalSpecifier sz sp s = .error e) : OperandStop s e := by
  refine OperandStop.of_frame (w := []) (OperandFrame.advance s (sp.length sz) []) ?_
  cases sp with
  | direct m => exact evalMode_error h
  | indexed x m =>
    simp only [evalSpecifier, Res.bind_eq_error] at h
    rcases h with h | ⟨_, _, h | ⟨_, _, h⟩⟩
    · exact checkIndexed_error h
    · exact evalMode_error h
    · simp at h
  | indexedTwice x y =>
    obtain rfl : Stop.exception .reservedAddressingMode s.mem = e := by simpa [evalSpecifier, raise] using h
    exact .reserved

theorem readOperand_error {sz : OpSize} {sp : Specifier} {s : State} {e : Stop} (h : readOperand sz sp s = .error e) :
    OperandStop s e := by
  simp only [readOperand, Res.bind_eq_error] at h
  rcases h with h | ⟨⟨p, t⟩, he, h⟩
  · exact evalSpecifier_error h
  · refine OperandStop.of_frame (evalSpecifier_ok he).1 ?_
    cases p with
    | value v => simp at h
    | address ea =>
      simp only [Res.bind_eq_error] at h
      rcases h with h | ⟨_, _, h⟩
      · exact memRead_operandStop h
      · simp at h
    | immediate ea d =>
      simp only [Res.bind_eq_error] at h
      rcases h with h | ⟨_, _, h⟩
      · exact checkAccess_operandStop h
      · simp at h

theorem addressOperand_error {sp : Specifier} {s : State} {e : Stop} (h : addressOperand sp s = .error e) :
    OperandStop s e := by
  unfold addressOperand at h
  split at h
  · obtain rfl : Stop.exception .reservedAddressingMode s.mem = e := by simpa [raise] using h
    exact .reserved
  · simp only [Res.bind_eq_error] at h
    rcases h with h | ⟨_, _, h⟩
    · exact evalSpecifier_error h
    · simp at h

theorem evalOperand_error {k : OperandKind} {sp : Specifier} {s : State} {e : Stop}
    (h : evalOperand k sp s = .error e) : OperandStop s e := by
  cases k with
  | rb =>
    simp only [evalOperand, Res.bind_eq_error] at h
    rcases h with h | ⟨_, _, h⟩
    · exact readOperand_error h
    · simp at h
  | rw =>
    simp only [evalOperand, Res.bind_eq_error] at h
    rcases h with h | ⟨_, _, h⟩
    · exact readOperand_error h
    · simp at h
  | rl => exact readOperand_error h
  | ab => exact addressOperand_error h

/-- However far the operands get, a stop among them is an operand's stop (R62, R167). -/
theorem evalOperands_error {l : List (OperandKind × Specifier)} {s : State} {e : Stop}
    (h : evalOperands l s = .error e) : OperandStop s e := by
  induction l generalizing s with
  | nil => simp [evalOperands] at h
  | cons o l ih =>
    simp only [evalOperands, Res.bind_eq_error] at h
    rcases h with h | ⟨⟨v, t⟩, h1, h | ⟨_, _, h⟩⟩
    · exact evalOperand_error h
    · exact OperandStop.of_frame (evalOperand_ok h1).1 (ih h)
    · simp at h

/-! ### How the stopping forms stop -/

/-- The operands before one that stops are evaluated, and its stop is the list's (R62, R167). -/
theorem evalOperands_append_error {pre post : List (OperandKind × Specifier)} {o : OperandKind × Specifier}
    {s v : State} {vs : List Word} {e : Stop}
    (h : evalOperands pre s = .ok (vs, v)) (he : evalOperand o.1 o.2 v = .error e) :
    evalOperands (pre ++ o :: post) s = .error e := by
  induction pre generalizing s vs with
  | nil => obtain ⟨-, rfl⟩ := evalOperands_nil_ok.mp h; simp [evalOperands, he]
  | cons p pre ih =>
    obtain ⟨w, t, ws, h1, h2, -⟩ := evalOperands_cons_ok.mp h
    simp [evalOperands, h1, ih h2]

/-- A run of operands in two parts: the second starts from what the first leaves, memory being as it was (R62). -/
theorem evalOperands_append_ok {l l' : List (OperandKind × Specifier)} {s u : State} {vs : List Word} :
    evalOperands (l ++ l') s = .ok (vs, u) ↔
      ∃ ws t ws', evalOperands l s = .ok (ws, t) ∧ evalOperands l' t = .ok (ws', u) ∧ vs = ws ++ ws' ∧
        t.mem = s.mem := by
  constructor
  · intro h
    induction l generalizing s vs with
    | nil => exact ⟨[], s, vs, rfl, h, rfl, rfl⟩
    | cons o l ih =>
      obtain ⟨v, t, vs', h1, h2, rfl⟩ := evalOperands_cons_ok.mp h
      obtain ⟨ws, t', ws', h3, h4, rfl, hm⟩ := ih h2
      exact ⟨v :: ws, t', ws', evalOperands_cons_ok.mpr ⟨v, t, ws, h1, h3, rfl⟩, h4, rfl,
        hm.trans (evalOperand_ok h1).1.mem⟩
  · rintro ⟨ws, t, ws', h1, h2, rfl, -⟩
    induction l generalizing s ws with
    | nil => obtain ⟨rfl, rfl⟩ := evalOperands_nil_ok.mp h1; exact h2
    | cons o l ih =>
      obtain ⟨v, t', vs', h3, h4, rfl⟩ := evalOperands_cons_ok.mp h1
      exact evalOperands_cons_ok.mpr ⟨v, t', vs' ++ ws', h3, ih _ h4, rfl⟩

/-- A read operand whose specifier gives an address delivers the value there (R56, R57). -/
theorem readOperand_of_address {sz : OpSize} {sp : Specifier} {s t : State} {ea : Word}
    (h : evalSpecifier sz sp s = .ok (.address ea, t))
    (hr : ∀ i < sz.bytes, t.platform.accessible (ea + BitVec.ofNat 32 i) .read = true) :
    readOperand sz sp s = .ok (t.mem.readLE ea sz.bytes, t) := by
  simp only [readOperand, h, Res.ok_bind, memRead_ok_iff.mpr ⟨hr, rfl⟩]

/-- A read operand whose specifier gives an address faults on the first byte there that may not be read (R30, R162). -/
theorem readOperand_first_denied {sz : OpSize} {sp : Specifier} {s t : State} {ea : Word} {j : Nat}
    (h : evalSpecifier sz sp s = .ok (.address ea, t)) (hj : j < sz.bytes)
    (hi : ∀ i < j, t.platform.accessible (ea + BitVec.ofNat 32 i) .read = true)
    (hx : t.platform.accessible (ea + BitVec.ofNat 32 j) .read = false) :
    readOperand sz sp s = .error (.exception (.accessViolation (ea + BitVec.ofNat 32 j) .read) s.mem) := by
  simp only [readOperand, h, Res.ok_bind, memRead_first_denied hj hi hx, (evalSpecifier_ok h).1.mem, Res.error_bind]

/-- An operand of address access whose specifier gives an address is that address (R56). -/
theorem addressOperand_of_address {sp : Specifier} {s t : State} {ea : Word}
    (h : evalSpecifier .byte sp s = .ok (.address ea, t)) : addressOperand sp s = .ok (ea, t) := by
  have hn : sp.noAddress = false := by
    cases sp with
    | direct m =>
      cases m <;> simp_all [Specifier.noAddress, Mode.reservedBase, evalSpecifier, evalMode]
      next r => split at h <;> simp [refuse] at h
    | _ => rfl
  simp only [addressOperand, hn, h, Res.ok_bind, Bool.false_eq_true, if_false, Place.baseAddress]

/-- A reserved specifier raises the reserved addressing mode fault whatever the state (R56, R58, R59, R163). -/
theorem reserved_error {k : OperandKind} {sp : Specifier} {v : State} (h : Specifier.reserved k sp = true) :
    evalOperand k sp v = .error (.exception .reservedAddressingMode v.mem) := by
  cases sp with
  | direct m =>
    simp only [Specifier.reserved, Bool.and_eq_true, beq_iff_eq] at h
    obtain ⟨rfl, h⟩ := h
    simp [evalOperand, addressOperand, Specifier.noAddress, h, raise]
  | indexed x m =>
    simp only [Specifier.reserved, Bool.or_eq_true, beq_iff_eq] at h
    have : ∀ sz, evalSpecifier sz (.indexed x m) v = .error (.exception .reservedAddressingMode v.mem) := by
      intro sz
      simp [evalSpecifier, checkIndexed, h, raise]
    cases k <;> simp [evalOperand, readOperand, addressOperand, Specifier.noAddress, this]
  | indexedTwice x y =>
    cases k <;> simp [evalOperand, readOperand, addressOperand, Specifier.noAddress, evalSpecifier, raise]

/-- An operand whose specifier stops, not being reserved, stops as the specifier does, whatever its size (R56). -/
theorem evalOperand_error_of_specifier {k : OperandKind} {sp : Specifier} {v : State} {e : Stop}
    (h : Specifier.reserved k sp = false) (he : ∀ sz, evalSpecifier sz sp v = .error e) : evalOperand k sp v = .error e := by
  have hn : k = .ab → sp.noAddress = false := by
    rintro rfl
    cases sp <;> simp_all [Specifier.reserved, Specifier.noAddress]
  cases k <;> simp [evalOperand, readOperand, addressOperand, he, hn]

/-- The PC in register, register deferred or autodecrement mode, alone or as a base, is refused (R58). -/
theorem unpredictablePc_error {k : OperandKind} {sp : Specifier} {m : Mode} {v : State}
    (h : Specifier.reserved k sp = false) (hm : m.unpredictablePc = true) (hs : sp = .direct m ∨ ∃ x, sp = .indexed x m) :
    evalOperand k sp v = .error (.refusal .unpredictablePcMode) := by
  refine evalOperand_error_of_specifier h fun sz => ?_
  rcases hs with rfl | ⟨x, rfl⟩
  · cases m <;> simp_all [Mode.unpredictablePc, evalSpecifier, evalMode, refuse]
  · simp only [Specifier.reserved, Bool.or_eq_false_iff, beq_eq_false_iff_ne] at h
    simp [evalSpecifier, checkIndexed, h, hm, refuse]

/-- An index register that its base modifies is refused (R59). -/
theorem indexRegister_error {k : OperandKind} {x : Reg} {m : Mode} {v : State}
    (h : Specifier.reserved k (.indexed x m) = false) (hm : m.modifies = some x) :
    evalOperand k (.indexed x m) v = .error (.refusal .unpredictableIndexRegister) := by
  refine evalOperand_error_of_specifier h fun sz => ?_
  simp only [Specifier.reserved, Bool.or_eq_false_iff, beq_eq_false_iff_ne] at h
  have hu : m.unpredictablePc = false := by cases m <;> simp_all [Mode.modifies, Mode.unpredictablePc]
  simp [evalSpecifier, checkIndexed, h, hu, hm, refuse]

/-- An immediate base under index mode is refused (R59). -/
theorem indexedImmediate_error {k : OperandKind} {x : Reg} {d : BitVec 32} {v : State}
    (h : Specifier.reserved k (.indexed x (.immediate d)) = false) :
    evalOperand k (.indexed x (.immediate d)) v = .error (.refusal .unpredictableIndexedImmediate) := by
  refine evalOperand_error_of_specifier h fun sz => ?_
  simp only [Specifier.reserved, Bool.or_eq_false_iff, beq_eq_false_iff_ne] at h
  simp [evalSpecifier, checkIndexed, h, Mode.unpredictablePc, Mode.modifies, refuse]

/-! ### Legal specifiers -/

/-- No access is denied anywhere. -/
theorem accessible_of_nothing_denied {s : State} (h : s.platform.denied = []) (a : Word) (k : AccessKind) :
    s.platform.accessible a k = true := by
  simp [Platform.accessible, h]

theorem checkAccess_of_nothing_denied {s : State} (h : s.platform.denied = []) (k : AccessKind) (a : Word) (n : Nat) :
    checkAccess s k a n = .ok () :=
  (checkAccess_ok_iff s k a n).mpr fun _ _ => accessible_of_nothing_denied h _ _

theorem memRead_of_nothing_denied {s : State} (h : s.platform.denied = []) (a : Word) (n : Nat) :
    memRead s a n = .ok (s.mem.readLE a n) := by
  simp [memRead, checkAccess_of_nothing_denied h]

theorem evalMode_of_nothing_denied {s : State} (h : s.platform.denied = []) (sz : OpSize) {m : Mode}
    (hm : m.unpredictablePc = false) : ∃ p, evalMode sz m s = .ok p := by
  cases m <;> simp_all [evalMode, Mode.unpredictablePc, memRead_of_nothing_denied, checkAccess_of_nothing_denied]

/-- A legal specifier evaluates, for every state in which no access is denied (R55, R58, R59). -/
theorem evalSpecifier_of_legal {s : State} (h : s.platform.denied = []) (sz : OpSize) {k : OperandKind}
    {sp : Specifier} (hl : sp.legal k = true) : ∃ p, evalSpecifier sz sp s = .ok p := by
  simp only [Specifier.legal, Bool.and_eq_true, Bool.not_eq_true'] at hl
  obtain ⟨hr, hu⟩ := hl
  cases sp with
  | direct m => exact evalMode_of_nothing_denied (s := s.advance _) h sz hu
  | indexed x m =>
    simp only [Specifier.reserved, Bool.or_eq_false_iff, beq_eq_false_iff_ne] at hr
    simp only [Specifier.unpredictable, Bool.or_eq_false_iff, beq_eq_false_iff_ne] at hu
    obtain ⟨⟨hu1, hu2⟩, hu3⟩ := hu
    obtain ⟨⟨p, t⟩, hp⟩ := evalMode_of_nothing_denied (s := s.advance ((Specifier.indexed x m).length sz)) h sz hu1
    have hc : checkIndexed x m (s.advance ((Specifier.indexed x m).length sz)) = .ok () := by
      cases m <;> simp_all [checkIndexed]
    exact ⟨_, by simp only [evalSpecifier, hc, hp, Res.ok_bind]; rfl⟩
  | indexedTwice x y => simp [Specifier.reserved] at hr

/-- A legal operand evaluates, for every state in which no access is denied (R56). -/
theorem evalOperand_of_legal {s : State} (h : s.platform.denied = []) {k : OperandKind} {sp : Specifier}
    (hl : sp.legal k = true) : ∃ p, evalOperand k sp s = .ok p := by
  have read : ∀ sz, ∃ p, readOperand sz sp s = .ok p := by
    intro sz
    obtain ⟨⟨p, t⟩, hp⟩ := evalSpecifier_of_legal h sz hl
    have ht : t.platform.denied = [] := by rw [(evalSpecifier_ok hp).1.platform]; exact h
    cases p <;> simp [readOperand, hp, memRead_of_nothing_denied ht, checkAccess_of_nothing_denied ht]
  cases k with
  | rb => obtain ⟨p, hp⟩ := read .byte; exact ⟨_, by simp only [evalOperand, hp, Res.ok_bind]; rfl⟩
  | rw => obtain ⟨p, hp⟩ := read .word; exact ⟨_, by simp only [evalOperand, hp, Res.ok_bind]; rfl⟩
  | rl => exact read .long
  | ab =>
    obtain ⟨p, hp⟩ := evalSpecifier_of_legal h .byte hl
    have hn : sp.noAddress = false := by
      cases sp <;> simp_all [Specifier.legal, Specifier.reserved, Specifier.noAddress]
    exact ⟨_, by simp only [evalOperand, addressOperand, hn, hp, Res.ok_bind, Bool.false_eq_true, if_false]; rfl⟩

theorem evalOperands_of_legal {l : List (OperandKind × Specifier)} {s : State} (h : s.platform.denied = [])
    (hl : ∀ o ∈ l, o.2.legal o.1 = true) : ∃ p, evalOperands l s = .ok p := by
  induction l generalizing s with
  | nil => exact ⟨_, rfl⟩
  | cons o l ih =>
    obtain ⟨⟨v, t⟩, hp⟩ := evalOperand_of_legal h (hl o (by simp))
    have ht : t.platform.denied = [] := by rw [(evalOperand_ok hp).1.platform]; exact h
    obtain ⟨⟨vs, u⟩, hq⟩ := ih ht fun o' ho => hl o' (by simp [ho])
    exact ⟨_, by simp only [evalOperands, hp, hq, Res.ok_bind]; rfl⟩

end Sys2Proof.Machine
end

