-- ==== Sys2Proof/Laws/Bodies.lean ====
section
/-! SUPPORT. Every instruction as one shape (begin, operands left to right, body), and what each body can do. -/

namespace Sys2Proof.Machine

/-- The body of an instruction on its evaluated operands. (The last case does not occur: an instruction's operand list
has the length of its Format line.) -/
def bodyOf (i : Instr) (vs : List Word) (u : State) : Res State :=
  match i, vs with
  | .crc _ _ _ _, [tbl, inicrc, strlen, stream] => crcBody tbl inicrc (strlen.setWidth 16) stream u
  | .scanc _ _ _ _, [len, addr, tbladdr, mask] => scancBody (len.setWidth 16) addr tbladdr (mask.setWidth 8) u
  | .spanc _ _ _ _, [len, addr, tbladdr, mask] => spancBody (len.setWidth 16) addr tbladdr (mask.setWidth 8) u
  | .movtuc _ _ _ _ _ _, [srclen, srcaddr, esc, tbladdr, dstlen, dstaddr] =>
    movtucBody (srclen.setWidth 16) srcaddr (esc.setWidth 8) tbladdr (dstlen.setWidth 16) dstaddr u
  | .skpc _ _ _, [char, len, addr] => skpcBody (char.setWidth 8) (len.setWidth 16) addr u
  | _, _ => refuse .firstPartDone

/-- Every meaning is: begin, evaluate the operands left to right, run the body, conclude (R9, R62). -/
theorem exec_eq (i : Instr) (s : State) :
    exec i s = conclude s.pc (do
      let s0 ← beginInstr s
      let (vs, u) ← evalOperands i.operands s0
      bodyOf i vs u) := by
  cases i <;>
    simp [exec, execCrc, execScanc, execSpanc, execMovtuc, execSkpc, Instr.operands, evalOperands, bodyOf, bind_assoc]

theorem exec_of_fpd {i : Instr} {s : State} (h : s.fpd = true) : exec i s = .refused .firstPartDone := by
  rw [exec_eq]
  simp [beginInstr, h, refuse]

/-- Once its operands are evaluated an instruction is its body. -/
theorem exec_of_operands {i : Instr} {s u : State} {vs : List Word} (hf : s.fpd = false)
    (h : evalOperands i.operands (s.advance 1) = .ok (vs, u)) : exec i s = conclude s.pc (bodyOf i vs u) := by
  rw [exec_eq, beginInstr_of s hf]
  simp [h]

/-- A stop among the operands is the instruction's stop (R62, R167). -/
theorem exec_of_operands_error {i : Instr} {s : State} {e : Stop} (hf : s.fpd = false)
    (h : evalOperands i.operands (s.advance 1) = .error e) : exec i s = conclude s.pc (.error e) := by
  rw [exec_eq, beginInstr_of s hf]
  simp [h]

/-- An instruction that completes began with first part done 0, evaluated its operands, and ran its body. -/
theorem exec_next {i : Instr} {s t : State} (h : exec i s = .next t) :
    s.fpd = false ∧ ∃ vs u, evalOperands i.operands (s.advance 1) = .ok (vs, u) ∧ bodyOf i vs u = .ok t := by
  rw [exec_eq, conclude_eq_next] at h
  obtain ⟨s0, h0, h⟩ := Res.bind_eq_ok.mp h
  obtain ⟨hf, rfl⟩ := beginInstr_ok.mp h0
  obtain ⟨⟨vs, u⟩, h1, h2⟩ := Res.bind_eq_ok.mp h
  exact ⟨hf, vs, u, h1, h2⟩

/-- An instruction that faults does so in its operands or in its body, with first part done 0. -/
theorem exec_fault {i : Instr} {s : State} {f : Fault} (h : exec i s = .fault f) :
    ∃ e m, takeException s.pc e m = .fault f ∧
      (evalOperands i.operands (s.advance 1) = .error (.exception e m) ∨
        ∃ vs u, evalOperands i.operands (s.advance 1) = .ok (vs, u) ∧ bodyOf i vs u = .error (.exception e m)) := by
  rw [exec_eq] at h
  obtain ⟨e, m, h, ht⟩ := conclude_eq_fault h
  refine ⟨e, m, ht, ?_⟩
  rcases Res.bind_eq_error.mp h with h0 | ⟨s0, h0, h⟩
  · exact absurd (beginInstr_error h0) (by simp)
  · obtain ⟨-, rfl⟩ := beginInstr_ok.mp h0
    rcases Res.bind_eq_error.mp h with h1 | ⟨⟨vs, u⟩, h1, h2⟩
    · exact .inl h1
    · exact .inr ⟨vs, u, h1, h2⟩

/-! ### The scanning loop -/

/-- The loop passes the bytes that do not stop it and ends at the first that does, or with the string (R84, R86, R88);
it touches nothing past that byte (R35). -/
theorem scanString_stopsAt {s : State} {stops : Byte → Res Bool} {n k : Nat} {a : Word} (hk : k ≤ n)
    (hpass : ∀ i < k, s.platform.accessible (a + BitVec.ofNat 32 i) .read = true ∧
      stops (s.mem.get (a + BitVec.ofNat 32 i).toNat) = .ok false)
    (hstop : k < n → s.platform.accessible (a + BitVec.ofNat 32 k) .read = true ∧
      stops (s.mem.get (a + BitVec.ofNat 32 k).toNat) = .ok true) :
    scanString s stops n a = .ok (n - k, a + BitVec.ofNat 32 k) := by
  induction n generalizing a k with
  | zero =>
    obtain rfl : k = 0 := by omega
    simp [scanString]
  | succ n ih =>
    unfold scanString
    cases k with
    | zero =>
      obtain ⟨h1, h2⟩ := hstop (by omega)
      rw [addr_zero] at h1 h2
      simp [readByte_ok h1, h2]
    | succ k =>
      obtain ⟨h1, h2⟩ := hpass 0 (by omega)
      rw [addr_zero] at h1 h2
      rw [readByte_ok h1, Res.ok_bind, h2]
      simp only [Res.ok_bind, Bool.false_eq_true, if_false]
      rw [ih (a := a + 1) (k := k) (by omega)
        (fun i hi => by rw [addr_succ]; exact hpass (i + 1) (by omega))
        (fun h => by rw [addr_succ]; exact hstop (by omega)), addr_succ]
      simp

/-- However the loop ends, what is left and the next address fit together (R80). -/
theorem scanString_ok {s : State} {stops : Byte → Res Bool} {n left : Nat} {a next : Word}
    (h : scanString s stops n a = .ok (left, next)) :
    left ≤ n ∧ next = a + BitVec.ofNat 32 (n - left) := by
  induction n generalizing a with
  | zero =>
    simp only [scanString, Except.ok.injEq, Prod.mk.injEq] at h
    obtain ⟨rfl, rfl⟩ := h
    simp
  | succ n ih =>
    unfold scanString at h
    obtain ⟨b, -, h⟩ := Res.bind_eq_ok.mp h
    obtain ⟨hit, -, h⟩ := Res.bind_eq_ok.mp h
    split at h
    · simp only [Except.ok.injEq, Prod.mk.injEq] at h
      obtain ⟨rfl, rfl⟩ := h
      simp
    · obtain ⟨h1, h2⟩ := ih h
      refine ⟨by omega, ?_⟩
      rw [h2, addr_succ]
      congr 2
      omega

/-- The loop stops abnormally only where a read of its own or of the test does. -/
theorem scanString_error {s : State} {stops : Byte → Res Bool} {n : Nat} {a : Word} {e : Stop}
    (h : scanString s stops n a = .error e) :
    (∃ x, e = .exception (.accessViolation x .read) s.mem ∧ s.platform.accessible x .read = false) ∨
      ∃ b, stops b = .error e := by
  induction n generalizing a with
  | zero => simp [scanString] at h
  | succ n ih =>
    unfold scanString at h
    rcases Res.bind_eq_error.mp h with h | ⟨b, -, h⟩
    · exact .inl ⟨a, readByte_error h⟩
    · rcases Res.bind_eq_error.mp h with h | ⟨hit, -, h⟩
      · exact .inr ⟨b, h⟩
      · split at h
        · simp at h
        · exact ih h

theorem maskedEntry_ok {s : State} {tbladdr : Word} {mask b : Byte}
    (h : s.platform.accessible (tbladdr + b.setWidth 32) .read = true) :
    maskedEntry s tbladdr mask b = .ok (s.mem.get (tbladdr + b.setWidth 32).toNat &&& mask) := by
  simp [maskedEntry, readByte_ok h]

theorem maskedEntry_error {s : State} {tbladdr : Word} {mask b : Byte} {e : Stop}
    (h : maskedEntry s tbladdr mask b = .error e) :
    e = .exception (.accessViolation (tbladdr + b.setWidth 32) .read) s.mem ∧
      s.platform.accessible (tbladdr + b.setWidth 32) .read = false := by
  unfold maskedEntry at h
  rcases Res.bind_eq_error.mp h with h | ⟨_, _, h⟩
  · exact readByte_error h
  · simp at h

/-! ### The translating loop -/

/-- What a translation changes: memory, and only at the `k` addresses it stored to (R81, R83 item 6). -/
structure TranslationFrame (n m : Nat) (src dst : Word) (s : State) (r : Translation) : Prop where
  state : ∃ mem, r.state = { s with mem := mem }
  count : ∃ k, k ≤ n ∧ k ≤ m ∧ r.srcLeft = n - k ∧ r.dstLeft = m - k ∧ r.src = src + BitVec.ofNat 32 k ∧
    r.dst = dst + BitVec.ofNat 32 k ∧
    ∀ x, (∀ i < k, x ≠ (dst + BitVec.ofNat 32 i).toNat) → r.state.mem.get x = s.mem.get x

theorem memWrite_byte_ok {s t : State} {a : Word} {b : Byte} (h : memWrite s a 1 (b.setWidth 32) = .ok t) :
    t = { s with mem := s.mem.set a.toNat b } := by
  rw [(memWrite_ok_iff.mp h).2.2]
  simp [Memory.writeLE]

theorem memWrite_byte {s : State} {a : Word} (b : Byte) (hw : s.platform.accessible a .write = true)
    (hc : s.platform.inCode a = false) :
    memWrite s a 1 (b.setWidth 32) = .ok { s with mem := s.mem.set a.toNat b } := by
  rw [memWrite_ok_iff]
  refine ⟨fun i hi => ?_, fun i hi => ?_, by simp [Memory.writeLE]⟩ <;>
    · obtain rfl : i = 0 := by omega
      simpa using by assumption

theorem translateString_ok {esc : Byte} {tbladdr : Word} {n m : Nat} {src dst : Word} {s : State} {r : Translation}
    (h : translateString esc tbladdr n m src dst s = .ok r) : TranslationFrame n m src dst s r := by
  induction n generalizing m src dst s with
  | zero =>
    simp only [translateString, Except.ok.injEq] at h
    subst h
    exact ⟨⟨s.mem, rfl⟩, 0, by omega, by omega, rfl, rfl, by simp, by simp, fun _ _ => rfl⟩
  | succ n ih =>
    cases m with
    | zero =>
      simp only [translateString, Except.ok.injEq] at h
      subst h
      exact ⟨⟨s.mem, rfl⟩, 0, by omega, by omega, rfl, rfl, by simp, by simp, fun _ _ => rfl⟩
    | succ m =>
      unfold translateString at h
      obtain ⟨b, -, h⟩ := Res.bind_eq_ok.mp h
      obtain ⟨t, -, h⟩ := Res.bind_eq_ok.mp h
      split at h
      · simp only [Except.ok.injEq] at h
        subst h
        exact ⟨⟨s.mem, rfl⟩, 0, by omega, by omega, rfl, rfl, by simp, by simp, fun _ _ => rfl⟩
      · obtain ⟨s', hw, h⟩ := Res.bind_eq_ok.mp h
        obtain rfl := memWrite_byte_ok hw
        obtain ⟨⟨mem, hm⟩, k, h1, h2, h3, h4, h5, h6, h7⟩ := ih h
        refine ⟨⟨mem, hm⟩, k + 1, by omega, by omega, by omega, by omega, by rw [h5, addr_succ],
          by rw [h6, addr_succ], fun x hx => ?_⟩
        rw [h7 x fun i hi => by rw [addr_succ]; exact hx (i + 1) (by omega)]
        exact Memory.get_set_ne _ _ (by simpa using hx 0 (by omega))

theorem translateString_wf {esc : Byte} {tbladdr : Word} {n m : Nat} {src dst : Word} {s : State} {r : Translation}
    (hs : s.mem.wf) (h : translateString esc tbladdr n m src dst s = .ok r) : r.state.mem.wf := by
  induction n generalizing m src dst s with
  | zero =>
    simp only [translateString, Except.ok.injEq] at h
    subst h
    exact hs
  | succ n ih =>
    cases m with
    | zero =>
      simp only [translateString, Except.ok.injEq] at h
      subst h
      exact hs
    | succ m =>
      unfold translateString at h
      obtain ⟨b, -, h⟩ := Res.bind_eq_ok.mp h
      obtain ⟨t, -, h⟩ := Res.bind_eq_ok.mp h
      split at h
      · simp only [Except.ok.injEq] at h
        subst h
        exact hs
      · obtain ⟨s', hw, h⟩ := Res.bind_eq_ok.mp h
        obtain rfl := memWrite_byte_ok hw
        exact ih (s := { s with mem := _ }) (Memory.wf_set hs dst.isLt _) h

/-! ### The result registers -/

@[simp] theorem setScanResult_mem (s : State) (k : Nat) (a : Word) : (setScanResult s k a).mem = s.mem := by
  simp [setScanResult]
@[simp] theorem setScanResult_pc (s : State) (k : Nat) (a : Word) : (setScanResult s k a).pc = s.pc := by
  simp [setScanResult]
@[simp] theorem setScanResult_platform (s : State) (k : Nat) (a : Word) :
    (setScanResult s k a).platform = s.platform := by simp [setScanResult]
@[simp] theorem setScanResult_psl (s : State) (k : Nat) (a : Word) :
    (setScanResult s k a).psl = pslWithCodes s.psl (scanCodes (BitVec.ofNat 32 k)) := by simp [setScanResult]

@[simp] theorem setTableResult_mem (s : State) (a : Word) : (setTableResult s a).mem = s.mem := by
  simp [setTableResult]
@[simp] theorem setTableResult_pc (s : State) (a : Word) : (setTableResult s a).pc = s.pc := by simp [setTableResult]
@[simp] theorem setTableResult_platform (s : State) (a : Word) : (setTableResult s a).platform = s.platform := by
  simp [setTableResult]
@[simp] theorem setTableResult_psl (s : State) (a : Word) : (setTableResult s a).psl = s.psl := by
  simp [setTableResult]

@[simp] theorem setCrcRest_mem (s : State) (n : Word16) (a : Word) : (setCrcRest s n a).mem = s.mem := by
  simp [setCrcRest]
@[simp] theorem setCrcRest_pc (s : State) (n : Word16) (a : Word) : (setCrcRest s n a).pc = s.pc := by
  simp [setCrcRest]
@[simp] theorem setCrcRest_platform (s : State) (n : Word16) (a : Word) :
    (setCrcRest s n a).platform = s.platform := by simp [setCrcRest]
@[simp] theorem setCrcRest_psl (s : State) (n : Word16) (a : Word) : (setCrcRest s n a).psl = s.psl := by
  simp [setCrcRest]

end Sys2Proof.Machine
end

