-- ==== Sys2Proof/Laws/Decode.lean ====
section
/-! SUPPORT. The pieces of the decoder and of the encoder: each piece decodes what its encoder writes, writes back what it
decoded, and has the length of the rules. -/

namespace Sys2Proof

/-! ### Registers and specifier bytes -/

@[simp] theorem Reg.ofNumber_number (r : Reg) : Reg.ofNumber r.number = r := by cases r <;> rfl

@[simp] theorem Reg.number_ofNumber (n : BitVec 4) : (Reg.ofNumber n).number = n := by
  revert n
  decide

@[simp] theorem specifierMode_byte (m : BitVec 4) (r : Reg) : specifierMode (specifierByte m r) = m := by
  revert m
  cases r <;> decide

@[simp] theorem specifierReg_byte (m : BitVec 4) (r : Reg) : specifierReg (specifierByte m r) = r := by
  revert m
  cases r <;> decide

/-- A specifier byte is its mode and its register (R54). -/
theorem specifierByte_mode_reg (b : Byte) : specifierByte (specifierMode b) (specifierReg b) = b := by
  revert b
  decide

/-! ### Bytes of words and longwords -/

theorem getLsbD_four (b3 b2 b1 b0 : Byte) (i : Nat) :
    (b3 ++ (b2 ++ (b1 ++ b0)) : BitVec 32).getLsbD i =
      if i < 8 then b0.getLsbD i else if i < 16 then b1.getLsbD (i - 8)
      else if i < 24 then b2.getLsbD (i - 16) else b3.getLsbD (i - 24) := by
  have h3 : (b3 ++ (b2 ++ (b1 ++ b0)) : BitVec 32).getLsbD i =
      if i < 24 then (b2 ++ (b1 ++ b0) : BitVec 24).getLsbD i else b3.getLsbD (i - 24) := 
    BitVec.getLsbD_append (x := b3) (y := (b2 ++ (b1 ++ b0) : BitVec 24))
  have h2 : (b2 ++ (b1 ++ b0) : BitVec 24).getLsbD i =
      if i < 16 then (b1 ++ b0 : BitVec 16).getLsbD i else b2.getLsbD (i - 16) := 
    BitVec.getLsbD_append (x := b2) (y := (b1 ++ b0 : BitVec 16))
  have h1 : (b1 ++ b0 : BitVec 16).getLsbD i =
      if i < 8 then b0.getLsbD i else b1.getLsbD (i - 8) := BitVec.getLsbD_append
  rw [h3, h2, h1]
  split_ifs <;> first | rfl | omega

theorem append_extract32 (v : BitVec 32) :
    (v.extractLsb' 24 8 ++ (v.extractLsb' 16 8 ++ (v.extractLsb' 8 8 ++ v.extractLsb' 0 8)) : BitVec 32) = v := by
  apply BitVec.eq_of_getLsbD_eq
  intro i hi
  rw [getLsbD_four]
  simp only [BitVec.getLsbD_extractLsb']
  split_ifs <;> (rw [decide_eq_true (by omega), Bool.true_and]; congr 1; omega)

theorem append_extract16 (v : BitVec 16) : (v.extractLsb' 8 8 ++ v.extractLsb' 0 8 : BitVec 16) = v := by
  apply BitVec.eq_of_getLsbD_eq
  intro i hi
  have h1 : (v.extractLsb' 8 8 ++ v.extractLsb' 0 8 : BitVec 16).getLsbD i =
      if i < 8 then (v.extractLsb' 0 8).getLsbD i else (v.extractLsb' 8 8).getLsbD (i - 8) := BitVec.getLsbD_append
  rw [h1]
  simp only [BitVec.getLsbD_extractLsb']
  split_ifs <;> (rw [decide_eq_true (by omega), Bool.true_and]; congr 1; omega)

theorem bytes32_append (b0 b1 b2 b3 : Byte) : bytes32 (b3 ++ (b2 ++ (b1 ++ b0)) : BitVec 32) = [b0, b1, b2, b3] := by
  unfold bytes32
  simp only [List.cons.injEq, and_true]
  refine ⟨?_, ?_, ?_, ?_⟩ <;>
  · apply BitVec.eq_of_getLsbD_eq
    intro i hi
    rw [BitVec.getLsbD_extractLsb', getLsbD_four, decide_eq_true hi, Bool.true_and]
    split_ifs <;> first | omega | (congr 1; omega)

theorem bytes16_append (b0 b1 : Byte) : bytes16 (b1 ++ b0 : BitVec 16) = [b0, b1] := by
  have h1 (i : Nat) : (b1 ++ b0 : BitVec 16).getLsbD i =
      if i < 8 then b0.getLsbD i else b1.getLsbD (i - 8) := BitVec.getLsbD_append
  unfold bytes16
  simp only [List.cons.injEq, and_true]
  refine ⟨?_, ?_⟩ <;>
  · apply BitVec.eq_of_getLsbD_eq
    intro i hi
    rw [BitVec.getLsbD_extractLsb', h1, decide_eq_true hi, Bool.true_and]
    split_ifs <;> first | omega | (congr 1; omega)

@[simp] theorem take32_bytes32 (v : BitVec 32) (rest : List Byte) : take32 (bytes32 v ++ rest) = some (v, rest) :=
  congrArg (fun x => some (x, rest)) (append_extract32 v)

@[simp] theorem take16_bytes16 (v : BitVec 16) (rest : List Byte) : take16 (bytes16 v ++ rest) = some (v, rest) :=
  congrArg (fun x => some (x, rest)) (append_extract16 v)
theorem take32_some {bs rest : List Byte} {v : BitVec 32} (h : take32 bs = some (v, rest)) :
    bs = bytes32 v ++ rest := by
  unfold take32 at h
  split at h
  · simp only [Option.some.injEq, Prod.mk.injEq] at h
    obtain ⟨rfl, rfl⟩ := h
    next b0 b1 b2 b3 bs => exact congrArg (· ++ bs) (bytes32_append b0 b1 b2 b3).symm
  · simp at h

theorem take16_some {bs rest : List Byte} {v : BitVec 16} (h : take16 bs = some (v, rest)) :
    bs = bytes16 v ++ rest := by
  unfold take16 at h
  split at h
  · simp only [Option.some.injEq, Prod.mk.injEq] at h
    obtain ⟨rfl, rfl⟩ := h
    next b0 b1 bs => exact congrArg (· ++ bs) (bytes16_append b0 b1).symm
  · simp at h

theorem take32_long {bs : List Byte} (h : 4 ≤ bs.length) : ∃ p, take32 bs = some p := by
  match bs with
  | b0 :: b1 :: b2 :: b3 :: bs => exact ⟨_, rfl⟩
  | [] | [_] | [_, _] | [_, _, _] => simp at h

theorem take16_long {bs : List Byte} (h : 2 ≤ bs.length) : ∃ p, take16 bs = some p := by
  match bs with
  | b0 :: b1 :: bs => exact ⟨_, rfl⟩
  | [] | [_] => simp at h

/-! ### Immediates and displacements -/

/-- A value narrow enough survives narrowing. -/
theorem setWidth_setWidth_of_lt {w : Nat} {d : BitVec 32} (h : d.toNat < 2 ^ w) :
    (d.setWidth w).setWidth 32 = d := by
  apply BitVec.eq_of_toNat_eq
  have := d.isLt
  simp only [BitVec.toNat_setWidth]
  rw [Nat.mod_eq_of_lt h, Nat.mod_eq_of_lt this]

theorem takeImmediate_encode (sz : OpSize) {d : BitVec 32} (h : d.toNat < 2 ^ (8 * sz.bytes)) (rest : List Byte) :
    takeImmediate sz (encodeImmediate d sz ++ rest) = some (d, rest) := by
  cases sz with
  | byte => simp [takeImmediate, encodeImmediate, setWidth_setWidth_of_lt (w := 8) h]
  | word => simp [takeImmediate, encodeImmediate, setWidth_setWidth_of_lt (w := 16) h]
  | long => simp [takeImmediate, encodeImmediate]

theorem takeImmediate_some {sz : OpSize} {bs rest : List Byte} {d : BitVec 32}
    (h : takeImmediate sz bs = some (d, rest)) :
    d.toNat < 2 ^ (8 * sz.bytes) ∧ bs = encodeImmediate d sz ++ rest := by
  cases sz with
  | byte =>
    cases bs with
    | nil => simp [takeImmediate] at h
    | cons b bs =>
      simp only [takeImmediate, Option.some.injEq, Prod.mk.injEq] at h
      obtain ⟨rfl, rfl⟩ := h
      refine ⟨?_, by simp [encodeImmediate]⟩
      have := b.isLt
      simp only [BitVec.toNat_setWidth, OpSize.bytes]
      omega
  | word =>
    simp only [takeImmediate, Option.map_eq_some_iff, Prod.mk.injEq] at h
    obtain ⟨⟨v, r⟩, hv, rfl, rfl⟩ := h
    refine ⟨?_, by simp [encodeImmediate, take16_some hv]⟩
    have := v.isLt
    simp only [BitVec.toNat_setWidth, OpSize.bytes]
    omega
  | long => exact ⟨d.isLt, by simpa [encodeImmediate] using take32_some h⟩

/-- The size of a displacement, as the decoder asks for it. -/
def Displacement.size : Displacement → OpSize
  | .byte _ => .byte
  | .word _ => .word
  | .long _ => .long

theorem takeDisplacement_encode (d : Displacement) (rest : List Byte) :
    takeDisplacement d.size (d.encode ++ rest) = some (d, rest) := by
  cases d <;> simp [takeDisplacement, Displacement.size, Displacement.encode]

theorem takeDisplacement_some {sz : OpSize} {bs rest : List Byte} {d : Displacement}
    (h : takeDisplacement sz bs = some (d, rest)) : d.size = sz ∧ bs = d.encode ++ rest := by
  cases sz with
  | byte =>
    cases bs with
    | nil => simp [takeDisplacement] at h
    | cons b bs =>
      simp only [takeDisplacement, Option.some.injEq, Prod.mk.injEq] at h
      obtain ⟨rfl, rfl⟩ := h
      exact ⟨rfl, rfl⟩
  | word =>
    simp only [takeDisplacement, Option.map_eq_some_iff, Prod.mk.injEq] at h
    obtain ⟨⟨v, r⟩, hv, rfl, rfl⟩ := h
    exact ⟨rfl, take16_some hv⟩
  | long =>
    simp only [takeDisplacement, Option.map_eq_some_iff, Prod.mk.injEq] at h
    obtain ⟨⟨v, r⟩, hv, rfl, rfl⟩ := h
    exact ⟨rfl, take32_some hv⟩

/-! ### Lengths -/

@[simp] theorem bytes32_length (v : BitVec 32) : (bytes32 v).length = 4 := rfl
@[simp] theorem bytes16_length (v : BitVec 16) : (bytes16 v).length = 2 := rfl
@[simp] theorem Displacement.encode_length (d : Displacement) : d.encode.length = d.bytes := by cases d <;> rfl
@[simp] theorem encodeImmediate_length (d : BitVec 32) (sz : OpSize) :
    (encodeImmediate d sz).length = sz.bytes := by cases sz <;> rfl

/-- A mode's bytes are as many as R55 and R58 say. -/
@[simp] theorem Mode.encode_length (sz : OpSize) (m : Mode) : (m.encode sz).length = m.length sz := by
  cases m <;> simp [Mode.encode, Mode.length, Nat.add_comm]

@[simp] theorem Specifier.encode_length (sz : OpSize) (sp : Specifier) :
    (sp.encode sz).length = sp.length sz := by
  cases sp <;> simp [Specifier.encode, Specifier.length, Nat.add_comm]

theorem Mode.length_le (sz : OpSize) (m : Mode) : 1 ≤ m.length sz ∧ m.length sz ≤ 5 := by
  cases m with
  | immediate d => cases sz <;> simp [Mode.length, OpSize.bytes]
  | disp r d => cases d <;> simp [Mode.length, Displacement.bytes]
  | dispDeferred r d => cases d <;> simp [Mode.length, Displacement.bytes]
  | literal v => simp [Mode.length]
  | register r => simp [Mode.length]
  | deferred r => simp [Mode.length]
  | autodec r => simp [Mode.length]
  | autoinc r => simp [Mode.length]
  | autoincDeferred r => simp [Mode.length]
  | absolute a => simp [Mode.length]

theorem Specifier.length_le (sz : OpSize) (sp : Specifier) : 1 ≤ sp.length sz ∧ sp.length sz ≤ 6 := by
  cases sp with
  | direct m => have := m.length_le sz; simp only [Specifier.length]; omega
  | indexed x m => have := m.length_le sz; simp only [Specifier.length]; omega
  | indexedTwice x y => simp [Specifier.length]

theorem encodeOperands_length (l : List (OperandKind × Specifier)) :
    (encodeOperands l).length = specifiersLength l := by
  induction l with
  | nil => rfl
  | cons o l ih => simp_all [encodeOperands, specifiersLength]

theorem specifiersLength_le (l : List (OperandKind × Specifier)) :
    l.length ≤ specifiersLength l ∧ specifiersLength l ≤ 6 * l.length := by
  induction l with
  | nil => simp [specifiersLength]
  | cons o l ih =>
    have := o.2.length_le o.1.size
    simp only [specifiersLength, List.map_cons, List.sum_cons, List.length_cons] at ih ⊢
    omega

/-! ### Modes and specifiers -/

/-- The first byte of a mode's encoding never reads as an index byte (R54). -/
theorem Mode.encode_head (sz : OpSize) (m : Mode) : ∃ b bs, m.encode sz = b :: bs ∧ specifierMode b ≠ 4 := by
  cases m with
  | literal v => exact ⟨_, _, rfl, by revert v; decide⟩
  | disp r d => exact ⟨_, _, rfl, by cases d <;> simp [Displacement.mode]⟩
  | dispDeferred r d => exact ⟨_, _, rfl, by cases d <;> simp [Displacement.mode]⟩
  | register r => exact ⟨_, _, rfl, by simp⟩
  | deferred r => exact ⟨_, _, rfl, by simp⟩
  | autodec r => exact ⟨_, _, rfl, by simp⟩
  | autoinc r => exact ⟨_, _, rfl, by simp⟩
  | autoincDeferred r => exact ⟨_, _, rfl, by simp⟩
  | immediate d => exact ⟨_, _, rfl, by simp⟩
  | absolute a => exact ⟨_, _, rfl, by simp⟩

theorem decodeMode_literal (sz : OpSize) (v : BitVec 6) (rest : List Byte) :
    decodeMode sz (v.setWidth 8) rest = some (.literal v, rest) := by
  have h : ∀ v : BitVec 6, (specifierMode (v.setWidth 8)).toNat < 4 ∧ (v.setWidth 8).extractLsb' 0 6 = v := by decide
  obtain ⟨h1, h2⟩ := h v
  have h3 : ∀ n : Nat, n < 4 → n = 0 ∨ n = 1 ∨ n = 2 ∨ n = 3 := by omega
  rcases h3 _ h1 with hn | hn | hn | hn <;> simp [decodeMode, hn, h2]

/-- The decoder reads back every well-formed mode (R54, R55, R58). -/
theorem decodeMode_encode (sz : OpSize) {m : Mode} (hw : m.wellFormed sz = true) {b : Byte} {bs : List Byte}
    (h : m.encode sz = b :: bs) (rest : List Byte) : decodeMode sz b (bs ++ rest) = some (m, rest) := by
  cases m with
  | literal v =>
    simp only [Mode.encode, List.cons.injEq] at h
    obtain ⟨rfl, rfl⟩ := h
    exact decodeMode_literal sz v rest
  | register r =>
    simp only [Mode.encode, List.cons.injEq] at h
    obtain ⟨rfl, rfl⟩ := h
    simp [decodeMode]
  | deferred r =>
    simp only [Mode.encode, List.cons.injEq] at h
    obtain ⟨rfl, rfl⟩ := h
    simp [decodeMode]
  | autodec r =>
    simp only [Mode.encode, List.cons.injEq] at h
    obtain ⟨rfl, rfl⟩ := h
    simp [decodeMode]
  | autoinc r =>
    simp only [Mode.encode, List.cons.injEq] at h
    obtain ⟨rfl, rfl⟩ := h
    have hr : r ≠ .pc := by simpa [Mode.wellFormed] using hw
    simp [decodeMode, hr]
  | autoincDeferred r =>
    simp only [Mode.encode, List.cons.injEq] at h
    obtain ⟨rfl, rfl⟩ := h
    have hr : r ≠ .pc := by simpa [Mode.wellFormed] using hw
    simp [decodeMode, hr]
  | immediate d =>
    simp only [Mode.encode, List.cons.injEq] at h
    obtain ⟨rfl, rfl⟩ := h
    have hd : d.toNat < 2 ^ (8 * sz.bytes) := by simpa [Mode.wellFormed] using hw
    simp [decodeMode, takeImmediate_encode sz hd]
  | absolute a =>
    simp only [Mode.encode, List.cons.injEq] at h
    obtain ⟨rfl, rfl⟩ := h
    simp [decodeMode]
  | disp r d =>
    simp only [Mode.encode, List.cons.injEq] at h
    obtain ⟨rfl, rfl⟩ := h
    have := takeDisplacement_encode d rest
    cases d <;> simp_all [decodeMode, Displacement.mode, Displacement.size]
  | dispDeferred r d =>
    simp only [Mode.encode, List.cons.injEq] at h
    obtain ⟨rfl, rfl⟩ := h
    have := takeDisplacement_encode d rest
    cases d <;> simp_all [decodeMode, Displacement.mode, Displacement.size]

/-- The decoder reads back every well-formed specifier, whatever follows it. -/
theorem decodeSpecifier_encode (sz : OpSize) {sp : Specifier} (hw : sp.wellFormed sz = true) (rest : List Byte) :
    decodeSpecifier sz (sp.encode sz ++ rest) = some (sp, rest) := by
  cases sp with
  | direct m =>
    obtain ⟨b, bs, he, hb⟩ := m.encode_head sz
    simp only [Specifier.encode, decodeSpecifier, he, List.cons_append, if_neg hb, decodeMode_encode sz hw he,
      Option.map_some]
  | indexed x m =>
    obtain ⟨b, bs, he, hb⟩ := m.encode_head sz
    simp only [Specifier.encode, decodeSpecifier, he, List.cons_append, specifierMode_byte, specifierReg_byte, if_true,
      if_neg hb, decodeMode_encode sz hw he, Option.map_some]
  | indexedTwice x y => simp [Specifier.encode, decodeSpecifier]

theorem specifierByte_of_mode {b : Byte} {m : BitVec 4} (h : specifierMode b = m) :
    specifierByte m (specifierReg b) = b := by
  rw [← h]
  exact specifierByte_mode_reg b

/-- A mode that is decoded is well-formed and encodes to the bytes it was read from. -/
theorem decodeMode_some {sz : OpSize} {b : Byte} {bs rest : List Byte} {m : Mode}
    (h : decodeMode sz b bs = some (m, rest)) : m.wellFormed sz = true ∧ b :: bs = m.encode sz ++ rest := by
  have key : ∀ n : Nat, (specifierMode b).toNat = n → specifierByte (BitVec.ofNat 4 n) (specifierReg b) = b := by
    intro n hn
    apply specifierByte_of_mode
    rw [← hn]
    simp
  have literalByte : ∀ b : Byte, (specifierMode b).toNat < 4 → ((b.extractLsb' 0 6).setWidth 8 : Byte) = b := by decide
  unfold decodeMode at h
  simp only at h
  split at h
  · next hm =>
    simp only [Option.some.injEq, Prod.mk.injEq] at h
    obtain ⟨rfl, rfl⟩ := h
    exact ⟨rfl, by simp [Mode.encode, literalByte b (by omega)]⟩
  · next hm =>
    simp only [Option.some.injEq, Prod.mk.injEq] at h
    obtain ⟨rfl, rfl⟩ := h
    exact ⟨rfl, by simp [Mode.encode, literalByte b (by omega)]⟩
  · next hm =>
    simp only [Option.some.injEq, Prod.mk.injEq] at h
    obtain ⟨rfl, rfl⟩ := h
    exact ⟨rfl, by simp [Mode.encode, literalByte b (by omega)]⟩
  · next hm =>
    simp only [Option.some.injEq, Prod.mk.injEq] at h
    obtain ⟨rfl, rfl⟩ := h
    exact ⟨rfl, by simp [Mode.encode, literalByte b (by omega)]⟩
  · next hm =>
    simp only [Option.some.injEq, Prod.mk.injEq] at h
    obtain ⟨rfl, rfl⟩ := h
    exact ⟨rfl, by have := key _ hm; simp_all [Mode.encode]⟩
  · next hm =>
    simp only [Option.some.injEq, Prod.mk.injEq] at h
    obtain ⟨rfl, rfl⟩ := h
    exact ⟨rfl, by have := key _ hm; simp_all [Mode.encode]⟩
  · next hm =>
    simp only [Option.some.injEq, Prod.mk.injEq] at h
    obtain ⟨rfl, rfl⟩ := h
    exact ⟨rfl, by have := key _ hm; simp_all [Mode.encode]⟩
  · next hm =>
    split at h
    · next hr =>
      simp only [Option.map_eq_some_iff, Prod.mk.injEq] at h
      obtain ⟨⟨d, r⟩, hd, rfl, rfl⟩ := h
      obtain ⟨h1, h2⟩ := takeImmediate_some hd
      exact ⟨by simpa [Mode.wellFormed] using h1, by have := key _ hm; simp_all [Mode.encode]⟩
    · next hr =>
      simp only [Option.some.injEq, Prod.mk.injEq] at h
      obtain ⟨rfl, rfl⟩ := h
      exact ⟨by simpa [Mode.wellFormed] using hr, by have := key _ hm; simp_all [Mode.encode]⟩
  · next hm =>
    split at h
    · next hr =>
      simp only [Option.map_eq_some_iff, Prod.mk.injEq] at h
      obtain ⟨⟨d, r⟩, hd, rfl, rfl⟩ := h
      have h2 := take32_some hd
      exact ⟨rfl, by have := key _ hm; simp_all [Mode.encode]⟩
    · next hr =>
      simp only [Option.some.injEq, Prod.mk.injEq] at h
      obtain ⟨rfl, rfl⟩ := h
      exact ⟨by simpa [Mode.wellFormed] using hr, by have := key _ hm; simp_all [Mode.encode]⟩
  all_goals first
    | (next hm =>
        simp only [Option.map_eq_some_iff, Prod.mk.injEq] at h
        obtain ⟨⟨d, r⟩, hd, rfl, rfl⟩ := h
        obtain ⟨h1, h2⟩ := takeDisplacement_some hd
        refine ⟨rfl, ?_⟩
        have := key _ hm
        cases d <;> simp_all [Mode.encode, Displacement.mode, Displacement.size])
    | simp at h

/-- A specifier that is decoded is well-formed and encodes to the bytes it was read from. -/
theorem decodeSpecifier_some {sz : OpSize} {bs rest : List Byte} {sp : Specifier}
    (h : decodeSpecifier sz bs = some (sp, rest)) : sp.wellFormed sz = true ∧ bs = sp.encode sz ++ rest := by
  unfold decodeSpecifier at h
  split at h
  · simp at h
  · next b bs =>
    split at h
    · next hb =>
      split at h
      · simp at h
      · next b' bs' =>
        split at h
        · next hb' =>
          simp only [Option.some.injEq, Prod.mk.injEq] at h
          obtain ⟨rfl, rfl⟩ := h
          refine ⟨rfl, ?_⟩
          simp only [Specifier.encode, specifierByte_of_mode hb, specifierByte_of_mode hb', List.cons_append,
            List.nil_append]
        · simp only [Option.map_eq_some_iff, Prod.mk.injEq] at h
          obtain ⟨⟨m, r⟩, hm, rfl, rfl⟩ := h
          obtain ⟨h1, h2⟩ := decodeMode_some hm
          refine ⟨h1, ?_⟩
          simp only [Specifier.encode, specifierByte_of_mode hb, h2, List.cons_append]
    · simp only [Option.map_eq_some_iff, Prod.mk.injEq] at h
      obtain ⟨⟨m, r⟩, hm, rfl, rfl⟩ := h
      exact decodeMode_some hm

/-- Six bytes are always enough for a specifier. -/
theorem decodeSpecifier_long {sz : OpSize} {bs : List Byte} (h : 6 ≤ bs.length) :
    ∃ p, decodeSpecifier sz bs = some p := by
  have mode : ∀ (b : Byte) (l : List Byte), 4 ≤ l.length → specifierMode b ≠ 4 → ∃ p, decodeMode sz b l = some p := by
    intro b l hl hb
    have imm : ∃ p, takeImmediate sz l = some p := by
      cases sz with
      | byte =>
        cases l with
        | nil => simp at hl
        | cons b l => exact ⟨_, rfl⟩
      | word => obtain ⟨p, hp⟩ := take16_long (bs := l) (by omega); exact ⟨_, by simp [takeImmediate, hp]; rfl⟩
      | long => exact take32_long hl
    have dsp : ∀ z, ∃ p, takeDisplacement z l = some p := by
      intro z
      cases z with
      | byte =>
        cases l with
        | nil => simp at hl
        | cons b l => exact ⟨_, rfl⟩
      | word => obtain ⟨p, hp⟩ := take16_long (bs := l) (by omega); exact ⟨_, by simp [takeDisplacement, hp]; rfl⟩
      | long => obtain ⟨p, hp⟩ := take32_long hl; exact ⟨_, by simp [takeDisplacement, hp]; rfl⟩
    obtain ⟨p1, h1⟩ := imm
    obtain ⟨p2, h2⟩ := take32_long hl
    obtain ⟨p3, h3⟩ := dsp .byte
    obtain ⟨p4, h4⟩ := dsp .word
    obtain ⟨p5, h5⟩ := dsp .long
    have hn : (specifierMode b).toNat ≠ 4 := fun he => hb (BitVec.eq_of_toNat_eq he)
    have hlt := (specifierMode b).isLt
    have h6 : ∀ n : Nat, n < 16 → n ≠ 4 → n = 0 ∨ n = 1 ∨ n = 2 ∨ n = 3 ∨ n = 5 ∨ n = 6 ∨ n = 7 ∨ n = 8 ∨ n = 9 ∨
        n = 10 ∨ n = 11 ∨ n = 12 ∨ n = 13 ∨ n = 14 ∨ n = 15 := by omega
    rcases h6 _ hlt hn with h | h | h | h | h | h | h | h | h | h | h | h | h | h | h <;>
      simp only [decodeMode, h, h1, h2, h3, h4, h5, Option.map_some] <;>
      first | exact ⟨_, rfl⟩ | (split <;> exact ⟨_, rfl⟩)
  match bs with
  | [] => simp at h
  | [_] => simp at h
  | b :: b' :: bs =>
    simp only [List.length_cons] at h
    by_cases hb : specifierMode b = 4
    · by_cases hb' : specifierMode b' = 4
      · exact ⟨_, by simp only [decodeSpecifier, hb, hb', if_true]; rfl⟩
      · obtain ⟨p, hp⟩ := mode b' bs (by omega) hb'
        exact ⟨_, by simp only [decodeSpecifier, hb, hb', if_true, if_false, hp]; rfl⟩
    · obtain ⟨p, hp⟩ := mode b (b' :: bs) (by simp; omega) hb
      exact ⟨_, by simp only [decodeSpecifier, hb, if_false, hp]; rfl⟩

/-! ### Runs of specifiers and the Format lines -/

/-- A run of well-formed specifiers is read back whole, in order, and nothing after it is touched (R53). -/
theorem decodeSpecifiers_encode {l : List (OperandKind × Specifier)}
    (hw : ∀ o ∈ l, o.2.wellFormed o.1.size = true) (rest : List Byte) :
    decodeSpecifiers (l.map Prod.fst) (encodeOperands l ++ rest) = some (l.map Prod.snd, rest) := by
  induction l with
  | nil => rfl
  | cons o l ih =>
    have h1 := decodeSpecifier_encode o.1.size (hw o (by simp)) (encodeOperands l ++ rest)
    have h2 := ih fun o ho => hw o (by simp [ho])
    simp only [encodeOperands, List.flatMap_cons, List.append_assoc, List.map_cons, decodeSpecifiers] at h1 h2 ⊢
    rw [h1]
    simp only
    rw [h2]
    rfl

/-- A run that is decoded has one specifier per operand kind, each well-formed, and encodes to the bytes it was read
from. -/
theorem decodeSpecifiers_some {ks : List OperandKind} {bs rest : List Byte} {sps : List Specifier}
    (h : decodeSpecifiers ks bs = some (sps, rest)) :
    sps.length = ks.length ∧ (∀ o ∈ ks.zip sps, o.2.wellFormed o.1.size = true) ∧
      bs = encodeOperands (ks.zip sps) ++ rest := by
  induction ks generalizing bs sps with
  | nil =>
    simp only [decodeSpecifiers, Option.some.injEq, Prod.mk.injEq] at h
    obtain ⟨rfl, rfl⟩ := h
    simp [encodeOperands]
  | cons k ks ih =>
    unfold decodeSpecifiers at h
    split at h
    · simp at h
    · next sp bs' hsp =>
      simp only [Option.map_eq_some_iff, Prod.mk.injEq] at h
      obtain ⟨⟨sps', r⟩, hd, rfl, rfl⟩ := h
      obtain ⟨h1, h2⟩ := decodeSpecifier_some hsp
      obtain ⟨h3, h4, h5⟩ := ih hd
      refine ⟨by simp [h3], ?_, by simp [encodeOperands, h2, h5]⟩
      intro o ho
      simp only [List.zip_cons_cons, List.mem_cons] at ho
      rcases ho with rfl | ho
      · exact h1
      · exact h4 o ho

/-- Six bytes for each operand are always enough. -/
theorem decodeSpecifiers_long {ks : List OperandKind} {bs : List Byte} (h : 6 * ks.length ≤ bs.length) :
    ∃ p, decodeSpecifiers ks bs = some p := by
  induction ks generalizing bs with
  | nil => exact ⟨_, rfl⟩
  | cons k ks ih =>
    simp only [List.length_cons] at h
    obtain ⟨⟨sp, bs'⟩, hsp⟩ := decodeSpecifier_long (sz := k.size) (bs := bs) (by omega)
    have hl := (sp.length_le k.size).2
    have he := congrArg List.length (decodeSpecifier_some hsp).2
    rw [List.length_append, Specifier.encode_length] at he
    obtain ⟨p, hp⟩ := ih (bs := bs') (by omega)
    exact ⟨_, by simp only [decodeSpecifiers, hsp, hp]; rfl⟩

/-- The opcode byte of an instruction has its Format line (R51, R52). -/
theorem formatOf_opcode (i : Instr) : formatOf i.opcode = some (i.operands.map Prod.fst) := by cases i <;> rfl

/-- An opcode and the specifiers of an instruction give the instruction back (R51, R52). -/
theorem instrOf_opcode (i : Instr) : instrOf i.opcode (i.operands.map Prod.snd) = some i := by cases i <;> rfl

theorem list_of_three {α : Type} {l : List α} (h : l.length = 3) : ∃ a b c, l = [a, b, c] := List.length_eq_three.mp h

theorem list_of_four {α : Type} {l : List α} (h : l.length = 4) : ∃ a b c d, l = [a, b, c, d] := by
  cases l with
  | nil => simp at h
  | cons a l =>
    obtain ⟨b, c, d, rfl⟩ := list_of_three (l := l) (by simpa using h)
    exact ⟨a, b, c, d, rfl⟩

theorem list_of_six {α : Type} {l : List α} (h : l.length = 6) : ∃ a b c d e f, l = [a, b, c, d, e, f] := by
  match l, h with
  | a :: b :: l, h =>
    obtain ⟨c, d, e, f, rfl⟩ := list_of_four (l := l) (by simpa using h)
    exact ⟨a, b, c, d, e, f, rfl⟩

/-- The five opcodes with their Format lines (R51, R52). -/
theorem formatOf_some {b : Byte} {ks : List OperandKind} (h : formatOf b = some ks) :
    (b = 0x0B ∧ ks = [.ab, .rl, .rw, .ab]) ∨ (b = 0x2A ∧ ks = [.rw, .ab, .ab, .rb]) ∨
      (b = 0x2B ∧ ks = [.rw, .ab, .ab, .rb]) ∨ (b = 0x2F ∧ ks = [.rw, .ab, .rb, .ab, .rw, .ab]) ∨
      (b = 0x3B ∧ ks = [.rb, .rw, .ab]) := by
  have key : ∀ n : Nat, b.toNat = n → b = BitVec.ofNat 8 n := fun n hn => by rw [← hn]; simp
  unfold formatOf at h
  split at h <;> simp only [Option.some.injEq, reduceCtorEq] at h <;> subst h
  · next hb => exact .inl ⟨key _ hb, rfl⟩
  · next hb => exact .inr (.inl ⟨key _ hb, rfl⟩)
  · next hb => exact .inr (.inr (.inl ⟨key _ hb, rfl⟩))
  · next hb => exact .inr (.inr (.inr (.inl ⟨key _ hb, rfl⟩)))
  · next hb => exact .inr (.inr (.inr (.inr ⟨key _ hb, rfl⟩)))

/-- Every Format line has at most six operands. -/
theorem formatOf_length {b : Byte} {ks : List OperandKind} (h : formatOf b = some ks) : ks.length ≤ 6 := by
  rcases formatOf_some h with ⟨-, rfl⟩ | ⟨-, rfl⟩ | ⟨-, rfl⟩ | ⟨-, rfl⟩ | ⟨-, rfl⟩ <;> decide

/-- A Format line and as many specifiers make an instruction with those operands and that opcode. -/
theorem instrOf_some {b : Byte} {ks : List OperandKind} {sps : List Specifier} (hf : formatOf b = some ks)
    (hl : sps.length = ks.length) :
    ∃ i, instrOf b sps = some i ∧ i.opcode = b ∧ i.operands = ks.zip sps := by
  rcases formatOf_some hf with ⟨rfl, rfl⟩ | ⟨rfl, rfl⟩ | ⟨rfl, rfl⟩ | ⟨rfl, rfl⟩ | ⟨rfl, rfl⟩
  · obtain ⟨x1, x2, x3, x4, rfl⟩ := list_of_four hl
    exact ⟨_, instrOf_opcode (.crc x1 x2 x3 x4), rfl, rfl⟩
  · obtain ⟨x1, x2, x3, x4, rfl⟩ := list_of_four hl
    exact ⟨_, instrOf_opcode (.scanc x1 x2 x3 x4), rfl, rfl⟩
  · obtain ⟨x1, x2, x3, x4, rfl⟩ := list_of_four hl
    exact ⟨_, instrOf_opcode (.spanc x1 x2 x3 x4), rfl, rfl⟩
  · obtain ⟨x1, x2, x3, x4, x5, x6, rfl⟩ := list_of_six hl
    exact ⟨_, instrOf_opcode (.movtuc x1 x2 x3 x4 x5 x6), rfl, rfl⟩
  · obtain ⟨x1, x2, x3, rfl⟩ := list_of_three hl
    exact ⟨_, instrOf_opcode (.skpc x1 x2 x3), rfl, rfl⟩

/-- What a decoded instruction says of the bytes: the opcode byte first, then a run of specifiers. -/
theorem decode_ok {bs rest : List Byte} {i : Instr} (h : decode bs = .ok (i, rest)) :
    ∃ b tail sps, bs = b :: tail ∧ formatOf b = some (i.operands.map Prod.fst) ∧
      decodeSpecifiers (i.operands.map Prod.fst) tail = some (sps, rest) ∧ i.operands.map Prod.snd = sps ∧
      i.opcode = b := by
  unfold decode at h
  split at h
  · simp at h
  · next b tail =>
    split at h
    · simp at h
    · next ks hf =>
      split at h
      · simp at h
      · next sps r hd =>
        obtain ⟨j, hj, ho, hops⟩ := instrOf_some hf (decodeSpecifiers_some hd).1
        rw [hj] at h
        simp only [Except.ok.injEq, Prod.mk.injEq] at h
        obtain ⟨rfl, rfl⟩ := h
        have hlen := (decodeSpecifiers_some hd).1
        have hks : j.operands.map Prod.fst = ks := by rw [hops, List.map_fst_zip (by omega)]
        have hsp : j.operands.map Prod.snd = sps := by rw [hops, List.map_snd_zip (by omega)]
        exact ⟨b, tail, sps, rfl, by rw [hks, hf], by rw [hks, hd], hsp, ho⟩

/-- A list that ends inside an instruction is shorter than the longest instruction. -/
theorem decode_truncated {bs : List Byte} (h : decode bs = .error .truncated) : bs.length < maxInstrBytes := by
  unfold decode at h
  split at h
  · simp [maxInstrBytes]
  · next b tail =>
    split at h
    · simp at h
    · next ks hf =>
      split at h
      · next hd =>
        by_contra hn
        obtain ⟨p, hp⟩ := decodeSpecifiers_long (ks := ks) (bs := tail) (by
          have := formatOf_length hf
          simp only [List.length_cons, maxInstrBytes] at hn
          omega)
        rw [hp] at hd
        simp at hd
      · next sps r hd =>
        obtain ⟨j, hj, -⟩ := instrOf_some hf (decodeSpecifiers_some hd).1
        rw [hj] at h
        simp at h

end Sys2Proof
end

