-- ==== Sys2Proof/Laws/Completion.lean ====
section
/-! SUPPORT. Every loop and every body completes where no access is denied and no store meets the program. -/

namespace Sys2Proof.Machine

theorem scanString_of_nothing_denied {s : State} (h : s.platform.denied = []) {stops : Byte → Res Bool}
    (hs : ∀ b, ∃ r, stops b = .ok r) (n : Nat) (a : Word) : ∃ p, scanString s stops n a = .ok p := by
  induction n generalizing a with
  | zero => exact ⟨_, rfl⟩
  | succ n ih =>
    obtain ⟨r, hr⟩ := hs (s.mem.get a.toNat)
    simp only [scanString, readByte_ok (accessible_of_nothing_denied h a .read), Res.ok_bind, hr]
    cases r
    · exact ih (a + 1)
    · exact ⟨_, rfl⟩

theorem translateString_of_nothing_denied {esc : Byte} {tbladdr : Word} {n m : Nat} {src dst : Word} {s : State}
    (h : s.platform.denied = []) (hc : s.platform.codeRange = []) :
    ∃ r, translateString esc tbladdr n m src dst s = .ok r := by
  induction n generalizing m src dst s with
  | zero => exact ⟨_, rfl⟩
  | succ n ih =>
    cases m with
    | zero => exact ⟨_, rfl⟩
    | succ m =>
      simp only [translateString, readByte_ok (accessible_of_nothing_denied h _ .read), Res.ok_bind]
      split
      · exact ⟨_, rfl⟩
      · rw [memWrite_byte _ (accessible_of_nothing_denied h _ _) (by simp [Platform.inCode, hc])]
        exact ih (s := { s with mem := _ }) h hc

theorem crcString_of_nothing_denied {s : State} (h : s.platform.denied = []) (tbl : Word) (n : Nat) (a c : Word) :
    ∃ r, crcString s tbl n a c = .ok r := by
  induction n generalizing a c with
  | zero => exact ⟨_, rfl⟩
  | succ n ih =>
    simp only [crcString, readByte_ok (accessible_of_nothing_denied h a .read), Res.ok_bind]
    exact ih _ _

theorem evalOperands_length {l : List (OperandKind × Specifier)} {s u : State} {vs : List Word}
    (h : evalOperands l s = .ok (vs, u)) : vs.length = l.length := by
  induction l generalizing s vs with
  | nil => simp_all
  | cons o l ih =>
    obtain ⟨v, t, ws, -, h2, rfl⟩ := evalOperands_cons_ok.mp h
    simp [ih h2]

/-- With no access denied and no code range a body completes, whatever its operands and the data (R90). -/
theorem bodyOf_of_nothing_denied {i : Instr} {vs : List Word} {u : State} (hl : vs.length = i.operands.length)
    (h : u.platform.denied = []) (hc : u.platform.codeRange = []) : ∃ t, bodyOf i vs u = .ok t := by
  have entry : ∀ tb mk (f : Byte → Bool) b, ∃ r, (maskedEntry u tb mk b).map f = .ok r := fun tb mk f b => by
    rw [maskedEntry_ok (accessible_of_nothing_denied h _ _)]
    exact ⟨_, rfl⟩
  cases i with
  | crc tbl inicrc strlen stream =>
    obtain ⟨t, c, n, a, rfl⟩ := list_of_four hl
    simp only [bodyOf, crcBody, checkAccess_of_nothing_denied h]
    obtain ⟨r, hr⟩ := crcString_of_nothing_denied h t (n.setWidth 16).toNat a c
    simp only [hr, Res.ok_bind]
    split_ifs <;> exact ⟨_, rfl⟩
  | scanc len addr tbladdr mask =>
    obtain ⟨n, a, tb, mk, rfl⟩ := list_of_four hl
    obtain ⟨p, hp⟩ := scanString_of_nothing_denied h (entry tb (mk.setWidth 8) fun t => t != 0) (n.setWidth 16).toNat a
    exact ⟨_, by simp only [bodyOf, scancBody, hp, Res.ok_bind]; rfl⟩
  | spanc len addr tbladdr mask =>
    obtain ⟨n, a, tb, mk, rfl⟩ := list_of_four hl
    obtain ⟨p, hp⟩ := scanString_of_nothing_denied h (entry tb (mk.setWidth 8) fun t => t == 0) (n.setWidth 16).toNat a
    exact ⟨_, by simp only [bodyOf, spancBody, hp, Res.ok_bind]; rfl⟩
  | movtuc srclen srcaddr esc tbladdr dstlen dstaddr =>
    obtain ⟨n, a, e, tb, m, d, rfl⟩ := list_of_six hl
    simp only [bodyOf, movtucBody]
    have hcc : checkCode u d (m.setWidth 16).toNat = .ok () := (checkCode_ok_iff u d _).mpr fun i _ => by
      simp [Platform.inCode, hc]
    obtain ⟨r, hr⟩ := translateString_of_nothing_denied (esc := e.setWidth 8) (tbladdr := tb)
      (n := (n.setWidth 16).toNat) (m := (m.setWidth 16).toNat) (src := a) (dst := d) h hc
    simp only [hcc, hr, Res.ok_bind]
    split_ifs <;> exact ⟨_, rfl⟩
  | skpc char len addr =>
    obtain ⟨c, n, a, rfl⟩ := list_of_three hl
    obtain ⟨p, hp⟩ := scanString_of_nothing_denied h (stops := fun b => .ok (b != c.setWidth 8)) (fun b => ⟨_, rfl⟩)
      (n.setWidth 16).toNat a
    exact ⟨_, by simp only [bodyOf, skpcBody, hp, Res.ok_bind]; rfl⟩

end Sys2Proof.Machine
end

