-- ==== Sys2Proof/Laws/Crc.lean ====
section
/-! SUPPORT. The algebra of CRC: a shift is linear over XOR, and a table step is as many shifts. -/

namespace Sys2Proof.Machine

/-! ### One shift is linear -/

@[simp] theorem crcShiftBit_zero (poly : Word) : crcShiftBit poly 0 = 0 := by simp [crcShiftBit]

/-- The shift of an XOR is the XOR of the shifts (R110, R113). -/
theorem crcShiftBit_xor (poly v w : Word) : crcShiftBit poly (v ^^^ w) = crcShiftBit poly v ^^^ crcShiftBit poly w := by
  unfold crcShiftBit
  rw [BitVec.getLsbD_xor]
  have hd : (v ^^^ w) >>> 1 = (v >>> 1) ^^^ (w >>> 1) := BitVec.ushiftRight_xor_distrib ..
  apply BitVec.eq_of_getLsbD_eq
  intro i _
  cases v.getLsbD 0 <;> cases w.getLsbD 0 <;>
    simp [hd, Bool.xor_left_comm, Bool.xor_comm]

theorem crcShiftBit_iterate_xor (poly v w : Word) (n : Nat) :
    (crcShiftBit poly)^[n] (v ^^^ w) = (crcShiftBit poly)^[n] v ^^^ (crcShiftBit poly)^[n] w := by
  induction n generalizing v w with
  | zero => rfl
  | succ n ih => simp only [Function.iterate_succ_apply, crcShiftBit_xor, ih]

/-- Bits shifted out as zeros leave the rest shifted (R110). -/
theorem crcShiftBit_iterate_shiftLeft (poly : Word) {v : Word} {n : Nat} (h : v.toNat < 2 ^ (32 - n)) (hn : n ≤ 32) :
    (crcShiftBit poly)^[n] (v <<< n) = v := by
  induction n generalizing v with
  | zero => simp
  | succ n ih =>
    rw [Function.iterate_succ_apply]
    have h1 : crcShiftBit poly (v <<< (n + 1)) = v <<< n := by
      have h0 : (v <<< (n + 1)).getLsbD 0 = false := by simp
      rw [crcShiftBit, h0]
      simp only [Bool.false_eq_true, if_false]
      apply BitVec.eq_of_getLsbD_eq
      intro i hi
      have hv : ∀ j, 32 - (n + 1) ≤ j → v.getLsbD j = false := fun j hj => by
        apply BitVec.getLsbD_of_ge v j |> fun _ => ?_
        rw [BitVec.getLsbD]
        exact Nat.testBit_lt_two_pow (lt_of_lt_of_le h (Nat.pow_le_pow_right (by omega) hj))
      simp only [BitVec.getLsbD_ushiftRight, BitVec.getLsbD_shiftLeft]
      by_cases h2 : i < n
      · simp [h2, show 1 + i < n + 1 by omega]
      · by_cases h3 : 1 + i < 32
        · simp [h2, h3, hi, show ¬ 1 + i < n + 1 by omega, show 1 + i - (n + 1) = i - n by omega]
        · simp [h2, h3, hi, hv (i - n) (by omega)]
    rw [h1]
    exact ih (lt_of_lt_of_le h (Nat.pow_le_pow_right (by omega) (by omega))) (by omega)

/-- `n` shifts at once: the value shifted right, XORed with what the low `n` bits turn into (R111, R116). -/
theorem crcShiftBit_iterate (poly v : Word) {n : Nat} (hn : n ≤ 32) :
    (crcShiftBit poly)^[n] v =
      (v >>> n) ^^^ (crcShiftBit poly)^[n] (BitVec.ofNat 32 (v.toNat % 2 ^ n)) := by
  have hv : v = ((v >>> n) <<< n) ^^^ BitVec.ofNat 32 (v.toNat % 2 ^ n) := by
    apply BitVec.eq_of_getLsbD_eq
    intro i hi
    simp only [BitVec.getLsbD_xor, BitVec.getLsbD_shiftLeft, BitVec.getLsbD_ushiftRight, BitVec.getLsbD_ofNat, hi,
      decide_true, Bool.true_and, Nat.testBit_mod_two_pow]
    by_cases h : i < n
    · simp [h, BitVec.getLsbD]
    · simp [h, show n + (i - n) = i by omega]
  have hs : (v >>> n).toNat < 2 ^ (32 - n) := by
    rw [BitVec.toNat_ushiftRight, Nat.shiftRight_eq_div_pow]
    apply Nat.div_lt_of_lt_mul
    rw [← Nat.pow_add, show n + (32 - n) = 32 by omega]
    exact v.isLt
  conv_lhs => rw [hv]
  rw [crcShiftBit_iterate_xor, crcShiftBit_iterate_shiftLeft poly hs hn]

/-- A table step with the table of R113 is as many single shifts (R111, R116). -/
theorem crcStep_eq (sh : CrcShift) (poly v : Word) :
    crcStep sh (crcTableEntry poly) v = (crcShiftBit poly)^[sh.bits] v := by
  rw [crcShiftBit_iterate poly v (by cases sh <;> decide), crcStep]
  congr 1
  have key : ∀ (k j x : Nat), k + j = 4 → x < 2 ^ j →
      crcTableEntry poly (2 ^ k * x) = (crcShiftBit poly)^[j] (BitVec.ofNat 32 x) := by
    intro k j x hk hx
    have hx' : x < 2 ^ 4 := lt_of_lt_of_le hx (Nat.pow_le_pow_right (by omega) (by omega))
    have he : BitVec.ofNat 32 (2 ^ k * x) = (BitVec.ofNat 32 x) <<< k := by
      apply BitVec.eq_of_toNat_eq
      rw [BitVec.toNat_shiftLeft, Nat.shiftLeft_eq, BitVec.toNat_ofNat, BitVec.toNat_ofNat, Nat.mod_mul_mod, Nat.mul_comm]
    rw [crcTableEntry, he, show 4 = j + k by omega, Function.iterate_add_apply, crcShiftBit_iterate_shiftLeft]
    · rw [BitVec.toNat_ofNat, Nat.mod_eq_of_lt (by omega)]
      exact lt_of_lt_of_le hx' (Nat.pow_le_pow_right (by omega) (by omega))
    · omega
  cases sh with
  | one => exact key 3 1 _ rfl (Nat.mod_lt _ (by decide))
  | two => exact key 2 2 _ rfl (Nat.mod_lt _ (by decide))
  | four =>
    have h := key 0 4 (v.toNat % 2 ^ 4) rfl (Nat.mod_lt _ (by decide))
    rw [Nat.pow_zero] at h
    exact h

/-- Steps read only the table's sixteen entries. -/
theorem crcStep_congr {sh : CrcShift} {e e' : Nat → Word} (h : ∀ k < 16, e k = e' k) (v : Word) :
    crcStep sh e v = crcStep sh e' v := by
  unfold crcStep
  congr 1
  apply h
  cases sh <;> simp only [CrcShift.multiplier, CrcShift.bits] <;> omega
end Sys2Proof.Machine
end

