-- ==== Sys2Proof/Laws/Decimal.lean ====
section
/-! SUPPORT. Decimal strings: the digits of a magnitude, what reads them back, and what completing an instruction does. -/

namespace Sys2Proof.Machine

/-! ### Digits -/

@[simp] theorem decimalDigits_length (m n : Nat) : (decimalDigits m n).length = n := by
  induction n with
  | zero => rfl
  | succ n ih => simp [decimalDigits, ih]

theorem decimalDigits_le_nine (m n : Nat) : ∀ d ∈ decimalDigits m n, d.toNat ≤ 9 := by
  induction n with
  | zero => simp [decimalDigits]
  | succ n ih =>
    intro d hd
    simp only [decimalDigits, List.mem_cons] at hd
    rcases hd with rfl | hd
    · rw [BitVec.toNat_ofNat]
      omega
    · exact ih d hd

/-- The digits read back, most significant first, after digits worth `acc` (R133). -/
theorem decimalDigits_foldl (m n acc : Nat) :
    (decimalDigits m n).foldl (fun m d => 10 * m + d.toNat) acc = acc * 10 ^ n + m % 10 ^ n := by
  induction n generalizing acc with
  | zero => simp [decimalDigits, Nat.mod_one]
  | succ n ih =>
    simp only [decimalDigits, List.foldl_cons, ih, BitVec.toNat_ofNat]
    rw [Nat.mod_eq_of_lt (by omega : m / 10 ^ n % 10 < 2 ^ 4), Nat.pow_succ, Nat.mod_mul]
    ring

theorem digitOfByte_digitByte {d : BitVec 4} (h : d.toNat ≤ 9) : digitOfByte (digitByte d) = some d.toNat := by
  revert d
  decide

/-- The characters of valid digits read back as the digits do (R149). -/
theorem numericMagnitude_map {ds : List (BitVec 4)} (h : ∀ d ∈ ds, d.toNat ≤ 9) (acc : Nat) :
    numericMagnitude acc (ds.map digitByte) = some (ds.foldl (fun m d => 10 * m + d.toNat) acc) := by
  induction ds generalizing acc with
  | nil => rfl
  | cons d ds ih =>
    simp only [List.map_cons, numericMagnitude, digitOfByte_digitByte (h d (by simp)), Option.bind_some,
      ih fun d' hd => h d' (by simp [hd]), List.foldl_cons]

/-- A magnitude that fits its digits is read back from their characters (R133, R149). -/
theorem numericMagnitude_decimalDigits {m n : Nat} (h : m < 10 ^ n) :
    numericMagnitude 0 ((decimalDigits m n).map digitByte) = some m := by
  rw [numericMagnitude_map (decimalDigits_le_nine m n), decimalDigits_foldl, Nat.mod_eq_of_lt h, Nat.zero_mul,
    Nat.zero_add]

/-! ### Packed nibbles -/

theorem pairNibbles_length : ∀ ns : List (BitVec 4), (pairNibbles ns).length = ns.length / 2
  | [] => rfl
  | [_] => by simp [pairNibbles]
  | _ :: _ :: ns => by
    simp only [pairNibbles, List.length_cons, pairNibbles_length ns]
    omega

/-- Nibbles paired into bytes and split again are the nibbles (R148). -/
theorem splitNibbles_pairNibbles : ∀ ns : List (BitVec 4), ns.length % 2 = 0 → splitNibbles (pairNibbles ns) = ns
  | [], _ => rfl
  | [_], h => by simp at h
  | a :: b :: ns, h => by
    have ih := splitNibbles_pairNibbles ns (by simp at h; omega)
    simp only [pairNibbles, splitNibbles, List.flatMap_cons] at ih ⊢
    rw [ih]
    simp only [List.cons_append, List.nil_append, List.cons.injEq, and_true]
    clear h ih
    revert a b
    decide

/-! ### Reading -/

/-- The bytes of a readable string, lowest address first (R131). -/
theorem readDecimalBytes_readable {s : State} {a : Word} {n : Nat}
    (h : ∀ i < n, s.platform.accessible (a + BitVec.ofNat 32 i) .read = true) :
    readDecimalBytes s a n = .ok ((List.range n).map fun i => s.mem.get (a + BitVec.ofNat 32 i).toNat) := by
  induction n generalizing a with
  | zero => rfl
  | succ n ih =>
    have h0 := h 0 (by omega)
    rw [addr_zero] at h0
    rw [readDecimalBytes, readByte_ok h0, Res.ok_bind, ih fun i hi => by rw [addr_succ]; exact h (i + 1) (by omega)]
    simp only [Res.ok_bind, List.range_succ_eq_map, List.map_cons, List.map_map, Function.comp_def, addr_zero,
      addr_succ, Nat.succ_eq_add_one]

/-- A verified source of readable bytes is its value, or the reserved operand abort (R140). -/
theorem readVerified_readable {s : State} {a : Word} {n : Nat} (value : List Byte → Option Decimal)
    (h : ∀ i < n, s.platform.accessible (a + BitVec.ofNat 32 i) .read = true) :
    readVerified s a n value =
      match value ((List.range n).map fun i => s.mem.get (a + BitVec.ofNat 32 i).toNat) with
      | some v => .ok v
      | none => raise s .reservedOperand := by
  rw [readVerified, readDecimalBytes_readable h]
  rfl

/-! ### Completing -/

/-- A decimal instruction completes with its codes, V the overflow, unless it traps: overflow with DV set (R164). -/
theorem completeDecimal_eq (s : State) (v : Decimal) (digits : Nat) (keep c : Bool) :
    completeDecimal s v digits keep c =
      if v.overflows digits && pslDV s.psl then .error (.exception .decimalOverflow s.mem)
      else .ok (s.setCodes (decimalResultCodes v digits keep c)) := by
  have hd : pslDV (s.setCodes (decimalResultCodes v digits keep c)).psl = pslDV s.psl :=
    pslWithCodes_high s.psl _ (by decide)
  simp only [completeDecimal, decimalOverflowTrap, hd, raise, State.setCodes_mem]

end Sys2Proof.Machine
end

