-- ==== Sys2Proof/Laws/Fetch.lean ====
section
/-! SUPPORT. Fetching: the bytes taken, in address order, up to the first that may not be fetched; what stops a fetch. -/

namespace Sys2Proof.Machine

theorem fetchBytes_length_le (s : State) (n : Nat) (a : Word) : (fetchBytes s n a).length ≤ n := by
  induction n generalizing a with
  | zero => simp [fetchBytes]
  | succ n ih =>
    unfold fetchBytes
    split
    · simpa using ih (a + 1)
    · simp

/-- Fetchable bytes are taken in address order, then the rest (R37). -/
theorem fetchBytes_append {s : State} {n k : Nat} {a : Word} (hk : k ≤ n)
    (h : ∀ i < k, s.platform.accessible (a + BitVec.ofNat 32 i) .fetch = true) :
    fetchBytes s n a =
      (List.range k).map (fun i => s.mem.get (a + BitVec.ofNat 32 i).toNat) ++
        fetchBytes s (n - k) (a + BitVec.ofNat 32 k) := by
  induction k generalizing n a with
  | zero => simp
  | succ k ih =>
    obtain ⟨n, rfl⟩ : ∃ m, n = m + 1 := ⟨n - 1, by omega⟩
    have h0 := h 0 (by omega)
    rw [addr_zero] at h0
    have ih' := ih (n := n) (a := a + 1) (by omega) fun i hi => by rw [addr_succ]; exact h (i + 1) (by omega)
    rw [fetchBytes, if_pos h0, ih', List.range_succ_eq_map]
    simp only [addr_succ, List.map_cons, List.map_map, Function.comp_def, addr_zero, List.cons_append,
      Nat.add_sub_add_right, Nat.succ_eq_add_one]

/-- Nothing is taken from a byte that may not be fetched upwards. -/
theorem fetchBytes_stop {s : State} (n : Nat) {a : Word} (h : s.platform.accessible a .fetch = false) :
    fetchBytes s n a = [] := by
  cases n with
  | zero => rfl
  | succ n => simp [fetchBytes, h]

/-- A fetch that comes out short stopped at a byte that may not be fetched. -/
theorem fetchBytes_short {s : State} {n : Nat} {a : Word} (h : (fetchBytes s n a).length < n) :
    s.platform.accessible (a + BitVec.ofNat 32 (fetchBytes s n a).length) .fetch = false := by
  induction n generalizing a with
  | zero => simp at h
  | succ n ih =>
    rw [fetchBytes] at h ⊢
    split at h
    · next ha =>
      rw [if_pos ha, List.length_cons, ← addr_succ]
      exact ih (by simpa using h)
    · next ha =>
      rw [if_neg ha]
      simpa using ha

/-- What stops a fetch: first part done (R19), an opcode byte other than the five (R60), or a byte of the instruction
that may not be fetched (R162). -/
theorem nextInstr_error {s : State} {e : Stop} (h : nextInstr s = .error e) :
    e = .refusal .firstPartDone ∨ (∃ b, e = .refusal (.unspecifiedOpcode b)) ∨
      ∃ a, e = .exception (.accessViolation a .fetch) s.mem ∧ s.platform.accessible a .fetch = false := by
  unfold nextInstr at h
  split at h
  · simp only [refuse, Except.error.injEq] at h
    exact .inl h.symm
  · simp only at h
    split at h
    · simp at h
    · simp only [refuse, Except.error.injEq] at h
      exact .inr (.inl ⟨_, h.symm⟩)
    · next hd =>
      simp only [raise, Except.error.injEq] at h
      exact .inr (.inr ⟨_, h.symm, fetchBytes_short (decode_truncated hd)⟩)

/-- A step that fetches an instruction runs its meaning (R65). -/
theorem step_of_nextInstr {s : State} {i : Instr} (h : nextInstr s = .ok i) : step s = exec i s := by
  simp [step, h]

end Sys2Proof.Machine
end

