-- ==== Sys2Proof/Laws/Frames.lean ====
section
/-! SUPPORT. What the body of each instruction leaves unchanged: the PC, the platform, bits 31:4 of the PSL and every
register that is not a result register of spec/10_state.md R11. -/

namespace Sys2Proof.Machine

/-- `t` differs from `u` at most in memory, the draw counter, the condition codes and the registers `rs`. -/
structure ResultFrame (u t : State) (rs : List Reg) : Prop where
  pc : t.pc = u.pc
  platform : t.platform = u.platform
  psl : ∀ j, 4 ≤ j → t.psl.getLsbD j = u.psl.getLsbD j
  regs : ∀ r, r ≠ .pc → r ∉ rs → t.reg r = u.reg r

theorem ResultFrame.of_eq {u t : State} (rs : List Reg) (hr : t.regs = u.regs) (hp : t.pc = u.pc)
    (hpsl : t.psl = u.psl) (hpl : t.platform = u.platform) : ResultFrame u t rs :=
  ⟨hp, hpl, fun _ _ => by rw [hpsl], fun r _ _ => State.reg_congr hr hp r⟩

theorem ResultFrame.setReg {u t : State} {rs : List Reg} (h : ResultFrame u t rs) {r : Reg} (v : Word)
    (hpc : r ≠ .pc) (hr : r ∈ rs) : ResultFrame u (t.setReg r v) rs :=
  ⟨(State.setReg_pc t v hpc).trans h.pc, by simpa using h.platform, by simpa using h.psl, fun q hq hm => by
    have hne : q ≠ r := fun he => hm (by rw [he]; exact hr)
    rw [State.reg_setReg_ne t v hne]
    exact h.regs q hq hm⟩

theorem ResultFrame.setCodes {u t : State} {rs : List Reg} (h : ResultFrame u t rs) (k : Codes) :
    ResultFrame u (t.setCodes k) rs :=
  ⟨h.pc, h.platform, fun j hj => (pslWithCodes_high t.psl k hj).trans (h.psl j hj), fun q hq hm => by
    simpa using h.regs q hq hm⟩

theorem ResultFrame.drawReg {u t : State} {rs : List Reg} (h : ResultFrame u t rs) {r : Reg} (hpc : r ≠ .pc)
    (hr : r ∈ rs) : ResultFrame u (Machine.drawReg t r) rs := by
  have k := h.setReg (Config.freeWord t.draws) hpc hr
  refine ⟨k.pc, k.platform, k.psl, fun q hq hm => ?_⟩
  rw [← k.regs q hq hm]
  exact State.reg_congr rfl rfl q

theorem ResultFrame.drawBit {u t : State} {rs : List Reg} (h : ResultFrame u t rs) :
    ResultFrame u (Machine.drawBit t).2 rs :=
  ⟨h.pc, h.platform, h.psl, fun q hq hm => by simpa using h.regs q hq hm⟩

theorem setScanResult_frame {u t : State} {rs : List Reg} (h : ResultFrame u t rs) (k : Nat) (a : Word)
    (h0 : Reg.r0 ∈ rs) (h1 : Reg.r1 ∈ rs) : ResultFrame u (setScanResult t k a) rs :=
  ((h.setReg _ (by decide) h0).setReg _ (by decide) h1).setCodes _

theorem setTableResult_frame {u t : State} {rs : List Reg} (h : ResultFrame u t rs) (a : Word)
    (h2 : Reg.r2 ∈ rs) (h3 : Reg.r3 ∈ rs) : ResultFrame u (setTableResult t a) rs :=
  (h.setReg _ (by decide) h2).setReg _ (by decide) h3

theorem setCrcRest_frame {u t : State} {rs : List Reg} (h : ResultFrame u t rs) (n : Word16) (a : Word)
    (h1 : Reg.r1 ∈ rs) (h2 : Reg.r2 ∈ rs) (h3 : Reg.r3 ∈ rs) : ResultFrame u (setCrcRest t n a) rs :=
  ((h.setReg _ (by decide) h1).setReg _ (by decide) h2).setReg _ (by decide) h3

/-- The drawn result of MOVTUC: the frame, and memory outside the destination extent (R82). -/
theorem drawnTranslateResult_frame (n m : Word16) (d : Word) (u : State) :
    ResultFrame u (drawnTranslateResult n m d u) [.r0, .r1, .r2, .r3, .r4, .r5] := by
  obtain ⟨h1, h2, h3, h4⟩ := drawBytes_frame u d m.toNat
  exact ((((((((ResultFrame.of_eq _ h1 h2 h3 h4).drawReg (by decide) (by decide)).drawReg (by decide) (by decide)).drawReg
    (by decide) (by decide)).drawReg (by decide) (by decide)).drawReg (by decide) (by decide)).drawReg (by decide)
    (by decide)).drawBit).setCodes _

@[simp] theorem drawnTranslateResult_mem (n m : Word16) (d : Word) (u : State) :
    (drawnTranslateResult n m d u).mem = (drawBytes u d m.toNat).mem := by
  simp [drawnTranslateResult]

theorem setTranslateResult_frame {u : State} {r : Translation} (tb : Word) {mem : Memory}
    (h : r.state = { u with mem := mem }) :
    ResultFrame u (setTranslateResult r tb) [.r0, .r1, .r2, .r3, .r4, .r5] := by
  have h0 : ResultFrame u r.state [.r0, .r1, .r2, .r3, .r4, .r5] := by
    rw [h]
    exact .of_eq _ rfl rfl rfl rfl
  exact (((((h0.setReg _ (by decide) (by decide)).setReg _ (by decide) (by decide)).setReg _ (by decide)
    (by decide)).setReg _ (by decide) (by decide)).setReg _ (by decide) (by decide)).setReg _ (by decide) (by decide)

@[simp] theorem setTranslateResult_mem (r : Translation) (tb : Word) :
    (setTranslateResult r tb).mem = r.state.mem := by
  simp [setTranslateResult]

theorem drawnCrcResult_frame (u : State) (n : Word16) (a : Word) :
    ResultFrame u (drawnCrcResult u n a) [.r0, .r1, .r2, .r3] :=
  (setCrcRest_frame
    (((ResultFrame.of_eq [.r0, .r1, .r2, .r3] rfl rfl rfl rfl).drawReg (by decide) (by decide)).drawBit.drawBit) n a
    (by decide) (by decide) (by decide)).setCodes _

@[simp] theorem drawnCrcResult_mem (u : State) (n : Word16) (a : Word) : (drawnCrcResult u n a).mem = u.mem := by
  simp [drawnCrcResult]

theorem crcResult_frame (u : State) (n : Word16) (a c : Word) :
    ResultFrame u (crcResult u n a c) [.r0, .r1, .r2, .r3] :=
  (setCrcRest_frame ((ResultFrame.of_eq _ rfl rfl rfl rfl : ResultFrame u u _).setReg c (by decide) (by decide)) n a
    (by decide) (by decide) (by decide)).setCodes _

@[simp] theorem crcResult_mem (u : State) (n : Word16) (a c : Word) : (crcResult u n a c).mem = u.mem := by
  simp [crcResult]

/-! ### The bodies -/

/-- Every way CRC completes (R111, R112, R115). -/
theorem crcBody_ok {tb c a : Word} {n : Word16} {u t : State} (h : crcBody tb c n a u = .ok t) :
    (∃ r, t = crcResult u n a r) ∨ t = drawnCrcResult u n a := by
  unfold crcBody at h
  split at h
  · exact .inl ⟨c, by simpa using h.symm⟩
  · obtain ⟨_, -, h⟩ := Res.bind_eq_ok.mp h
    obtain ⟨r, -, h⟩ := Res.bind_eq_ok.mp h
    split at h
    · exact .inl ⟨r, by simpa using h.symm⟩
    · exact .inr (by simpa using h.symm)

/-- Every way SCANC completes. -/
theorem scancBody_ok {n : Word16} {a tb : Word} {mk : Byte} {u t : State} (h : scancBody n a tb mk u = .ok t) :
    ∃ left ≤ n.toNat, t = setTableResult (setScanResult u left (a + BitVec.ofNat 32 (n.toNat - left))) tb := by
  unfold scancBody at h
  obtain ⟨⟨left, next⟩, h1, h⟩ := Res.bind_eq_ok.mp h
  obtain ⟨hl, rfl⟩ := scanString_ok h1
  exact ⟨left, hl, by simpa using h.symm⟩

/-- Every way SPANC completes. -/
theorem spancBody_ok {n : Word16} {a tb : Word} {mk : Byte} {u t : State} (h : spancBody n a tb mk u = .ok t) :
    ∃ left ≤ n.toNat, t = setTableResult (setScanResult u left (a + BitVec.ofNat 32 (n.toNat - left))) tb := by
  unfold spancBody at h
  obtain ⟨⟨left, next⟩, h1, h⟩ := Res.bind_eq_ok.mp h
  obtain ⟨hl, rfl⟩ := scanString_ok h1
  exact ⟨left, hl, by simpa using h.symm⟩

/-- Every way SKPC completes. -/
theorem skpcBody_ok {c : Byte} {n : Word16} {a : Word} {u t : State} (h : skpcBody c n a u = .ok t) :
    ∃ left ≤ n.toNat, t = setScanResult u left (a + BitVec.ofNat 32 (n.toNat - left)) := by
  unfold skpcBody at h
  obtain ⟨⟨left, next⟩, h1, h⟩ := Res.bind_eq_ok.mp h
  obtain ⟨hl, rfl⟩ := scanString_ok h1
  exact ⟨left, hl, by simpa using h.symm⟩

/-- Every way MOVTUC completes (R81, R82). -/
theorem movtucBody_ok {n m : Word16} {a tb d : Word} {e : Byte} {u t : State}
    (h : movtucBody n a e tb m d u = .ok t) :
    (overlapUnpredictable n a tb m d = true ∧ t = drawnTranslateResult n m d u) ∨
    (overlapUnpredictable n a tb m d = false ∧
      ∃ r, translateString e tb n.toNat m.toNat a d u = .ok r ∧
        t = (setTranslateResult r tb).setCodes (movtucCodes n m r.escaped)) := by
  unfold movtucBody at h
  split at h
  · next ho =>
    obtain ⟨_, -, h⟩ := Res.bind_eq_ok.mp h
    exact .inl ⟨ho, by simpa using h.symm⟩
  · next ho =>
    obtain ⟨r, hr, h⟩ := Res.bind_eq_ok.mp h
    exact .inr ⟨by simpa using ho, r, hr, by simpa using h.symm⟩

/-- Whatever the instruction, its body leaves the PC, the platform, the rest of the PSL and every register but the
result registers (R11, R15, R20). -/
theorem bodyOf_frame {i : Instr} {vs : List Word} {u t : State} (h : bodyOf i vs u = .ok t) :
    ResultFrame u t i.resultRegs := by
  unfold bodyOf at h
  split at h
  · rcases crcBody_ok h with ⟨r, rfl⟩ | rfl
    · exact crcResult_frame _ _ _ _
    · exact drawnCrcResult_frame _ _ _
  · obtain ⟨left, -, rfl⟩ := scancBody_ok h
    exact setTableResult_frame (setScanResult_frame (.of_eq _ rfl rfl rfl rfl) _ _ (by simp [Instr.resultRegs]) (by simp [Instr.resultRegs])) _
      (by simp [Instr.resultRegs]) (by simp [Instr.resultRegs])
  · obtain ⟨left, -, rfl⟩ := spancBody_ok h
    exact setTableResult_frame (setScanResult_frame (.of_eq _ rfl rfl rfl rfl) _ _ (by simp [Instr.resultRegs]) (by simp [Instr.resultRegs])) _
      (by simp [Instr.resultRegs]) (by simp [Instr.resultRegs])
  · rcases movtucBody_ok h with ⟨-, rfl⟩ | ⟨-, r, hr, rfl⟩
    · exact drawnTranslateResult_frame _ _ _ _
    · obtain ⟨mem, hm⟩ := (translateString_ok hr).state
      exact (setTranslateResult_frame _ hm).setCodes _
  · obtain ⟨left, -, rfl⟩ := skpcBody_ok h
    exact setScanResult_frame (.of_eq _ rfl rfl rfl rfl) _ _ (by simp [Instr.resultRegs]) (by simp [Instr.resultRegs])
  · simp [refuse] at h

/-- The bodies of SCANC, SPANC, SKPC and CRC store nothing (R34). -/
theorem bodyOf_mem {i : Instr} {vs : List Word} {u t : State} (h : bodyOf i vs u = .ok t)
    (hi : ∀ a b c d e f, i ≠ .movtuc a b c d e f) : t.mem = u.mem := by
  unfold bodyOf at h
  split at h
  · rcases crcBody_ok h with ⟨r, rfl⟩ | rfl <;> simp
  · obtain ⟨left, -, rfl⟩ := scancBody_ok h
    simp
  · obtain ⟨left, -, rfl⟩ := spancBody_ok h
    simp
  · exact absurd rfl (hi _ _ _ _ _ _)
  · obtain ⟨left, -, rfl⟩ := skpcBody_ok h
    simp
  · simp [refuse] at h

/-- Every body keeps memory canonical. -/
theorem bodyOf_wf {i : Instr} {vs : List Word} {u t : State} (hu : u.mem.wf) (h : bodyOf i vs u = .ok t) :
    t.mem.wf := by
  by_cases hi : ∀ a b c d e f, i ≠ .movtuc a b c d e f
  · rw [bodyOf_mem h hi]
    exact hu
  · unfold bodyOf at h
    split at h
    · exact absurd (fun _ _ _ _ _ _ => by simp) hi
    · exact absurd (fun _ _ _ _ _ _ => by simp) hi
    · exact absurd (fun _ _ _ _ _ _ => by simp) hi
    · rcases movtucBody_ok h with ⟨-, rfl⟩ | ⟨-, r, hr, rfl⟩
      · rw [drawnTranslateResult_mem]
        exact Memory.wf_drawBytes hu _ _
      · rw [State.setCodes_mem, setTranslateResult_mem]
        exact translateString_wf hu hr
    · exact absurd (fun _ _ _ _ _ _ => by simp) hi
    · simp [refuse] at h

/-! ### How a body stops -/

/-- Every abnormal end of an instruction's body: an access that is not allowed, or a store into the program. -/
inductive BodyStop (u : State) : Stop → Prop where
  | access (a : Word) (k : AccessKind) (mem : Memory) (h : u.platform.accessible a k = false) :
    BodyStop u (.exception (.accessViolation a k) mem)
  | code (a : Word) (h : u.platform.inCode a = true) : BodyStop u (.refusal (.storeIntoCode a))

theorem translateString_error {esc : Byte} {tb : Word} {n m : Nat} {a d : Word} {u : State} {e : Stop}
    (h : translateString esc tb n m a d u = .error e) : BodyStop u e := by
  induction n generalizing m a d u with
  | zero => simp [translateString] at h
  | succ n ih =>
    cases m with
    | zero => simp [translateString] at h
    | succ m =>
      unfold translateString at h
      rcases Res.bind_eq_error.mp h with h | ⟨b, -, h⟩
      · obtain ⟨rfl, ha⟩ := readByte_error h
        exact .access _ _ _ ha
      · rcases Res.bind_eq_error.mp h with h | ⟨t, -, h⟩
        · obtain ⟨rfl, ha⟩ := readByte_error h
          exact .access _ _ _ ha
        · split at h
          · simp at h
          · rcases Res.bind_eq_error.mp h with h | ⟨s', hw, h⟩
            · rcases memWrite_error h with h | h
              · obtain ⟨_, -, rfl, ha, -⟩ := checkAccess_error h
                exact .access _ _ _ ha
              · obtain ⟨_, -, rfl, ha⟩ := checkCode_error h
                exact .code _ ha
            · obtain rfl := memWrite_byte_ok hw
              have := ih h
              cases this with
              | access a k mem ha => exact .access a k mem ha
              | code a ha => exact .code a ha

theorem crcString_error {u : State} {tb : Word} {n : Nat} {a c : Word} {e : Stop}
    (h : crcString u tb n a c = .error e) :
    ∃ x, e = .exception (.accessViolation x .read) u.mem ∧ u.platform.accessible x .read = false := by
  induction n generalizing a c with
  | zero => simp [crcString] at h
  | succ n ih =>
    unfold crcString at h
    rcases Res.bind_eq_error.mp h with h | ⟨b, -, h⟩
    · exact ⟨a, readByte_error h⟩
    · exact ih h

/-- The bodies that store nothing stop only where a read is not allowed, and memory is as it was (R35, R162). -/
theorem bodyOf_error_read {i : Instr} {vs : List Word} {u : State} {e : Exception} {mem : Memory}
    (h : bodyOf i vs u = .error (.exception e mem)) (hi : ∀ a b c d e f, i ≠ .movtuc a b c d e f) :
    mem = u.mem ∧ ∃ x, e = .accessViolation x .read ∧ u.platform.accessible x .read = false := by
  have scan : ∀ {stops : Byte → Res Bool} {n : Nat} {a : Word},
      scanString u stops n a = .error (.exception e mem) →
      (∀ b, stops b = .error (.exception e mem) →
        mem = u.mem ∧ ∃ x, e = .accessViolation x .read ∧ u.platform.accessible x .read = false) →
      mem = u.mem ∧ ∃ x, e = .accessViolation x .read ∧ u.platform.accessible x .read = false := by
    intro stops n a h hs
    rcases scanString_error h with ⟨x, he, hx⟩ | ⟨b, hb⟩
    · simp only [Stop.exception.injEq] at he
      exact ⟨he.2, x, he.1, hx⟩
    · exact hs b hb
  have masked : ∀ {tb : Word} {mk : Byte} {f : Byte → Bool} (b : Byte),
      (maskedEntry u tb mk b).map f = .error (.exception e mem) →
      mem = u.mem ∧ ∃ x, e = .accessViolation x .read ∧ u.platform.accessible x .read = false := by
    intro tb mk f b h
    rcases hm : maskedEntry u tb mk b with e' | t
    · rw [hm] at h
      simp only [Except.map, Except.error.injEq] at h
      subst h
      obtain ⟨he, hx⟩ := maskedEntry_error hm
      simp only [Stop.exception.injEq] at he
      exact ⟨he.2, _, he.1, hx⟩
    · simp [hm, Except.map] at h
  unfold bodyOf at h
  split at h
  · unfold crcBody at h
    split at h
    · simp at h
    · rcases Res.bind_eq_error.mp h with h | ⟨_, -, h⟩
      · obtain ⟨_, -, he, ha, -⟩ := checkAccess_error h
        simp only [Stop.exception.injEq] at he
        exact ⟨he.2, _, he.1, ha⟩
      · rcases Res.bind_eq_error.mp h with h | ⟨_, -, h⟩
        · obtain ⟨x, he, hx⟩ := crcString_error h
          simp only [Stop.exception.injEq] at he
          exact ⟨he.2, _, he.1, hx⟩
        · split at h <;> simp at h
  · unfold scancBody at h
    rcases Res.bind_eq_error.mp h with h | ⟨_, -, h⟩
    · exact scan h masked
    · simp at h
  · unfold spancBody at h
    rcases Res.bind_eq_error.mp h with h | ⟨_, -, h⟩
    · exact scan h masked
    · simp at h
  · exact absurd rfl (hi _ _ _ _ _ _)
  · unfold skpcBody at h
    rcases Res.bind_eq_error.mp h with h | ⟨_, -, h⟩
    · exact scan h (by simp)
    · simp at h
  · simp [refuse] at h

/-- An exception in any body is an access that is not allowed (R90, R162). -/
theorem bodyOf_error_access {i : Instr} {vs : List Word} {u : State} {e : Exception} {mem : Memory}
    (h : bodyOf i vs u = .error (.exception e mem)) :
    ∃ x k, e = .accessViolation x k ∧ u.platform.accessible x k = false := by
  by_cases hi : ∀ a b c d e f, i ≠ .movtuc a b c d e f
  · obtain ⟨-, x, he, hx⟩ := bodyOf_error_read h hi
    exact ⟨x, .read, he, hx⟩
  · unfold bodyOf at h
    split at h
    · exact absurd (fun _ _ _ _ _ _ => by simp) hi
    · exact absurd (fun _ _ _ _ _ _ => by simp) hi
    · exact absurd (fun _ _ _ _ _ _ => by simp) hi
    · unfold movtucBody at h
      split at h
      · rcases Res.bind_eq_error.mp h with h | ⟨_, -, h⟩
        · obtain ⟨_, -, he, -⟩ := checkCode_error h
          simp at he
        · simp at h
      · rcases Res.bind_eq_error.mp h with h | ⟨_, -, h⟩
        · have := translateString_error h
          cases this with
          | access a k mem ha => exact ⟨a, k, rfl, ha⟩
        · simp at h
    · exact absurd (fun _ _ _ _ _ _ => by simp) hi
    · simp [refuse] at h

end Sys2Proof.Machine
end

