-- ==== Sys2Proof/Laws/Loops.lean ====
section
/-! SUPPORT. What the loops of the instructions do, byte by byte: where a scan faults, what a translation stores, what CRC
reads. -/

namespace Sys2Proof.Machine

theorem addr_add (a : Word) (p i : Nat) :
    a + BitVec.ofNat 32 p + BitVec.ofNat 32 i = a + BitVec.ofNat 32 (p + i) := by
  apply BitVec.eq_of_toNat_eq
  simp only [BitVec.toNat_add, BitVec.toNat_ofNat]
  omega

/-- A scan that passes `k` bytes and cannot read the next faults on it (R35, R162). -/
theorem scanString_faultsAt {s : State} {stops : Byte → Res Bool} {n k : Nat} {a : Word} (hk : k < n)
    (hpass : ∀ i < k, s.platform.accessible (a + BitVec.ofNat 32 i) .read = true ∧
      stops (s.mem.get (a + BitVec.ofNat 32 i).toNat) = .ok false)
    (hx : s.platform.accessible (a + BitVec.ofNat 32 k) .read = false) :
    scanString s stops n a = .error (.exception (.accessViolation (a + BitVec.ofNat 32 k) .read) s.mem) := by
  induction k generalizing n a with
  | zero =>
    obtain ⟨n, rfl⟩ : ∃ m, n = m + 1 := ⟨n - 1, by omega⟩
    rw [addr_zero] at hx ⊢
    simp [scanString, readByte, hx, raise]
  | succ k ih =>
    obtain ⟨n, rfl⟩ : ∃ m, n = m + 1 := ⟨n - 1, by omega⟩
    obtain ⟨h1, h2⟩ := hpass 0 (by omega)
    rw [addr_zero] at h1 h2
    rw [← addr_succ] at hx ⊢
    simp only [scanString, readByte_ok h1, Res.ok_bind, h2, Bool.false_eq_true, if_false]
    exact ih (by omega) (fun i hi => by rw [addr_succ]; exact hpass (i + 1) (by omega)) hx

/-- A scan that passes `k` bytes and whose test of the next stops, stops so (R35). -/
theorem scanString_testStopsAt {s : State} {stops : Byte → Res Bool} {n k : Nat} {a : Word} {e : Stop} (hk : k < n)
    (hpass : ∀ i < k, s.platform.accessible (a + BitVec.ofNat 32 i) .read = true ∧
      stops (s.mem.get (a + BitVec.ofNat 32 i).toNat) = .ok false)
    (hr : s.platform.accessible (a + BitVec.ofNat 32 k) .read = true)
    (hx : stops (s.mem.get (a + BitVec.ofNat 32 k).toNat) = .error e) : scanString s stops n a = .error e := by
  induction k generalizing n a with
  | zero =>
    obtain ⟨n, rfl⟩ : ∃ m, n = m + 1 := ⟨n - 1, by omega⟩
    rw [addr_zero] at hr hx
    simp [scanString, readByte_ok hr, hx]
  | succ k ih =>
    obtain ⟨n, rfl⟩ : ∃ m, n = m + 1 := ⟨n - 1, by omega⟩
    obtain ⟨h1, h2⟩ := hpass 0 (by omega)
    rw [addr_zero] at h1 h2
    rw [← addr_succ] at hr hx
    simp only [scanString, readByte_ok h1, Res.ok_bind, h2, Bool.false_eq_true, if_false]
    exact ih (by omega) (fun i hi => by rw [addr_succ]; exact hpass (i + 1) (by omega)) hr hx

/-- The entry of a masked table that may not be read is reported (R35, R162). -/
theorem maskedEntry_denied {s : State} {tbladdr : Word} {mask b : Byte}
    (h : s.platform.accessible (tbladdr + b.setWidth 32) .read = false) :
    maskedEntry s tbladdr mask b = .error (.exception (.accessViolation (tbladdr + b.setWidth 32) .read) s.mem) := by
  simp [maskedEntry, readByte, h, raise]

/-- The first byte of an extent that belongs to the program is the one named (R43). -/
theorem checkCode_first {s : State} {a : Word} {n j : Nat} (hj : j < n)
    (hi : ∀ i < j, s.platform.inCode (a + BitVec.ofNat 32 i) = false)
    (hx : s.platform.inCode (a + BitVec.ofNat 32 j) = true) :
    checkCode s a n = .error (.refusal (.storeIntoCode (a + BitVec.ofNat 32 j))) := by
  induction j generalizing n a with
  | zero =>
    obtain ⟨n, rfl⟩ : ∃ m, n = m + 1 := ⟨n - 1, by omega⟩
    rw [addr_zero] at hx ⊢
    simp [checkCode, hx, refuse]
  | succ j ih =>
    obtain ⟨n, rfl⟩ : ∃ m, n = m + 1 := ⟨n - 1, by omega⟩
    have h0 := hi 0 (by omega)
    rw [addr_zero] at h0
    rw [← addr_succ] at hx ⊢
    rw [checkCode, h0]
    exact ih (by omega) (fun i hi' => by rw [addr_succ]; exact hi (i + 1) (by omega)) hx

/-- MOVTUC's two forbidden overlaps, said of byte addresses (R82). -/
theorem overlapUnpredictable_iff (n : Word16) (a tb : Word) (m : Word16) (d : Word) :
    overlapUnpredictable n a tb m d = true ↔
      (∃ i < m.toNat, ∃ j < 256, d + BitVec.ofNat 32 i = tb + BitVec.ofNat 32 j) ∨
        ((∃ i < n.toNat, ∃ j < m.toNat, a + BitVec.ofNat 32 i = d + BitVec.ofNat 32 j) ∧ a ≠ d) := by
  have h1 := n.isLt
  have h2 := m.isLt
  unfold overlapUnpredictable
  simp only [Bool.or_eq_true, Bool.and_eq_true, bne_iff_ne]
  rw [Extent.overlaps_iff _ _ (by simp only; omega) (by simp),
    Extent.overlaps_iff _ _ (by simp only; omega) (by simp only; omega)]

/-- One translation that goes through (R81): the byte read, its entry, and the store. -/
theorem translateString_move {s : State} {esc : Byte} {tbladdr src dst : Word} {n m : Nat}
    (h1 : s.platform.accessible src .read = true)
    (h2 : s.platform.accessible (tbladdr + (s.mem.get src.toNat).setWidth 32) .read = true)
    (h3 : s.mem.get (tbladdr + (s.mem.get src.toNat).setWidth 32).toNat ≠ esc)
    (h4 : s.platform.accessible dst .write = true) (h5 : s.platform.inCode dst = false) :
    translateString esc tbladdr (n + 1) (m + 1) src dst s =
      translateString esc tbladdr n m (src + 1) (dst + 1)
        { s with mem := s.mem.set dst.toNat (s.mem.get (tbladdr + (s.mem.get src.toNat).setWidth 32).toNat) } := by
  rw [translateString]
  simp only [readByte_ok h1, readByte_ok h2, Res.ok_bind, if_neg h3]
  rw [memWrite_byte _ h4 h5]
  rfl

/-- The translation stops on the escape before anything is stored (R81). -/
theorem translateString_escape {s : State} {esc : Byte} {tbladdr src dst : Word} {n m : Nat}
    (h1 : s.platform.accessible src .read = true)
    (h2 : s.platform.accessible (tbladdr + (s.mem.get src.toNat).setWidth 32) .read = true)
    (h3 : s.mem.get (tbladdr + (s.mem.get src.toNat).setWidth 32).toNat = esc) :
    translateString esc tbladdr (n + 1) (m + 1) src dst s = .ok ⟨n + 1, src, m + 1, dst, true, s⟩ := by
  rw [translateString]
  simp only [readByte_ok h1, readByte_ok h2, Res.ok_bind, if_pos h3]

/-- Where the bytes read lie outside the destination, or source and destination are the same string, what the first
`k` translations store is what the state before them says (R81, R82, R83): from that state on, the loop is the one
that has `k` bytes behind it. -/
theorem translateString_prefix {u : State} {esc : Byte} {tb a d : Word} {n m k : Nat} (hn : n < 2 ^ 16)
    (hkn : k ≤ n) (hkm : k ≤ m)
    (hsrc : a = d ∨ ∀ i < n, ∀ j < m, a + BitVec.ofNat 32 i ≠ d + BitVec.ofNat 32 j)
    (htbl : ∀ b : Byte, ∀ j < m, tb + b.setWidth 32 ≠ d + BitVec.ofNat 32 j)
    (tr : Nat → Byte)
    (htr : ∀ i < k, tr i =
      u.mem.get (tb + (u.mem.get (a + BitVec.ofNat 32 i).toNat).setWidth 32).toNat)
    (hread : ∀ i < k, u.platform.accessible (a + BitVec.ofNat 32 i) .read = true ∧
      u.platform.accessible (tb + (u.mem.get (a + BitVec.ofNat 32 i).toNat).setWidth 32) .read = true)
    (hesc : ∀ i < k, tr i ≠ esc)
    (hwrite : ∀ i < k, u.platform.accessible (d + BitVec.ofNat 32 i) .write = true ∧
      u.platform.inCode (d + BitVec.ofNat 32 i) = false) :
    ∃ mem : Memory, (∀ i < k, mem.get (d + BitVec.ofNat 32 i).toNat = tr i) ∧
      (∀ x, (∀ i < k, x ≠ (d + BitVec.ofNat 32 i).toNat) → mem.get x = u.mem.get x) ∧
      translateString esc tb n m a d u =
        translateString esc tb (n - k) (m - k) (a + BitVec.ofNat 32 k) (d + BitVec.ofNat 32 k)
          { u with mem := mem } := by
  induction k with
  | zero => exact ⟨u.mem, fun i hi => absurd hi (by omega), fun _ _ => rfl, by simp⟩
  | succ k ih =>
    obtain ⟨mem, h1, h2, h3⟩ := ih (by omega) (by omega) (fun i hi => htr i (by omega)) (fun i hi => hread i (by omega))
      (fun i hi => hesc i (by omega)) fun i hi => hwrite i (by omega)
    have hs : mem.get (a + BitVec.ofNat 32 k).toNat = u.mem.get (a + BitVec.ofNat 32 k).toNat := by
      refine h2 _ fun i hi he => ?_
      rcases hsrc with rfl | hsrc
      · exact addr_ne a (by omega) (by omega) (by omega : k ≠ i) he
      · exact hsrc k (by omega) i (by omega) (BitVec.eq_of_toNat_eq he)
    have ht : ∀ b : Byte, mem.get (tb + b.setWidth 32).toNat = u.mem.get (tb + b.setWidth 32).toNat := fun b =>
      h2 _ fun i hi he => htbl b i (by omega) (BitVec.eq_of_toNat_eq he)
    obtain ⟨r1, r2⟩ := hread k (by omega)
    obtain ⟨w1, w2⟩ := hwrite k (by omega)
    have hk := htr k (by omega)
    refine ⟨mem.set (d + BitVec.ofNat 32 k).toNat (tr k), fun i hi => ?_, fun x hx => ?_, ?_⟩
    · by_cases hik : i = k
      · rw [hik]
        exact Memory.get_set_same _ _ _
      · rw [Memory.get_set_ne _ _ (addr_ne d (by omega) (by omega) hik)]
        exact h1 i (by omega)
    · rw [Memory.get_set_ne _ _ (hx k (by omega))]
      exact h2 x fun i hi => hx i (by omega)
    · rw [h3, show n - k = (n - (k + 1)) + 1 by omega, show m - k = (m - (k + 1)) + 1 by omega]
      have s1 : ∀ x : Word, x + BitVec.ofNat 32 k + 1 = x + BitVec.ofNat 32 (k + 1) := fun x => addr_add x k 1
      rw [translateString_move (s := { u with mem := mem }) r1 (by simp only [hs]; exact r2)
        (by simp only [hs, ht, ← hk]; exact hesc k (by omega)) w1 w2, s1, s1]
      simp only [hs, ht, ← hk]

/-- With a readable string CRC includes its bytes one after the other (R111). -/
theorem crcString_readable {s : State} {tbl : Word} {n : Nat} {a c : Word}
    (h : ∀ i < n, s.platform.accessible (a + BitVec.ofNat 32 i) .read = true) :
    crcString s tbl n a c =
      .ok (((List.range n).map fun i => s.mem.get (a + BitVec.ofNat 32 i).toNat).foldl
        (crcByte s.platform.crcShift (crcEntry s.mem tbl)) c) := by
  induction n generalizing a c with
  | zero => rfl
  | succ n ih =>
    have h0 := h 0 (by omega)
    rw [addr_zero] at h0
    rw [crcString, readByte_ok h0, Res.ok_bind, ih fun i hi => by rw [addr_succ]; exact h (i + 1) (by omega)]
    simp only [List.range_succ_eq_map, List.map_cons, List.map_map, List.foldl_cons, Function.comp_def, addr_zero,
      addr_succ, Nat.succ_eq_add_one]

/-- CRC faults at the first string byte that may not be read, its table being readable (R35, R162). -/
theorem crcString_faultsAt {s : State} {tbl : Word} {n k : Nat} {a c : Word} (hk : k < n)
    (h : ∀ i < k, s.platform.accessible (a + BitVec.ofNat 32 i) .read = true)
    (hx : s.platform.accessible (a + BitVec.ofNat 32 k) .read = false) :
    crcString s tbl n a c = .error (.exception (.accessViolation (a + BitVec.ofNat 32 k) .read) s.mem) := by
  induction k generalizing n a c with
  | zero =>
    obtain ⟨n, rfl⟩ : ∃ m, n = m + 1 := ⟨n - 1, by omega⟩
    rw [addr_zero] at hx ⊢
    simp [crcString, readByte, hx, raise]
  | succ k ih =>
    obtain ⟨n, rfl⟩ : ∃ m, n = m + 1 := ⟨n - 1, by omega⟩
    have h0 := h 0 (by omega)
    rw [addr_zero] at h0
    rw [← addr_succ] at hx ⊢
    rw [crcString, readByte_ok h0, Res.ok_bind]
    exact ih (by omega) (fun i hi => by rw [addr_succ]; exact h (i + 1) (by omega)) hx

end Sys2Proof.Machine
end

