-- ==== Sys2Proof/Laws/PerInstr.lean ====
section
/-! SUPPORT. Laws said of every instruction, one lemma per constructor. -/

namespace Sys2Proof.Laws

/-- An instruction's opcode byte has the Format line of its operands (R51, R52), and that opcode with those operands is
the instruction again. -/
def Format.Statement (i : Instr) : Prop :=
  formatOf i.opcode = some (i.operands.map Prod.fst) ∧ instrOf i.opcode (i.operands.map Prod.snd) = some i

theorem Format.crc (tbl inicrc strlen stream : Specifier) : Format.Statement (.crc tbl inicrc strlen stream) :=
  ⟨formatOf_opcode _, instrOf_opcode _⟩

theorem Format.scanc (len addr tbladdr mask : Specifier) : Format.Statement (.scanc len addr tbladdr mask) :=
  ⟨formatOf_opcode _, instrOf_opcode _⟩

theorem Format.spanc (len addr tbladdr mask : Specifier) : Format.Statement (.spanc len addr tbladdr mask) :=
  ⟨formatOf_opcode _, instrOf_opcode _⟩

theorem Format.movtuc (srclen srcaddr esc tbladdr dstlen dstaddr : Specifier) :
    Format.Statement (.movtuc srclen srcaddr esc tbladdr dstlen dstaddr) := ⟨formatOf_opcode _, instrOf_opcode _⟩

theorem Format.skpc (char len addr : Specifier) : Format.Statement (.skpc char len addr) :=
  ⟨formatOf_opcode _, instrOf_opcode _⟩

end Sys2Proof.Laws
end

