-- ==== Sys2Proof/Laws/Safety.lean ====
section
/-! SUPPORT. What a run does before and with its next step. -/

namespace Sys2Proof.Machine

/-- A run of a state with first part done set is refused, wherever its PC stands (R19). -/
theorem run_of_fpd {s : State} (n : Nat) (h : s.fpd = true) : run n s = .refused .firstPartDone := by
  cases n <;> simp [run, h]

/-- A run whose PC stands at `end_pc` has ended (R192). -/
theorem run_of_atEnd {s : State} (n : Nat) (hf : s.fpd = false) (h : s.atEnd = true) : run n s = .ended s := by
  cases n <;> simp [run, hf, h]

/-- Elsewhere a run goes on with the step's next state (R192). -/
theorem run_succ_of_next {s t : State} (n : Nat) (hf : s.fpd = false) (he : s.atEnd = false) (h : step s = .next t) :
    run (n + 1) s = run n t := by
  simp [run, hf, he, h]

end Sys2Proof.Machine
end

