-- ==== Sys2Proof/Laws/Values.lean ====
section
/-! SUPPORT. Values of several bytes in memory: what a read delivers and what a store leaves, byte by byte. -/

namespace Sys2Proof.Machine
/-- The bits of a value read: bit `i` is bit `i mod 8` of the byte at position `i / 8` (R31). -/
theorem Memory.getLsbD_readLE (m : Memory) (a : Word) {n i : Nat} (hi : i < 32) :
    (m.readLE a n).getLsbD i =
      (decide (i < 8 * n) && (m.get (a + BitVec.ofNat 32 (i / 8)).toNat).getLsbD (i % 8)) := by
  induction n generalizing a i with
  | zero => simp [Memory.readLE]
  | succ n ih =>
    simp only [Memory.readLE, BitVec.getLsbD_or, BitVec.getLsbD_shiftLeft, BitVec.getLsbD_setWidth, hi, decide_true,
      Bool.true_and]
    by_cases h : i < 8
    · rw [show i / 8 = 0 by omega, show i % 8 = i by omega, addr_zero, decide_eq_true (show i < 8 * (n + 1) by omega)]
      simp [h]
    · rw [BitVec.getLsbD_of_ge _ i (by omega), ih (a + 1) (by omega), addr_succ, show (i - 8) / 8 + 1 = i / 8 by omega,
        show (i - 8) % 8 = i % 8 by omega, decide_eq_false h,
        show decide (i - 8 < 8 * n) = decide (i < 8 * (n + 1)) by apply decide_eq_decide.mpr; omega]
      simp

/-- A longword in memory is its four bytes, the lowest address in bits 7:0 (R31). -/
theorem Memory.readLE_four (m : Memory) (a : Word) :
    m.readLE a 4 = m.get (a + BitVec.ofNat 32 3).toNat ++ (m.get (a + BitVec.ofNat 32 2).toNat ++
      (m.get (a + BitVec.ofNat 32 1).toNat ++ m.get (a + BitVec.ofNat 32 0).toNat)) := by
  apply BitVec.eq_of_getLsbD_eq
  intro i hi
  rw [Memory.getLsbD_readLE m a hi, decide_eq_true (show i < 8 * 4 from hi), Bool.true_and]
  refine Eq.trans ?_ (getLsbD_four _ _ _ _ i).symm
  split_ifs
  · rw [show i / 8 = 0 by omega, show i % 8 = i by omega]
  · rw [show i / 8 = 1 by omega, show i % 8 = i - 8 by omega]
  · rw [show i / 8 = 2 by omega, show i % 8 = i - 16 by omega]
  · rw [show i / 8 = 3 by omega, show i % 8 = i - 24 by omega]

/-- A word in memory is its two bytes, the lower address in bits 7:0 (R31). -/
theorem Memory.readLE_two (m : Memory) (a : Word) :
    m.readLE a 2 =
      (m.get (a + BitVec.ofNat 32 1).toNat ++ m.get (a + BitVec.ofNat 32 0).toNat : BitVec 16).setWidth 32 := by
  apply BitVec.eq_of_getLsbD_eq
  intro i hi
  rw [Memory.getLsbD_readLE m a hi, BitVec.getLsbD_setWidth, decide_eq_true hi, Bool.true_and]
  refine Eq.trans ?_ (BitVec.getLsbD_append (n := 8) (m := 8)).symm
  split_ifs
  · rw [show i / 8 = 0 by omega, show i % 8 = i by omega, decide_eq_true (show i < 8 * 2 by omega), Bool.true_and]
  · by_cases h : i < 16
    · rw [show i / 8 = 1 by omega, show i % 8 = i - 8 by omega, decide_eq_true (show i < 8 * 2 by omega), Bool.true_and]
    · rw [decide_eq_false (show ¬ i < 8 * 2 by omega), Bool.false_and, BitVec.getLsbD_of_ge _ _ (by omega)]

/-- A store changes no other byte. -/
theorem Memory.get_writeLE_ne (m : Memory) (a v : Word) {n x : Nat}
    (h : ∀ i < n, x ≠ (a + BitVec.ofNat 32 i).toNat) : (m.writeLE a v n).get x = m.get x := by
  induction n generalizing m a v with
  | zero => rfl
  | succ n ih =>
    unfold Memory.writeLE
    rw [ih _ (a + 1) _ fun i hi => by rw [addr_succ]; exact h (i + 1) (by omega)]
    exact Memory.get_set_ne _ _ (by simpa using h 0 (by omega))
/-- The byte a store of `n` bytes leaves at each of its positions (R31). -/
theorem Memory.get_writeLE (m : Memory) (a v : Word) {n i : Nat} (hn : n ≤ 2 ^ 32) (hi : i < n) :
    (m.writeLE a v n).get (a + BitVec.ofNat 32 i).toNat = v.extractLsb' (8 * i) 8 := by
  induction n generalizing m a v i with
  | zero => omega
  | succ n ih =>
    unfold Memory.writeLE
    cases i with
    | zero =>
      rw [Memory.get_writeLE_ne, addr_zero, Memory.get_set_same]
      · apply BitVec.eq_of_getLsbD_eq
        intro j hj
        simp [BitVec.getLsbD_setWidth]
      · intro j hj
        rw [addr_succ]
        exact addr_ne a (by omega) (by omega) (by omega)
    | succ i =>
      rw [← addr_succ, ih _ (a + 1) _ (by omega) (by omega)]
      apply BitVec.eq_of_getLsbD_eq
      intro j hj
      simp [BitVec.getLsbD_extractLsb', Nat.mul_add, Nat.add_comm, Nat.add_left_comm]

end Sys2Proof.Machine
end

