-- ==== Sys2Proof/Tests/Slice0.lean ====
section
/-! SUPPORT. The tests: the well-formedness checks refuse what they should; written-out words decode to what they stand for;
vectors of spec/95_test_vectors.md on one step each; and, for every obligation with hypotheses, a state that meets them.
Every expected value is from the spec. -/

namespace Sys2Proof.Tests.Slice0

open Sys2Proof Sys2Proof.Machine

/-! ### Helpers -/

/-- Memory with the given bytes from the given addresses upwards, later parts over earlier ones. -/
def load (parts : List (Nat × List Nat)) : Memory :=
  parts.foldl (fun m p => loadBytes m (BitVec.ofNat 32 p.1) (p.2.map (BitVec.ofNat 8))) []

/-- A machine with its PC at 00001000 and the given memory. -/
def machine (parts : List (Nat × List Nat)) : State := { State.reset with pc := 0x1000, mem := load parts }

/-- The same with accesses of some kinds denied on some extents. -/
def guarded (parts : List (Nat × List Nat)) (denied : List (AccessKind × Extent)) : State :=
  { machine parts with platform := { State.reset.platform with denied := denied } }

def next? : Host.Outcome State Fault Refusal → Option State
  | .next t => some t
  | .fault _ => none
  | .refused _ => none

def fault? : Host.Outcome State Fault Refusal → Option Fault
  | .next _ => none
  | .fault f => some f
  | .refused _ => none

def refusal? : Host.Outcome State Fault Refusal → Option Refusal
  | .next _ => none
  | .fault _ => none
  | .refused r => some r

/-- R0 to R5, the condition codes as one number N Z V C, and the PC. -/
def view (t : State) : List Nat × Nat × Nat :=
  ([Reg.r0, .r1, .r2, .r3, .r4, .r5].map fun r => (t.reg r).toNat, (t.psl.extractLsb' 0 4).toNat, t.pc.toNat)

/-- The bytes from an address upwards. -/
def bytesAt (t : State) (a n : Nat) : List Nat := (List.range n).map fun i => (t.mem.get (a + i)).toNat

/-- What one step leaves in the registers, the codes and the PC. -/
def stepped (s : State) : Option (List Nat × Nat × Nat) := (next? (step s)).map view

/-! ### WellFormed refuses ill-formed terms -/

theorem test_autoincrement_pc_is_not_a_term :
    (Instr.skpc (.direct (.autoinc .pc)) (.direct (.literal 1)) (.direct (.deferred .r1))).wellFormed = false := by decide

theorem test_autoincrement_deferred_pc_is_not_a_term :
    (Instr.skpc (.direct (.literal 1)) (.direct (.literal 1)) (.direct (.autoincDeferred .pc))).wellFormed = false := by
  decide

theorem test_byte_immediate_has_eight_bits :
    (Instr.skpc (.direct (.immediate 0x100)) (.direct (.literal 1)) (.direct (.deferred .r1))).wellFormed = false ∧
      (Instr.skpc (.direct (.immediate 0xFF)) (.direct (.literal 1)) (.direct (.deferred .r1))).wellFormed = true := by
  decide

theorem test_word_immediate_has_sixteen_bits :
    (Instr.skpc (.direct (.literal 1)) (.direct (.immediate 0x10000)) (.direct (.deferred .r1))).wellFormed = false ∧
      (Instr.skpc (.direct (.literal 1)) (.direct (.immediate 0xFFFF)) (.direct (.deferred .r1))).wellFormed = true := by
  decide

theorem test_index_base_is_checked :
    (Instr.skpc (.direct (.literal 1)) (.direct (.literal 1)) (.indexed .r2 (.immediate 0x100))).wellFormed = false ∧
      (Instr.skpc (.direct (.literal 1)) (.direct (.literal 1)) (.indexed .r2 (.autoinc .pc))).wellFormed = false := by
  decide

/-! ### Decoding of written-out words -/

/-- `SKPC #^X20, #6, @#^X00002000` (spec/30_encoding.md R65): 3B; literal 32; literal 6; 9F and the address. -/
theorem test_decode_skpc : decode [0x3B, 0x20, 0x06, 0x9F, 0x00, 0x20, 0x00, 0x00] =
    .ok (.skpc (.direct (.literal 0x20)) (.direct (.literal 6)) (.direct (.absolute 0x2000)), []) := by decide

/-- `SCANC R0, (R1), @#^X00003000, #1` (R65): 2A; 50; 61; 9F and the address; literal 1. -/
theorem test_decode_scanc : decode [0x2A, 0x50, 0x61, 0x9F, 0x00, 0x30, 0x00, 0x00, 0x01] =
    .ok (.scanc (.direct (.register .r0)) (.direct (.deferred .r1)) (.direct (.absolute 0x3000)) (.direct (.literal 1)),
      []) := by decide

/-- SPANC with the modes of R55 to R58 no worked encoding shows: 8F and a 2-byte immediate; -(SP); word displacement
-2 from R11; byte displacement 7F from the PC, which is byte relative; index. The byte after it is left over. -/
theorem test_decode_spanc :
    decode [0x2B, 0x8F, 0x34, 0x12, 0x7E, 0x46, 0xCB, 0xFE, 0xFF, 0xAF, 0x7F, 0x99] =
      .ok (.spanc (.direct (.immediate 0x1234)) (.direct (.autodec .sp)) (.indexed .r6 (.disp .r11 (.word 0xFFFE)))
        (.direct (.disp .pc (.byte 0x7F))), [0x99]) := by decide

/-- `MOVTUC R0, (R1), #^X2C, (R3), R4, (R5)` (R65). -/
theorem test_decode_movtuc : decode [0x2F, 0x50, 0x61, 0x2C, 0x63, 0x54, 0x65] =
    .ok (.movtuc (.direct (.register .r0)) (.direct (.deferred .r1)) (.direct (.literal 0x2C))
      (.direct (.deferred .r3)) (.direct (.register .r4)) (.direct (.deferred .r5)), []) := by decide

/-- `CRC @#^X00005000, #-1, #5, @#^X00004000` (R65). -/
theorem test_decode_crc :
    decode [0x0B, 0x9F, 0x00, 0x50, 0x00, 0x00, 0x8F, 0xFF, 0xFF, 0xFF, 0xFF, 0x05, 0x9F, 0x00, 0x40, 0x00, 0x00] =
      .ok (.crc (.direct (.absolute 0x5000)) (.direct (.immediate 0xFFFFFFFF)) (.direct (.literal 5))
        (.direct (.absolute 0x4000)), []) := by decide

/-- The deferred modes: 99 is `@(R9)+`; BD and F3 are byte and longword displacement deferred from FP and R3; 4C 8C is
`(AP)+[AP]`; 45 43 is index under index, whose bytes end with the second index byte (R59). -/
theorem test_decode_deferred :
    decode [0x0B, 0x99, 0xBD, 0x80, 0xF3, 0x78, 0x56, 0x34, 0x12, 0x4C, 0x8C] =
      .ok (.crc (.direct (.autoincDeferred .r9)) (.direct (.dispDeferred .fp (.byte 0x80)))
        (.direct (.dispDeferred .r3 (.long 0x12345678))) (.indexed .ap (.autoinc .ap)), []) ∧
      decode [0x3B, 0x45, 0x43, 0x3F, 0x68] =
        .ok (.skpc (.indexedTwice .r5 .r3) (.direct (.literal 63)) (.direct (.deferred .r8)), []) := by decide

theorem test_decode_refuses : decode [0x28, 0x00] = .error (.unspecifiedOpcode 0x28) ∧
    decode [0xFD] = .error (.unspecifiedOpcode 0xFD) ∧ decode [0x3B, 0x20, 0x06, 0x9F] = .error .truncated := by decide

/-- A table word: bit 0 is the least significant bit of the first byte, the bytes above it zeros. -/
theorem test_decode_table_word :
    decodeTableWord 8 0x2A = some (.scanc (.direct (.literal 0)) (.direct (.literal 0)) (.direct (.literal 0))
      (.direct (.literal 0))) ∧
    decodeTableWord 24 0x50203B = some (.skpc (.direct (.literal 0x20)) (.direct (.register .r0))
      (.direct (.literal 0))) := by decide

/-! ### Steps (spec/95_test_vectors.md) -/

/-- Program P1, first instruction, with R1 to R5 holding what must stay. -/
def p1 : State := machine [(0x1000, [0x3B, 0x20, 0x06, 0x9F, 0x00, 0x20, 0x00, 0x00]),
  (0x2000, [0x20, 0x20, 0x61, 0x62, 0x31, 0x63])]

theorem test_skpc_p1 : stepped p1 = some ([4, 0x2002, 0, 0, 0, 0], 0, 0x1008) := by decide +kernel

/-- V-SKPC-6: the string wraps past the top of the address space. `SKPC #^X20, #3, (R1)`. -/
theorem test_skpc_wraps :
    stepped ((machine [(0x1000, [0x3B, 0x20, 0x03, 0x61]), (0xFFFFFFFE, [0x20, 0x20, 0x78])]).setReg .r1 0xFFFFFFFE) =
      some ([1, 0, 0, 0, 0, 0], 0, 0x1004) := by decide +kernel

/-- The entries of the table CLS of Part 5 that the string S7 "abc 123" selects. -/
def cls : List (Nat × List Nat) :=
  [(0x2020, [8]), (0x2031, [1, 1, 1]), (0x2061, [4, 4, 4]), (0x3000, [0x61, 0x62, 0x63, 0x20, 0x31, 0x32, 0x33])]

/-- `SCANC R4, (R1), (R2), #mask` and `SPANC` of the same operands, on S7 at 00003000: R4 holds FFFF0007, whose low 16
bits are the length (the register-operand vector). -/
def scan (opcode mask : Nat) : State :=
  (((machine ((0x1000, [opcode, 0x54, 0x61, 0x62, mask]) :: cls)).setReg .r4 0xFFFF0007).setReg .r1 0x3000).setReg .r2
    0x2000

/-- V-SCANC-1, and V-SCANC-2 (no upper-case letter: Z). -/
theorem test_scanc : stepped (scan 0x2A 0x01) = some ([3, 0x3004, 0, 0x2000, 0xFFFF0007, 0], 0, 0x1005) ∧
    stepped (scan 0x2A 0x02) = some ([0, 0x3007, 0, 0x2000, 0xFFFF0007, 0], 4, 0x1005) := by decide +kernel

/-- V-SPANC-1, and V-SPANC-4 (mask 00 stops at once). -/
theorem test_spanc : stepped (scan 0x2B 0x04) = some ([4, 0x3003, 0, 0x2000, 0xFFFF0007, 0], 0, 0x1005) ∧
    stepped (scan 0x2B 0x00) = some ([7, 0x3000, 0, 0x2000, 0xFFFF0007, 0], 0, 0x1005) := by decide +kernel

/-- The entries of the table UP of Part 4 for the letters and the comma used here. -/
def up : List (Nat × List Nat) := [(0x202C, [0x2C]), (0x2061, [0x41, 0x42, 0x43, 0x44, 0x45, 0x46])]

/-- `MOVTUC #srclen, (R6), #^X2C, (R7), #dstlen, (R8)` with the table at 00002000 and 8 bytes EE at 00003000. -/
def move (srclen dstlen dst : Nat) (src : List Nat) : State :=
  (((machine ([(0x1000, [0x2F, srclen, 0x66, 0x2C, 0x67, dstlen, 0x68]),
    (0x3000, [0xEE, 0xEE, 0xEE, 0xEE, 0xEE, 0xEE, 0xEE, 0xEE]), (0x4000, src)] ++ up)).setReg .r6 0x4000).setReg .r7
      0x2000).setReg .r8 (BitVec.ofNat 32 dst)

/-- V-MOVTUC-1: the escape is counted, addressed and not stored. -/
theorem test_movtuc_escape :
    (next? (step (move 7 8 0x3000 [0x61, 0x62, 0x63, 0x2C, 0x64, 0x65, 0x66]))).map
        (fun t => (view t, bytesAt t 0x3000 4)) =
      some (([4, 0x4003, 0, 0x2000, 5, 0x3003], 0xB, 0x1007), [0x41, 0x42, 0x43, 0xEE]) := by decide +kernel

/-- V-MOVTUC-14 (the destination inside the table), V-MOVTUC-15 (source and destination overlap), V-MOVTUC-11 (the same
string), V-MOVTUC-16 (adjacent), V-MOVTUC-17 (an empty destination): which are UNPREDICTABLE (R82). -/
theorem test_movtuc_overlaps : overlapUnpredictable 3 0x1000 0x2000 3 0x2080 = true ∧
    overlapUnpredictable 4 0x1000 0x2000 4 0x1002 = true ∧ overlapUnpredictable 5 0x1000 0x2000 5 0x1000 = false ∧
    overlapUnpredictable 4 0x1000 0x2000 4 0x1004 = false ∧ overlapUnpredictable 3 0x1000 0x2000 0 0x1001 = false := by
  decide +kernel

/-- The 64 bytes of T32 (Part 2). -/
def t32 : List Nat :=
  [0x00, 0x00, 0x00, 0x00, 0x64, 0x10, 0xB7, 0x1D, 0xC8, 0x20, 0x6E, 0x3B, 0xAC, 0x30, 0xD9, 0x26] ++
  [0x90, 0x41, 0xDC, 0x76, 0xF4, 0x51, 0x6B, 0x6B, 0x58, 0x61, 0xB2, 0x4D, 0x3C, 0x71, 0x05, 0x50] ++
  [0x20, 0x83, 0xB8, 0xED, 0x44, 0x93, 0x0F, 0xF0, 0xE8, 0xA3, 0xD6, 0xD6, 0x8C, 0xB3, 0x61, 0xCB] ++
  [0xB0, 0xC2, 0x64, 0x9B, 0xD4, 0xD2, 0xD3, 0x86, 0x78, 0xE2, 0x0A, 0xA0, 0x1C, 0xF2, 0xBD, 0xBD]

/-- `CRC (R6), #-1, #len, (R7)` on the string at 00004000 with table T32. -/
def crcOn (sh : CrcShift) (string : List Nat) : State :=
  let s := ((machine [(0x1000, [0x0B, 0x66, 0x8F, 0xFF, 0xFF, 0xFF, 0xFF, string.length, 0x67]), (0x4000, string),
    (0x5000, t32)]).setReg .r6 0x5000).setReg .r7 0x4000
  { s with platform := { s.platform with crcShift := sh } }

/-- "123456789". -/
def crc9 (sh : CrcShift) : State := crcOn sh [0x31, 0x32, 0x33, 0x34, 0x35, 0x36, 0x37, 0x38, 0x39]

/-- V-CRC-13 with four bits a step; V-CRC-16 with one and two. -/
theorem test_crc :
    stepped (crc9 .four) = some ([0x340BC6D9, 0, 0, 0x4009, 0, 0], 0, 0x1009) ∧
    stepped (crcOn .one [0x41]) = some ([0x2C266174, 0, 0, 0x4001, 0, 0], 0, 0x1009) ∧
    stepped (crcOn .two [0x41]) = some ([0x2C266174, 0, 0, 0x4001, 0, 0], 0, 0x1009) := by decide +kernel

/-- V-CRC-8: the upper bits of inicrc shift down. -/
theorem test_crc_upper_bits : crcSerial 0xA001 0x12340000 [0x31] = 0x0012E0C1 := by decide +kernel

/-- P4 (a): an unreadable string byte. -/
theorem test_access_violation :
    fault? (step { p1 with platform := { p1.platform with denied := [(.read, ⟨0x2002, 1⟩)] } }) =
      some (.accessViolation 0x1000 0x2002 .read p1.mem) := by decide +kernel

/-- P4 (b): register mode for an address operand; P4 (c): opcode 28. -/
theorem test_reserved_mode_and_unknown_opcode :
    fault? (step (machine [(0x1000, [0x2A, 0x50, 0x51, 0x9F])])) = some (.reservedAddressingMode 0x1000) ∧
      refusal? (step (machine [(0x1000, [0x28])])) = some (.unspecifiedOpcode 0x28) := by decide +kernel

/-- The word an outside loader stores is what the next step runs. -/
theorem test_withFetchWord :
    stepped (State.reset.withFetchWord 32 0x6100203B) = some ([0, 0, 0, 0, 0, 0], 4, 4) := by decide +kernel

/-- R148's examples: +123 with three digits, -12 with two. -/
theorem test_packed : packedBytes ⟨123, false⟩ 3 = [0x12, 0x3C] ∧ packedBytes ⟨12, true⟩ 2 = [0x01, 0x2D] := by decide

/-! ### Witnesses: the hypotheses of each obligation, met together

Named after the obligation; the clauses of one obligation at the ends of their ranges. -/

/-- The longest instruction: six specifiers of six bytes. -/
def longest : Instr :=
  .movtuc (.indexed .r2 (.disp .r3 (.long 0x80000000))) (.indexed .r2 (.dispDeferred .r3 (.long 0xFFFFFFFF)))
    (.indexed .r2 (.absolute 0xFFFFFFFF)) (.indexed .pc (.disp .pc (.long 0))) (.indexed .r2 (.disp .sp (.long 1)))
    (.indexed .r2 (.dispDeferred .fp (.long 2)))

/-- The shortest: SKPC with three one-byte specifiers. -/
def shortest : Instr := .skpc (.direct (.literal 0x20)) (.direct (.literal 3)) (.direct (.deferred .r1))

/-- `DecodeEncodeRoundTrip`, `EncodingHasTheRuleLength`. -/
theorem witness_wellFormed : longest.wellFormed = true ∧ (encode longest).length = 37 ∧ shortest.wellFormed = true ∧
    (encode shortest).length = 4 := by decide

/-- `DecodedBytesReencode`. -/
theorem witness_decodes : decode [0x3B, 0x20, 0x03, 0x61, 0x99] = .ok (shortest, [0x99]) := by decide

/-- A machine whose four code bytes at the top of the address space are the only fetchable ones. -/
def topOfMemory (denied : List (AccessKind × Extent)) : State :=
  { (guarded [(0xFFFFFFFD, [0x3B, 0x20, 0x03, 0x61])] denied) with pc := 0xFFFFFFFD }

/-- `StepRunsDecodedInstruction`, `CodeInMemoryIsExecuted`: the byte after the instruction may not be fetched. -/
theorem witness_code : (topOfMemory [(.fetch, ⟨1, 0xFFFFFFFC⟩)]).fpd = false ∧
    decode (fetchBytes (topOfMemory [(.fetch, ⟨1, 0xFFFFFFFC⟩)]) maxInstrBytes 0xFFFFFFFD) = .ok (shortest, []) ∧
    ∀ k < shortest.length, codeByteAt (topOfMemory [(.fetch, ⟨1, 0xFFFFFFFC⟩)]) shortest k := by decide +kernel

/-- `FetchOfInaccessibleByteFaults`, at the opcode and at the last byte. -/
theorem witness_fetch_denied :
    ((topOfMemory [(.fetch, ⟨0xFFFFFFFD, 1⟩)]).platform.accessible (0xFFFFFFFD + BitVec.ofNat 32 0) .fetch = false) ∧
    (3 < shortest.length ∧ (∀ j < 3, codeByteAt (topOfMemory [(.fetch, ⟨0, 1⟩)]) shortest j) ∧
      (topOfMemory [(.fetch, ⟨0, 1⟩)]).platform.accessible (0xFFFFFFFD + BitVec.ofNat 32 3) .fetch = false) := by
  decide +kernel

/-- `UnspecifiedOpcodeRefused`, next to the opcodes and at the ends of the byte's range. -/
theorem witness_unspecified_opcode : ∀ b ∈ [0x00, 0x0A, 0x0C, 0x29, 0x2C, 0x2E, 0x30, 0x3A, 0x3C, 0xFD, 0xFF],
    (machine [(0x1000, [b])]).fpd = false ∧ (machine [(0x1000, [b])]).platform.accessible 0x1000 .fetch = true ∧
      ((machine [(0x1000, [b])]).mem.get 0x1000).toNat ∉ [0x0B, 0x2A, 0x2B, 0x2F, 0x3B] := by decide +kernel

/-- `FirstPartDoneRefused`; and a state whose PC stands at `end_pc` besides, against the same with first part done 0. -/
theorem witness_first_part_done : { State.reset with psl := 0x08000000 }.fpd = true ∧
    (let s := { State.reset with platform := { State.reset.platform with endPc := some 0 } }
    run 0 { s with psl := 0x08000000 } = .refused .firstPartDone ∧ run 0 s = .ended s) := by decide

/-- `StepKeepsInvariant`; with `PcMovesPastInstruction`, `InstructionFrame`, `ScanConditionCodes` and
`CountsFillTheRegister`: a SKPC that completes. -/
theorem witness_step : p1.inv ∧ (next? (step p1)).isSome = true ∧
    (next? (exec (.skpc (.direct (.literal 0x20)) (.direct (.literal 6)) (.direct (.absolute 0x2000))) p1)).isSome =
      true := by decide +kernel

/-- The same for SCANC and SPANC. -/
theorem witness_scans :
    (next? (exec (.scanc (.direct (.register .r4)) (.direct (.deferred .r1)) (.direct (.deferred .r2))
      (.direct (.literal 1))) (scan 0x2A 1))).isSome = true ∧
    (next? (exec (.spanc (.direct (.register .r4)) (.direct (.deferred .r1)) (.direct (.deferred .r2))
      (.direct (.literal 4))) (scan 0x2B 4))).isSome = true := by decide +kernel

/-- `LegalInstructionsComplete`: legal forms of every kind. -/
theorem witness_legal : shortest.legal = true ∧
    (Instr.crc (.indexed .r6 (.absolute 0x5000)) (.direct (.immediate 0xFFFFFFFF)) (.direct (.autodec .r2))
      (.indexed .r3 (.autoinc .r4))).legal = true ∧
    State.reset.fpd = false ∧ State.reset.platform.denied = [] ∧ State.reset.platform.codeRange = [] := by decide

/-- `InstructionsRaiseOnlyAccessAndAddressing`, `AccessViolationNamesDeniedByte`: both faults, the first by an
instruction that is no MOVTUC. -/
theorem witness_faults :
    fault? (step { p1 with platform := { p1.platform with denied := [(.read, ⟨0x2002, 1⟩)] } }) =
      some (.accessViolation 0x1000 0x2002 .read p1.mem) ∧
    fault? (exec (.skpc (.direct (.literal 1)) (.direct (.literal 1)) (.direct (.literal 1))) p1) =
      some (.reservedAddressingMode 0x1000) := by decide +kernel

/-! Operand specifiers -/

/-- `ReservedSpecifierFaults`: a reserved specifier of each kind, the first operand and the last. -/
theorem witness_reserved :
    Specifier.reserved .ab (.direct (.literal 63)) = true ∧ Specifier.reserved .ab (.direct (.register .pc)) = true ∧
    Specifier.reserved .rw (.indexed .pc (.deferred .r0)) = true ∧
    Specifier.reserved .rw (.indexed .r0 (.literal 0)) = true ∧
    Specifier.reserved .rb (.indexed .r0 (.register .r1)) = true ∧ Specifier.reserved .rl (.indexedTwice .r0 .r1) = true ∧
    evalOperands [] (State.reset.advance 1) = .ok ([], State.reset.advance 1) ∧
    evalOperands [(.rb, .direct (.literal 1)), (.rw, .direct (.literal 2))] (State.reset.advance 1) =
      .ok ([1, 2], State.reset.advance 3) := by decide +kernel

/-- `UnpredictableSpecifierRefused`: forms of each clause, none of them reserved, the first operand of a SCANC. -/
theorem witness_unpredictable : ∀ sp ∈ [Specifier.direct (.register .pc), .direct (.deferred .pc), .direct (.autodec .pc),
    .indexed .r1 (.immediate 0), .indexed .r1 (.autoinc .r1), .indexed .r1 (.autodec .r1),
    .indexed .r1 (.autoincDeferred .r1), .indexed .r1 (.deferred .pc)],
    sp.reserved .rw = false ∧ sp.unpredictable = true ∧
    (Instr.scanc sp (.direct (.deferred .r1)) (.direct (.deferred .r2)) (.direct (.literal 1))).operands =
      [] ++ (.rw, sp) :: [(.ab, .direct (.deferred .r1)), (.ab, .direct (.deferred .r2)), (.rb, .direct (.literal 1))] ∧
    evalOperands [] (State.reset.advance 1) = .ok ([], State.reset.advance 1) := by decide

/-- `FirstStoppingOperandDecides`: two instructions that agree up to a specifier that stops. -/
theorem witness_first_stop : ∃ e, evalOperand .rw (.indexedTwice .r0 .r1) (State.reset.advance 2) = .error e ∧
    evalOperands [(.rb, .direct (.literal 1))] (State.reset.advance 1) = .ok ([1], State.reset.advance 2) ∧
    (Instr.skpc (.direct (.literal 1)) (.indexedTwice .r0 .r1) (.direct (.deferred .pc))).operands =
      [(.rb, .direct (.literal 1))] ++ (.rw, .indexedTwice .r0 .r1) :: [(.ab, .direct (.deferred .pc))] ∧
    (Instr.skpc (.direct (.literal 1)) (.indexedTwice .r0 .r1) (.direct (.literal 1))).operands =
      [(.rb, .direct (.literal 1))] ++ (.rw, .indexedTwice .r0 .r1) :: [(.ab, .direct (.literal 1))] :=
  ⟨_, rfl, rfl, rfl, rfl⟩

/-- `RegisterModesGiveAddresses`, `DeferredModesReadThePointer`, `PcModesGiveAddresses`, `ReadOperandsDeliverValues`,
`SpecifiersEvaluateLeftToRight`, `LongwordsAreLittleEndian`: readable bytes, the wrapping ones too; a byte operand that
gives its address by longword displacement, and a word operand in index mode. -/
theorem witness_readable : Reg.r0 ≠ Reg.pc ∧ Reg.sp ≠ Reg.pc ∧ (∀ i < 4, readableAt State.reset 0xFFFFFFFE i) ∧
    (∀ i < 4, readableAt State.reset (State.reset.reg .r0 + (Displacement.byte 0x80).sext) i) ∧
    (∀ i < 4, readableAt State.reset (State.reset.pc + BitVec.ofNat 32 2 + (Displacement.byte 0x80).sext) i) ∧
    (∀ i < 4, readableAt State.reset (State.reset.pc + 1) i) ∧
    evalSpecifier .byte (.direct (.disp .r3 (.long 0x80000000))) State.reset =
      .ok (.address 0x80000000, State.reset.advance 5) ∧
    (evalSpecifier .word (.indexed .r2 (.deferred .r1)) (State.reset.setReg .r2 3)).toOption =
      some (.address 6, (State.reset.setReg .r2 3).advance 2) := by decide +kernel

/-- The unreadable clauses of `DeferredModesReadThePointer`, `PcModesGiveAddresses`, `ReadOperandsDeliverValues` and
`LongwordsAreLittleEndian`: the last byte of a pointer at the wrap, the first of a word operand, and the fourth byte after
a specifier byte at the PC. -/
theorem witness_unreadable :
    firstUnreadable ((guarded [] [(.read, ⟨1, 1⟩)]).setReg .r1 0xFFFFFFFE)
      (((guarded [] [(.read, ⟨1, 1⟩)]).setReg .r1 0xFFFFFFFE).reg .r1) 4 3 ∧
    evalSpecifier .word (.direct (.deferred .r1)) (guarded [] [(.read, ⟨0, 1⟩)]) =
      .ok (.address 0, (guarded [] [(.read, ⟨0, 1⟩)]).advance 1) ∧
    firstUnreadable ((guarded [] [(.read, ⟨0, 1⟩)]).advance 1) 0 OpSize.word.bytes 0 ∧
    firstUnreadable (guarded [] [(.read, ⟨0x1004, 1⟩)]) ((guarded [] [(.read, ⟨0x1004, 1⟩)]).pc + 1) 4 3 ∧
    firstUnreadable (guarded [] [(.read, ⟨0xF82, 1⟩)])
      ((guarded [] [(.read, ⟨0xF82, 1⟩)]).pc + BitVec.ofNat 32 2 + (Displacement.byte 0x80).sext) 4 0 := by
  decide +kernel

/-- `IndexModeAddsScaledIndex`: a base that writes its register, and an absolute one. -/
theorem witness_index : Reg.r1 ≠ Reg.pc ∧ (Mode.autoinc .r2).reservedBase = false ∧
    (Mode.autoinc .r2).unpredictablePc = false ∧ (Mode.autoinc .r2).modifies ≠ some .r1 ∧
    evalMode .word (.autoinc .r2) (State.reset.advance 2) =
      .ok (.address 0, (State.reset.advance 2).setReg .r2 2) ∧
    (Mode.absolute 7).modifies ≠ some .r1 ∧
    evalMode .long (.absolute 7) (State.reset.advance 6) = .ok (.address 7, State.reset.advance 6) := by decide +kernel

/-! SKPC, SCANC, SPANC: the string of three bytes 20 20 61 at the top of memory -/

/-- SKPC #^X20, len, (R1), on 20 20 61 from FFFFFFFE. -/
def skip (len : Nat) (denied : List (AccessKind × Extent)) : State :=
  (guarded [(0x1000, [0x3B, 0x20, len, 0x61]), (0xFFFFFFFE, [0x20, 0x20, 0x61])] denied).setReg .r1 0xFFFFFFFE

/-- `SkpcStopsAtFirstOther`: a stop at position 2, with the byte after it unreadable; the end of the string, with the
byte after it unreadable; a stop at once. -/
theorem witness_skpc :
    (operandsGive shortest (skip 3 [(.read, ⟨1, 1⟩)]) [0x20, 3, 0xFFFFFFFE]
        { skip 3 [(.read, ⟨1, 1⟩)] with pc := 0x1004 } ∧
      (∀ i < 2, readableAt (skip 3 [(.read, ⟨1, 1⟩)]) 0xFFFFFFFE i ∧ byteAt (skip 3 []) 0xFFFFFFFE i = 0x20) ∧
      readableAt (skip 3 [(.read, ⟨1, 1⟩)]) 0xFFFFFFFE 2 ∧ byteAt (skip 3 []) 0xFFFFFFFE 2 ≠ 0x20) ∧
    (operandsGive (.skpc (.direct (.literal 0x20)) (.direct (.literal 2)) (.direct (.deferred .r1)))
        (skip 2 [(.read, ⟨0, 1⟩)]) [0x20, 2, 0xFFFFFFFE] { skip 2 [(.read, ⟨0, 1⟩)] with pc := 0x1004 } ∧
      (∀ i < 2, readableAt (skip 2 [(.read, ⟨0, 1⟩)]) 0xFFFFFFFE i ∧ byteAt (skip 2 []) 0xFFFFFFFE i = 0x20)) ∧
    (operandsGive (.skpc (.direct (.literal 0x21)) (.direct (.literal 3)) (.direct (.deferred .r1))) (skip 3 [])
        [0x21, 3, 0xFFFFFFFE] { skip 3 [] with pc := 0x1004 } ∧ byteAt (skip 3 []) 0xFFFFFFFE 0 ≠ 0x21) := by
  decide +kernel

/-- The SCANC and SPANC of `scan`, with a mask. -/
def scanc (mask : BitVec 6) : Instr :=
  .scanc (.direct (.register .r4)) (.direct (.deferred .r1)) (.direct (.deferred .r2)) (.direct (.literal mask))

def spanc (mask : BitVec 6) : Instr :=
  .spanc (.direct (.register .r4)) (.direct (.deferred .r1)) (.direct (.deferred .r2)) (.direct (.literal mask))

/-- `ScancStopsAtFirstNonzero`: V-SCANC-1, position 4; V-SCANC-2, the end of the string. -/
theorem witness_scanc :
    operandsGive (scanc 1) (scan 0x2A 1) [7, 0x3000, 0x2000, 1] { scan 0x2A 1 with pc := 0x1005 } ∧
    (∀ i < 4, readableAt (scan 0x2A 1) 0x3000 i ∧ entryReadable (scan 0x2A 1) 0x2000 (byteAt (scan 0x2A 1) 0x3000 i) ∧
      entryOf (scan 0x2A 1) 0x2000 (byteAt (scan 0x2A 1) 0x3000 i) &&& (1 : Word).setWidth 8 = 0) ∧
    entryOf (scan 0x2A 1) 0x2000 (byteAt (scan 0x2A 1) 0x3000 4) &&& (1 : Word).setWidth 8 ≠ 0 ∧
    operandsGive (scanc 2) (scan 0x2A 2) [7, 0x3000, 0x2000, 2] { scan 0x2A 2 with pc := 0x1005 } ∧
    (∀ i < 7, entryOf (scan 0x2A 2) 0x2000 (byteAt (scan 0x2A 2) 0x3000 i) &&& (2 : Word).setWidth 8 = 0) := by
  decide +kernel

/-- `SpancStopsAtFirstZero`: V-SPANC-1, position 3; V-SPANC-4, at once; V-SPANC-6's mask, the end of the string. -/
theorem witness_spanc :
    operandsGive (spanc 4) (scan 0x2B 4) [7, 0x3000, 0x2000, 4] { scan 0x2B 4 with pc := 0x1005 } ∧
    (∀ i < 3, readableAt (scan 0x2B 4) 0x3000 i ∧ entryReadable (scan 0x2B 4) 0x2000 (byteAt (scan 0x2B 4) 0x3000 i) ∧
      entryOf (scan 0x2B 4) 0x2000 (byteAt (scan 0x2B 4) 0x3000 i) &&& (4 : Word).setWidth 8 ≠ 0) ∧
    entryOf (scan 0x2B 4) 0x2000 (byteAt (scan 0x2B 4) 0x3000 3) &&& (4 : Word).setWidth 8 = 0 ∧
    entryOf (scan 0x2B 0) 0x2000 (byteAt (scan 0x2B 0) 0x3000 0) &&& (0 : Word).setWidth 8 = 0 ∧
    operandsGive (spanc 63) (scan 0x2B 63) [7, 0x3000, 0x2000, 63] { scan 0x2B 63 with pc := 0x1005 } ∧
    (∀ i < 7, entryOf (scan 0x2B 63) 0x2000 (byteAt (scan 0x2B 63) 0x3000 i) &&& (63 : Word).setWidth 8 ≠ 0) := by
  decide +kernel

/-- `ZeroLengthScansSetZ`: R4 holds FFFF0000, no byte is readable, and the three instructions' operands evaluate. -/
theorem witness_zero_length :
    let s := ((guarded [] [(.read, ⟨0, 2 ^ 32⟩)]).setReg .r4 0xFFFF0000).setReg .r1 0x3000
    operandsGive (.skpc (.direct (.literal 0)) (.direct (.register .r4)) (.direct (.deferred .r1))) s [0, 0, 0x3000]
      { s with pc := 0x1004 } ∧
    operandsGive (scanc 1) s [0, 0x3000, 0, 1] { s with pc := 0x1005 } ∧
    operandsGive (spanc 1) s [0, 0x3000, 0, 1] { s with pc := 0x1005 } ∧ lengthOf 0 = 0 := by decide +kernel

/-- The scan of `scan` with one byte unreadable. -/
def scanDenied (opcode mask : Nat) (x : Word) : State :=
  { scan opcode mask with platform := { (scan opcode mask).platform with denied := [(.read, ⟨x, 1⟩)] } }

/-- `ScansFaultAtUnreadableByte`: V-SCANC-F1, the third byte of S7; the entry that the third byte selects, for SPANC; and
SKPC's third byte, at the wrap. -/
theorem witness_scans_fault :
    (operandsGive (scanc 1) (scanDenied 0x2A 1 0x3002) [7, 0x3000, 0x2000, 1]
        { scanDenied 0x2A 1 0x3002 with pc := 0x1005 } ∧ 2 < lengthOf 7 ∧
      (∀ i < 2, readableAt (scanDenied 0x2A 1 0x3002) 0x3000 i ∧
        entryReadable (scanDenied 0x2A 1 0x3002) 0x2000 (byteAt (scanDenied 0x2A 1 0x3002) 0x3000 i) ∧
        entryOf (scanDenied 0x2A 1 0x3002) 0x2000 (byteAt (scanDenied 0x2A 1 0x3002) 0x3000 i) &&&
          (1 : Word).setWidth 8 = 0) ∧
      unreadableAt (scanDenied 0x2A 1 0x3002) 0x3000 0x2000 2 0x3002) ∧
    (operandsGive (spanc 4) (scanDenied 0x2B 4 0x2063) [7, 0x3000, 0x2000, 4]
        { scanDenied 0x2B 4 0x2063 with pc := 0x1005 } ∧
      (∀ i < 2, readableAt (scanDenied 0x2B 4 0x2063) 0x3000 i ∧
        entryReadable (scanDenied 0x2B 4 0x2063) 0x2000 (byteAt (scanDenied 0x2B 4 0x2063) 0x3000 i) ∧
        entryOf (scanDenied 0x2B 4 0x2063) 0x2000 (byteAt (scanDenied 0x2B 4 0x2063) 0x3000 i) &&&
          (4 : Word).setWidth 8 ≠ 0) ∧
      unreadableAt (scanDenied 0x2B 4 0x2063) 0x3000 0x2000 2 0x2063) ∧
    (operandsGive shortest (skip 3 [(.read, ⟨0, 1⟩)]) [0x20, 3, 0xFFFFFFFE]
        { skip 3 [(.read, ⟨0, 1⟩)] with pc := 0x1004 } ∧ 2 < lengthOf 3 ∧
      (∀ i < 2, readableAt (skip 3 [(.read, ⟨0, 1⟩)]) 0xFFFFFFFE i ∧ byteAt (skip 3 []) 0xFFFFFFFE i = 0x20) ∧
      (skip 3 [(.read, ⟨0, 1⟩)]).platform.accessible (0xFFFFFFFE + BitVec.ofNat 32 2) .read = false) := by
  decide +kernel

/-! MOVTUC -/

/-- The MOVTUC of `move`. -/
def movtuc (srclen dstlen : BitVec 6) : Instr :=
  .movtuc (.direct (.literal srclen)) (.direct (.deferred .r6)) (.direct (.literal 0x2C)) (.direct (.deferred .r7))
    (.direct (.literal dstlen)) (.direct (.deferred .r8))

/-- "abc,def" (V-MOVTUC-1). -/
def abcDef : List Nat := [0x61, 0x62, 0x63, 0x2C, 0x64, 0x65, 0x66]

/-- `MovtucMovesTranslatedBytes` (and the second clause of `CountsFillTheRegister`, and `MovtucMemoryFrame`): V-MOVTUC-1,
the escape at position 3. -/
theorem witness_movtuc_escape :
    operandsGive (movtuc 7 8) (move 7 8 0x3000 abcDef) [7, 0x4000, 0x2C, 0x2000, 8, 0x3000]
      { move 7 8 0x3000 abcDef with pc := 0x1007 } ∧
    ¬ forbiddenOverlap 0x4000 (lengthOf 7) 0x2000 0x3000 (lengthOf 8) ∧
    movesBelow (move 7 8 0x3000 abcDef) 0x4000 0x2C 0x2000 0x3000 3 ∧
    translationReadable (move 7 8 0x3000 abcDef) 0x4000 0x2000 3 ∧
    translated (move 7 8 0x3000 abcDef) 0x4000 0x2000 3 = 0x2C ∧
    (next? (exec (movtuc 7 8) (move 7 8 0x3000 abcDef))).isSome = true := by
  refine ⟨?_, ?_, ?_, ?_, ?_, ?_⟩ <;> decide +kernel

/-- The destination exhausted first (V-MOVTUC-2's lengths halved). -/
theorem witness_movtuc_exhausted :
    operandsGive (movtuc 3 2) (move 3 2 0x3000 abcDef) [3, 0x4000, 0x2C, 0x2000, 2, 0x3000]
      { move 3 2 0x3000 abcDef with pc := 0x1007 } ∧
    ¬ forbiddenOverlap 0x4000 (lengthOf 3) 0x2000 0x3000 (lengthOf 2) ∧
    movesBelow (move 3 2 0x3000 abcDef) 0x4000 0x2C 0x2000 0x3000 2 := by
  refine ⟨?_, ?_, ?_⟩ <;> decide +kernel

/-- In place, as V-MOVTUC-11, both strings exhausted together. -/
theorem witness_movtuc_in_place :
    operandsGive (movtuc 3 3) (move 3 3 0x4000 abcDef) [3, 0x4000, 0x2C, 0x2000, 3, 0x4000]
      { move 3 3 0x4000 abcDef with pc := 0x1007 } ∧
    ¬ forbiddenOverlap 0x4000 (lengthOf 3) 0x2000 0x4000 (lengthOf 3) ∧
    movesBelow (move 3 3 0x4000 abcDef) 0x4000 0x2C 0x2000 0x4000 3 := by
  refine ⟨?_, ?_, ?_⟩ <;> decide +kernel

/-- `MovtucForbiddenOverlapCompletes`: V-MOVTUC-14 and V-MOVTUC-15, with bytes shared at the ends. -/
theorem witness_movtuc_overlap :
    (operandsGive (movtuc 4 4) (move 4 4 0x20FF abcDef) [4, 0x4000, 0x2C, 0x2000, 4, 0x20FF]
        { move 4 4 0x20FF abcDef with pc := 0x1007 } ∧
      forbiddenOverlap 0x4000 (lengthOf 4) 0x2000 0x20FF (lengthOf 4)) ∧
    (operandsGive (movtuc 4 4) (move 4 4 0x4003 abcDef) [4, 0x4000, 0x2C, 0x2000, 4, 0x4003]
        { move 4 4 0x4003 abcDef with pc := 0x1007 } ∧
      forbiddenOverlap 0x4000 (lengthOf 4) 0x2000 0x4003 (lengthOf 4)) ∧
    ∀ i < lengthOf 4, (move 4 4 0x4003 abcDef).platform.inCode (0x4003 + BitVec.ofNat 32 i) = false := by
  decide +kernel

/-- The MOVTUC of `move` on "abc,def", with one access denied and a code range. -/
def moveGuarded (kind : AccessKind) (x dst : Word) (code : List Extent) : State :=
  { move 7 8 dst.toNat abcDef with
    platform := { (move 7 8 dst.toNat abcDef).platform with denied := [(kind, ⟨x, 1⟩)], codeRange := code } }

/-- `MovtucStoresBeforeFaultStay`: two bytes moved, then the third source byte, the entry it selects, or the third
destination byte is inaccessible. -/
theorem witness_movtuc_fault :
    (∀ p ∈ [(AccessKind.read, (0x4002 : Word)), (.read, 0x2063), (.write, 0x3002)],
      operandsGive (movtuc 7 8) (moveGuarded p.1 p.2 0x3000 []) [7, 0x4000, 0x2C, 0x2000, 8, 0x3000]
        { moveGuarded p.1 p.2 0x3000 [] with pc := 0x1007 } ∧
      movesBelow (moveGuarded p.1 p.2 0x3000 []) 0x4000 0x2C 0x2000 0x3000 2) ∧
    ¬ forbiddenOverlap 0x4000 (lengthOf 7) 0x2000 0x3000 (lengthOf 8) ∧ 2 < lengthOf 7 ∧ 2 < lengthOf 8 ∧
    unreadableAt (moveGuarded .read 0x4002 0x3000 []) 0x4000 0x2000 2 0x4002 ∧
    unreadableAt (moveGuarded .read 0x2063 0x3000 []) 0x4000 0x2000 2 0x2063 ∧
    translationReadable (moveGuarded .write 0x3002 0x3000 []) 0x4000 0x2000 2 ∧
    translated (moveGuarded .write 0x3002 0x3000 []) 0x4000 0x2000 2 ≠ 0x2C ∧
    (moveGuarded .write 0x3002 0x3000 []).platform.accessible (0x3000 + BitVec.ofNat 32 2) .write = false := by
  refine ⟨?_, ?_, ?_, ?_, ?_, ?_, ?_, ?_, ?_⟩ <;> decide +kernel

/-- `MovtucStoreIntoCodeRefused`: two bytes moved, the third destination byte belongs to the program; and a destination
at 00004003, which overlaps the source, whose last byte belongs to the program. -/
theorem witness_movtuc_code :
    (operandsGive (movtuc 7 8) (moveGuarded .fetch 0 0x3000 [⟨0x3002, 1⟩]) [7, 0x4000, 0x2C, 0x2000, 8, 0x3000]
        { moveGuarded .fetch 0 0x3000 [⟨0x3002, 1⟩] with pc := 0x1007 } ∧
      ¬ forbiddenOverlap 0x4000 (lengthOf 7) 0x2000 0x3000 (lengthOf 8) ∧
      movesBelow (moveGuarded .fetch 0 0x3000 [⟨0x3002, 1⟩]) 0x4000 0x2C 0x2000 0x3000 2 ∧
      translationReadable (moveGuarded .fetch 0 0x3000 [⟨0x3002, 1⟩]) 0x4000 0x2000 2 ∧
      translated (moveGuarded .fetch 0 0x3000 [⟨0x3002, 1⟩]) 0x4000 0x2000 2 ≠ 0x2C ∧
      (moveGuarded .fetch 0 0x3000 [⟨0x3002, 1⟩]).platform.accessible (0x3000 + BitVec.ofNat 32 2) .write = true ∧
      (moveGuarded .fetch 0 0x3000 [⟨0x3002, 1⟩]).platform.inCode (0x3000 + BitVec.ofNat 32 2) = true) ∧
    (operandsGive (movtuc 7 8) (moveGuarded .fetch 0 0x4003 [⟨0x400A, 1⟩]) [7, 0x4000, 0x2C, 0x2000, 8, 0x4003]
        { moveGuarded .fetch 0 0x4003 [⟨0x400A, 1⟩] with pc := 0x1007 } ∧
      forbiddenOverlap 0x4000 (lengthOf 7) 0x2000 0x4003 (lengthOf 8) ∧ 7 < lengthOf 8 ∧
      (∀ i < 7, (moveGuarded .fetch 0 0x4003 [⟨0x400A, 1⟩]).platform.inCode (0x4003 + BitVec.ofNat 32 i) = false) ∧
      (moveGuarded .fetch 0 0x4003 [⟨0x400A, 1⟩]).platform.inCode (0x4003 + BitVec.ofNat 32 7) = true) := by
  refine ⟨⟨?_, ?_, ?_, ?_, ?_, ?_, ?_⟩, ?_, ?_, ?_, ?_, ?_⟩ <;> decide +kernel

/-! CRC -/

/-- The CRC of `crc9`. -/
def crcI (strlen : BitVec 6) : Instr :=
  .crc (.direct (.deferred .r6)) (.direct (.immediate 0xFFFFFFFF)) (.direct (.literal strlen)) (.direct (.deferred .r7))

/-- `CrcIsTheBitSerialCrc`: T32 and nine bytes. -/
theorem witness_crc : operandsGive (crcI 9) (crc9 .two) [0x5000, 0xFFFFFFFF, 9, 0x4000] { crc9 .two with pc := 0x1009 } ∧
    (∀ j < 64, readableAt (crc9 .two) 0x5000 j) ∧ tableFor (crc9 .two) 0x5000 0xEDB88320 ∧
    ∀ i < lengthOf 9, readableAt (crc9 .two) 0x4000 i := by decide +kernel

/-- `CrcOfEmptyStreamIsInitialCrc`: V-CRC-26, an inaccessible table. -/
theorem witness_crc_empty :
    let s := { crc9 .one with platform := { (crc9 .one).platform with denied := [(.read, ⟨0x5000, 64⟩)] } }
    operandsGive (crcI 0) s [0x5000, 0xFFFFFFFF, 0, 0x4000] { s with pc := 0x1009 } ∧ lengthOf 0 = 0 := by decide +kernel

/-- `CrcIllFormedTableCompletes`: V-CRC-23, entry 0 of T32 replaced by 5. -/
def illFormed : State := { crc9 .one with mem := (crc9 .one).mem.set 0x5000 5 }

theorem witness_crc_ill_formed :
    (operandsGive (crcI 9) illFormed [0x5000, 0xFFFFFFFF, 9, 0x4000] { illFormed with pc := 0x1009 } ∧ lengthOf 9 ≠ 0 ∧
      (∀ j < 64, readableAt illFormed 0x5000 j) ∧ ∀ i < lengthOf 9, readableAt illFormed 0x4000 i) ∧
    ∀ poly, ¬ tableFor illFormed 0x5000 poly := by
  refine ⟨by decide +kernel, fun poly h => ?_⟩
  have h0 := h 0 (by decide)
  rw [show crcEntry illFormed.mem 0x5000 0 = 5 by decide +kernel] at h0
  simp [crcTableEntry, crcShiftBit] at h0

/-- `CrcFaultsAtUnreadableByte`: V-CRC-25, entry 15 inaccessible, also with a step size that never reads it; and the
last string byte inaccessible, the table readable. -/
theorem witness_crc_faults :
    (let s := { crc9 .one with platform := { (crc9 .one).platform with denied := [(.read, ⟨0x503C, 4⟩)] } }
    operandsGive (crcI 9) s [0x5000, 0xFFFFFFFF, 9, 0x4000] { s with pc := 0x1009 } ∧ lengthOf 9 ≠ 0 ∧
    (∀ i < 60, readableAt s 0x5000 i) ∧ s.platform.accessible (0x5000 + BitVec.ofNat 32 60) .read = false) ∧
    (let s := { crc9 .one with platform := { (crc9 .one).platform with denied := [(.read, ⟨0x4008, 1⟩)] } }
    operandsGive (crcI 9) s [0x5000, 0xFFFFFFFF, 9, 0x4000] { s with pc := 0x1009 } ∧ 8 < lengthOf 9 ∧
    (∀ i < 64, readableAt s 0x5000 i) ∧ (∀ i < 8, readableAt s 0x4000 i) ∧
    s.platform.accessible (0x4000 + BitVec.ofNat 32 8) .read = false) := by decide +kernel

/-- The second part of a stream: CRC of "56789" from 00004004 with the R0 of V-CRC-9's first four bytes as inicrc. -/
def crcPart (sh : CrcShift) (inicrc : Word) : State := ((crc9 sh).setReg .r7 0x4004).setReg .r8 inicrc

/-- `CrcContinuesOverParts`: V-CRC-9, "1234" and then "56789" against "123456789", three step sizes. -/
theorem witness_crc_parts :
    crcOver (crcI 4) (crc9 .one) { crc9 .one with pc := 0x1009 } 0x5000 0xFFFFFFFF 4 0x4000 0xEDB88320 ∧
    ((next? (exec (crcI 4) (crc9 .one))).map fun t => t.reg .r0) = some 0x641C1F5C ∧
    crcOver (.crc (.direct (.deferred .r6)) (.direct (.register .r8)) (.direct (.literal 5)) (.direct (.deferred .r7)))
      (crcPart .two 0x641C1F5C) { crcPart .two 0x641C1F5C with pc := 0x1005 } 0x5000 0x641C1F5C 5 0x4004 0xEDB88320 ∧
    crcOver (crcI 9) (crc9 .four) { crc9 .four with pc := 0x1009 } 0x5000 0xFFFFFFFF 9 0x4000 0xEDB88320 ∧
    stringBytes { crc9 .four with pc := 0x1009 } 0x4000 (lengthOf 9) =
      stringBytes { crc9 .one with pc := 0x1009 } 0x4000 (lengthOf 4) ++
        stringBytes { crcPart .two 0x641C1F5C with pc := 0x1005 } 0x4004 (lengthOf 5) := by
  refine ⟨⟨⟨_, _, _, _, rfl⟩, ?_⟩, ?_, ⟨⟨_, _, _, _, rfl⟩, ?_⟩, ⟨⟨_, _, _, _, rfl⟩, ?_⟩, ?_⟩ <;> decide +kernel

/-- `ShortPolynomialsKeepUpperBitsZero`, `PolynomialBitsAreCoefficients`, at the ends of their ranges. -/
theorem witness_polynomials : (0xA001 : Word).toNat < 2 ^ 16 ∧ (0xFFFF : Word).toNat < 2 ^ 16 ∧
    (∀ e ∈ [26, 23, 22, 16, 12, 11, 10, 8, 7, 5, 4, 2, 1, 0], e < 32) ∧ (∀ e ∈ [15, 2, 0], e < 16) ∧
    (∀ e ∈ ([] : List Nat), e < 0) := by decide

/-! Memory and decimal strings -/

/-- `StoreThenLoadReturnsValue`: a longword across the top of the address space, and a store of no byte;
`FailedStoreWritesNothing`: its third byte may not be written. -/
theorem witness_store :
    memWrite State.reset 0xFFFFFFFE 4 0x12345678 =
      .ok { State.reset with mem := [(0, 0x34), (1, 0x12), (0xFFFFFFFE, 0x78), (0xFFFFFFFF, 0x56)] } ∧
    memWrite State.reset 0 0 7 = .ok State.reset ∧ (∀ i < 4, readableAt State.reset 0xFFFFFFFE i) ∧
    (guarded [] [(.write, ⟨0, 1⟩)]).platform.accessible (0xFFFFFFFE + BitVec.ofNat 32 2) .write = false ∧
    ∀ j < 2, (guarded [] [(.write, ⟨0, 1⟩)]).platform.accessible (0xFFFFFFFE + BitVec.ofNat 32 j) .write = true := by
  decide +kernel

/-- `CanonicalMemoriesAreEqual`. -/
theorem witness_canonical : Memory.wf [(0, 0x34), (1, 0x12), (0xFFFFFFFF, 0x56)] := by decide

/-- `DecimalOverflowKeepsLowDigits`, `DecimalZeroSigns`, `PackedStringsReadBack`, `NumericStringsReadBack`,
`DecimalOverflowSetsVAndTraps`: 10^L overflows, 10^L - 1 does not, and a zero overflows nothing; DV set and clear;
`DecimalLengthAbove31IsReserved` on both sides of 31. -/
theorem witness_decimal : Decimal.overflows ⟨1000, true⟩ 3 = true ∧ Decimal.overflows ⟨999, true⟩ 3 = false ∧
    Decimal.overflows ⟨1, false⟩ 0 = true ∧ Decimal.overflows ⟨0, true⟩ 0 = false ∧ pslDV 0x80 = true ∧
    pslDV State.reset.psl = false ∧ (31 : Word16).toNat ≤ 31 ∧ 31 < (32 : Word16).toNat := by decide

/-- A code of the last byte that is read as it is written: the digit in bits 3:0, the sign in bit 4. -/
def lastCode (d : Nat) (negative : Bool) : Byte := BitVec.ofNat 8 (d + if negative then 16 else 0)

def lastRead (b : Byte) : Option (Nat × Bool) :=
  if b.toNat % 16 ≤ 9 ∧ b.toNat < 32 then some (b.toNat % 16, decide (16 ≤ b.toNat)) else none

/-- R131, R149: -120 of four digits, most significant digit first: leading separate, and trailing with `lastCode`. -/
theorem test_numeric_strings : leadingSeparateBytes ⟨120, true⟩ 4 = [0x2D, 0x30, 0x31, 0x32, 0x30] ∧
    trailingBytes lastCode ⟨120, true⟩ 4 = [0x30, 0x31, 0x32, 0x10] ∧
    trailingValue lastRead [0x30, 0x31, 0x32, 0x10] = some ⟨120, true⟩ := by decide

/-- `NumericStringsReadBack`: its hypothesis on a code. -/
theorem witness_last_code : ∀ d ≤ 9, ∀ neg, lastRead (lastCode d neg) = some (d, neg) := by decide

/-- `ControlBlockHoldsDigitAddresses`: a third string, and a register outside the block. -/
theorem test_control_block :
    (setControlBlock State.reset ⟨.packed, 4, 0x100⟩ ⟨.leadingSeparate, 4, 0x200⟩ (some ⟨.trailing, 4, 0x300⟩)).regs =
      { State.reset.regs with r1 := 0x100, r3 := 0x201, r5 := 0x300 } := by decide

/-- `NumericSourcesAreVerified`: an unreadable byte; a blank, a minus, and a 00 at readable ones; strings with and without
an invalid digit. -/
theorem witness_leading_separate :
    (guarded [] [(.read, ⟨7, 1⟩)]).platform.accessible 7 .read = false ∧
    (guarded [(5, [0x20, 0x2D])] []).platform.accessible 5 .read = true ∧
    (guarded [(5, [0x20, 0x2D])] []).mem.get 5 ∈ ([0x2B, 0x20] : List Byte) ∧
    (guarded [(5, [0x20, 0x2D])] []).mem.get 6 = 0x2D ∧
    (guarded [(5, [0x20, 0x2D])] []).mem.get 4 ∉ ([0x2B, 0x20, 0x2D] : List Byte) ∧
    leadingSeparateValue [0x2B, 0x39] = some ⟨9, false⟩ ∧ leadingSeparateValue [0x2B, 0x3A] = none ∧
    trailingValue lastRead [0x2F, 0x01] = none ∧ trailingValue lastRead [0x39, 0x1A] = none ∧
    ∀ i < 2, readableAt (guarded [(5, [0x2B, 0x39])] []) 5 i := by decide

end Sys2Proof.Tests.Slice0
end

section
/-! SUPPORT. The counts the string instructions leave in R0 and R4 (spec/10_state.md R12). -/

namespace Sys2Proof.Machine

/-- Once its operands are known, an instruction that completes is its body completing. -/
theorem bodyOf_of_exec_next {i : Instr} {s t u : State} {vs : List Word} (ho : operandsGive i s vs u)
    (h : exec i s = .next t) : bodyOf i vs u = .ok t := by
  obtain ⟨hf, hv⟩ := ho
  rwa [exec_of_operands hf hv, conclude_eq_next] at h

/-- A length operand has 16 bits, so what is left of its string leaves bits 31:16 of the count register zero. -/
theorem countLeft_of_left {t : State} {count address : Reg} {a n : Word} {left : Nat} (hl : left ≤ lengthOf n)
    (hc : t.reg count = BitVec.ofNat 32 left)
    (ha : t.reg address = a + BitVec.ofNat 32 (lengthOf n - left)) : countLeft t count address a (lengthOf n) := by
  have hlt : left < 2 ^ 16 := hl.trans_lt (n.setWidth 16).isLt
  have high : (BitVec.ofNat 32 left).extractLsb' 16 16 = 0#16 := by
    apply BitVec.eq_of_toNat_eq
    rw [BitVec.extractLsb'_toNat, BitVec.toNat_ofNat, BitVec.toNat_zero, Nat.shiftRight_eq_div_pow]
    omega
  have low : (BitVec.ofNat 32 left).extractLsb' 0 16 = BitVec.ofNat 16 left := by
    apply BitVec.eq_of_toNat_eq
    simp [BitVec.extractLsb'_toNat]
  exact ⟨left, hl, ha, hc ▸ high, hc ▸ low⟩

@[simp] theorem setScanResult_reg_r0 (u : State) (left : Nat) (next : Word) :
    (setScanResult u left next).reg .r0 = BitVec.ofNat 32 left := by simp [setScanResult]

@[simp] theorem setScanResult_reg_r1 (u : State) (left : Nat) (next : Word) :
    (setScanResult u left next).reg .r1 = next := by simp [setScanResult]

theorem setTableResult_reg (u : State) (tb : Word) {r : Reg} (h2 : r ≠ .r2) (h3 : r ≠ .r3) :
    (setTableResult u tb).reg r = u.reg r := by simp [setTableResult, h2, h3]

/-- What a scan leaves is a count beside the address it belongs to. -/
theorem setScanResult_countLeft (u : State) {a n : Word} {left : Nat} (hl : left ≤ lengthOf n) :
    countLeft (setScanResult u left (a + BitVec.ofNat 32 (lengthOf n - left))) .r0 .r1 a (lengthOf n) :=
  countLeft_of_left hl (by simp) (by simp)

/-- The table results of SCANC and SPANC leave R0 and R1 as the scan left them. -/
theorem setTableResult_countLeft {u : State} {a : Word} {n : Nat} (tb : Word) (h : countLeft u .r0 .r1 a n) :
    countLeft (setTableResult u tb) .r0 .r1 a n := by
  unfold countLeft at h ⊢
  rwa [setTableResult_reg u tb (by decide) (by decide), setTableResult_reg u tb (by decide) (by decide)]

/-- What a translation leaves of each string is a count beside the address it belongs to. -/
theorem setTranslateResult_countLeft {u : State} {a n d m : Word} {r : Translation} (tb : Word) (k : Codes)
    (h : TranslationFrame (lengthOf n) (lengthOf m) a d u r) :
    countLeft ((setTranslateResult r tb).setCodes k) .r0 .r1 a (lengthOf n) ∧
      countLeft ((setTranslateResult r tb).setCodes k) .r4 .r5 d (lengthOf m) := by
  obtain ⟨j, hjn, hjm, hsl, hdl, hs, hd, -⟩ := h.count
  refine ⟨countLeft_of_left (left := r.srcLeft) (by omega) (by simp [setTranslateResult]) ?_,
    countLeft_of_left (left := r.dstLeft) (by omega) (by simp [setTranslateResult]) ?_⟩
  · rw [hsl, Nat.sub_sub_self hjn, ← hs]
    simp [setTranslateResult]
  · rw [hdl, Nat.sub_sub_self hjm, ← hd]
    simp [setTranslateResult]

theorem scancBody_countLeft {n a tb : Word} {mk : Byte} {u t : State}
    (h : scancBody (n.setWidth 16) a tb mk u = .ok t) : countLeft t .r0 .r1 a (lengthOf n) := by
  obtain ⟨left, hl, rfl⟩ := scancBody_ok h
  exact setTableResult_countLeft tb (setScanResult_countLeft u hl)

theorem spancBody_countLeft {n a tb : Word} {mk : Byte} {u t : State}
    (h : spancBody (n.setWidth 16) a tb mk u = .ok t) : countLeft t .r0 .r1 a (lengthOf n) := by
  obtain ⟨left, hl, rfl⟩ := spancBody_ok h
  exact setTableResult_countLeft tb (setScanResult_countLeft u hl)

theorem skpcBody_countLeft {c : Byte} {n a : Word} {u t : State}
    (h : skpcBody c (n.setWidth 16) a u = .ok t) : countLeft t .r0 .r1 a (lengthOf n) := by
  obtain ⟨left, hl, rfl⟩ := skpcBody_ok h
  exact setScanResult_countLeft u hl

/-- R82's overlaps are left out: there MOVTUC's result registers are drawn. -/
theorem movtucBody_countLeft {n a tb m d : Word} {e : Byte} {u t : State}
    (hov : ¬ forbiddenOverlap a (lengthOf n) tb d (lengthOf m))
    (h : movtucBody (n.setWidth 16) a e tb (m.setWidth 16) d u = .ok t) :
    countLeft t .r0 .r1 a (lengthOf n) ∧ countLeft t .r4 .r5 d (lengthOf m) := by
  rcases movtucBody_ok h with ⟨ho, -⟩ | ⟨-, r, hr, rfl⟩
  · exact absurd ((overlapUnpredictable_iff _ _ _ _ _).mp ho) hov
  · exact setTranslateResult_countLeft tb _ (translateString_ok hr)

/-- Settles O19: a body that completes leaves a count of at most the length operand, which has 16 bits. -/
theorem countsFillTheRegister : Obligations.CountsFillTheRegister := by
  unfold Obligations.CountsFillTheRegister
  refine ⟨fun len addr tbladdr mask s t u n a tb mk => ⟨fun ho h => ?_, fun ho h => ?_⟩,
    fun char len addr s t u c n a ho h => ?_,
    fun srclen srcaddr esc tbladdr dstlen dstaddr s t u n a e tb m d ho hov h => ?_⟩
  · exact scancBody_countLeft (bodyOf_of_exec_next ho h)
  · exact spancBody_countLeft (bodyOf_of_exec_next ho h)
  · exact skpcBody_countLeft (bodyOf_of_exec_next ho h)
  · exact movtucBody_countLeft hov (bodyOf_of_exec_next ho h)

end Sys2Proof.Machine
end

section
/-! SUPPORT. The opcode bytes that begin no instruction of the model (spec/30_encoding.md R60). -/

namespace Sys2Proof

/-- A byte that is none of the five opcodes has no Format line (R51, R60). -/
theorem formatOf_eq_none {b : Byte} (h : b.toNat ∉ [0x0B, 0x2A, 0x2B, 0x2F, 0x3B]) : formatOf b = none := by
  rw [Option.eq_none_iff_forall_ne_some]
  intro ks hks
  rcases formatOf_some hks with ⟨rfl, -⟩ | ⟨rfl, -⟩ | ⟨rfl, -⟩ | ⟨rfl, -⟩ | ⟨rfl, -⟩ <;> exact h (by decide)

/-- The opcode byte alone decides the refusal, whatever bytes follow it. -/
theorem decode_of_formatOf_none {b : Byte} (bs : List Byte) (h : formatOf b = none) :
    decode (b :: bs) = .error (.unspecifiedOpcode b) := by simp only [decode, h]

namespace Machine

/-- A fetchable byte is the first one taken (R37). -/
theorem fetchBytes_succ {s : State} {n : Nat} {a : Word} (h : s.platform.accessible a .fetch = true) :
    fetchBytes s (n + 1) a = s.mem.get a.toNat :: fetchBytes s n (a + 1) := if_pos h

/-- What the decoder refuses by name the fetch refuses by name. -/
theorem nextInstr_of_unspecifiedOpcode {s : State} {b : Byte} (hf : s.fpd = false)
    (h : decode (fetchBytes s maxInstrBytes s.pc) = .error (.unspecifiedOpcode b)) :
    nextInstr s = .error (.refusal (.unspecifiedOpcode b)) := by
  simp [nextInstr, hf, h, refuse]

/-- A refused fetch is a refused step. -/
theorem step_of_nextInstr_refusal {s : State} {r : Refusal} (h : nextInstr s = .error (.refusal r)) :
    step s = .refused r := by simp [step, h]

/-- Settles O8: the byte at the PC is the first one fetched, and the decoder refuses it before it reads another. -/
theorem unspecifiedOpcodeRefused : Obligations.UnspecifiedOpcodeRefused := by
  unfold Obligations.UnspecifiedOpcodeRefused
  intro s hfpd hfetch hop
  have hdecode : decode (fetchBytes s maxInstrBytes s.pc) = .error (.unspecifiedOpcode (s.mem.get s.pc.toNat)) := by
    rw [maxInstrBytes, fetchBytes_succ hfetch]
    exact decode_of_formatOf_none _ (formatOf_eq_none hop)
  exact step_of_nextInstr_refusal (nextInstr_of_unspecifiedOpcode hfpd hdecode)

end Machine

end Sys2Proof
end

section
/-! SUPPORT. The entries of a CRC table and the tables that are well-formed (spec/41_crc.md R113, R114), and the bits of a
polynomial value (R117). -/

namespace Sys2Proof.Machine

/-! ### The entries of a table -/

/-- A single bit shifted out leaves the polynomial (R113). -/
@[simp] theorem crcShiftBit_one (poly : Word) : crcShiftBit poly 1 = poly := by simp [crcShiftBit]

@[simp] theorem crcTableEntry_zero (poly : Word) : crcTableEntry poly 0 = 0 :=
  Function.iterate_fixed (crcShiftBit_zero poly) 4

/-- An index that is a power of two is shifted down to the single bit, and the polynomial takes the shifts left. -/
theorem crcTableEntry_two_pow (poly : Word) {n m : Nat} (h : m + 1 + n = 4) :
    crcTableEntry poly (2 ^ n) = (crcShiftBit poly)^[m] poly := by
  have hbit : BitVec.ofNat 32 (2 ^ n) = (1 : Word) <<< n :=
    BitVec.eq_of_toNat_eq (by simp [Nat.shiftLeft_eq])
  have hone : (1 : Word).toNat < 2 ^ (32 - n) := Nat.one_lt_two_pow (by omega)
  rw [crcTableEntry, ← h, Function.iterate_add_apply, hbit, crcShiftBit_iterate_shiftLeft poly hone (by omega),
    Function.iterate_succ_apply, crcShiftBit_one]

@[simp] theorem crcTableEntry_eight (poly : Word) : crcTableEntry poly 8 = poly :=
  crcTableEntry_two_pow poly (n := 3) (m := 0) rfl

theorem crcTableEntry_four (poly : Word) : crcTableEntry poly 4 = crcShiftBit poly poly :=
  crcTableEntry_two_pow poly (n := 2) (m := 1) rfl

/-- The shift of R113 with the polynomial masked by the bit lost, as R114 writes it. -/
theorem crcShiftBit_eq_xor (poly v : Word) :
    crcShiftBit poly v = (v >>> 1) ^^^ (if v.getLsbD 0 then poly else 0) := by
  unfold crcShiftBit
  split <;> simp

theorem crcTableEntry_xor (poly : Word) (j k : Nat) :
    crcTableEntry poly (j ^^^ k) = crcTableEntry poly j ^^^ crcTableEntry poly k := by
  simp only [crcTableEntry, BitVec.ofNat_xor, crcShiftBit_iterate_xor]

/-! ### Well-formed tables -/

theorem crcWellFormed_iff (m : Memory) (tbl : Word) :
    crcWellFormed m tbl = true ↔ ∀ k < 16, crcEntry m tbl k = crcTableEntry (crcEntry m tbl 8) k := by
  simp [crcWellFormed]

/-- Entry 8 of a table gives its polynomial back. -/
theorem crcEntry_eight_of_table {m : Memory} {tbl poly : Word}
    (h : ∀ k < 16, crcEntry m tbl k = crcTableEntry poly k) : crcEntry m tbl 8 = poly :=
  (h 8 (by decide)).trans (crcTableEntry_eight poly)

/-- The test of R114 rebuilds the table from entry 8, and no other polynomial could have built it. -/
theorem crcWellFormed_iff_exists_poly (m : Memory) (tbl : Word) :
    crcWellFormed m tbl = true ↔ ∃ poly, ∀ k < 16, crcEntry m tbl k = crcTableEntry poly k := by
  rw [crcWellFormed_iff]
  constructor
  · exact fun h => ⟨_, h⟩
  · rintro ⟨poly, h⟩
    rwa [crcEntry_eight_of_table h]

/-- Settles O43: entry 8 is the polynomial, so the test compares with the one table there can be; the entries are
linear because the shift is. -/
theorem wellFormedTables : Obligations.WellFormedTables := by
  unfold Obligations.WellFormedTables
  refine ⟨fun m tbl => ⟨crcWellFormed_iff_exists_poly m tbl, fun poly h => ⟨?_, crcEntry_eight_of_table h⟩⟩,
    fun poly => ⟨crcTableEntry_zero poly, crcTableEntry_eight poly, ?_, fun j _ k _ => crcTableEntry_xor poly j k⟩⟩
  · rw [h 0 (by decide), crcTableEntry_zero]
  · rw [crcTableEntry_four, crcShiftBit_eq_xor]

/-! ### The bits of a polynomial value -/

/-- A bit is set in an OR of words exactly when one of them has it. -/
theorem getLsbD_foldl_or (ws : List Word) (acc : Word) (j : Nat) :
    (ws.foldl (· ||| ·) acc).getLsbD j = true ↔ acc.getLsbD j = true ∨ ∃ w ∈ ws, w.getLsbD j = true := by
  induction ws generalizing acc with
  | nil => simp
  | cons w ws ih => simp [ih, or_assoc]

theorem getLsbD_one_shiftLeft {j : Nat} (n : Nat) (hj : j < 32) : ((1 : Word) <<< n).getLsbD j = true ↔ n = j := by
  change (BitVec.twoPow 32 n).getLsbD j = true ↔ n = j
  rw [BitVec.getLsbD_twoPow]
  simp only [Bool.and_eq_true, decide_eq_true_eq]
  omega

/-- The bits of a polynomial value are the places of its exponents (R117). -/
theorem getLsbD_crcPolynomial (order : Nat) (exponents : List Nat) {j : Nat} (hj : j < 32) :
    (crcPolynomial order exponents).getLsbD j = true ↔ ∃ e ∈ exponents, order - 1 - e = j := by
  have hzero : (0 : Word).getLsbD j = false := BitVec.getLsbD_zero
  simp only [crcPolynomial, getLsbD_foldl_or, hzero, Bool.false_eq_true, false_or, List.mem_map,
    exists_exists_and_eq_and, getLsbD_one_shiftLeft _ hj]

/-- Settles O46: below the order, `e` has its place at bit `j` exactly when it is `order - 1 - j`. -/
theorem polynomialBitsAreCoefficients : Obligations.PolynomialBitsAreCoefficients := by
  unfold Obligations.PolynomialBitsAreCoefficients
  intro order exponents j _ hexp hj
  rw [getLsbD_crcPolynomial order exponents hj]
  constructor
  · rintro ⟨e, he, hplace⟩
    have hlt := hexp e he
    exact ⟨by omega, by rwa [show order - 1 - j = e by omega]⟩
  · rintro ⟨hlt, hmem⟩
    exact ⟨_, hmem, by omega⟩

end Sys2Proof.Machine
end

section
/-! SUPPORT. Decimal results: what a destination receives of a true result, and the codes of a zero
(spec/42_decimal_string_common.md R136, R139). -/

namespace Sys2Proof.Machine

theorem Decimal.overflows_iff (v : Decimal) (digits : Nat) :
    v.overflows digits = true ↔ 10 ^ digits ≤ v.magnitude := decide_eq_true_iff

theorem Decimal.stored_of_overflows {v : Decimal} {digits : Nat} (h : v.overflows digits = true) (keep : Bool) :
    v.stored digits keep = ⟨v.magnitude % 10 ^ digits, v.negative⟩ := if_pos h

/-- A result that fits is stored as it is, but that a zero loses its sign where -0 is not kept. -/
theorem Decimal.stored_of_not_overflows {v : Decimal} {digits : Nat} (h : v.overflows digits = false) (keep : Bool) :
    v.stored digits keep = if v.magnitude = 0 ∧ keep = false then ⟨0, false⟩ else v :=
  if_neg (Bool.eq_false_iff.mp h)

/-- Both zeros set the codes alike: N clear and Z set. -/
theorem decimalCodes_of_magnitude_zero {r : Decimal} (h : r.magnitude = 0) (v c : Bool) :
    decimalCodes r v c = { n := false, z := true, v := v, c := c } := by
  simp [decimalCodes, h]

/-- Both zeros denote the integer 0. -/
theorem Decimal.toInt_of_magnitude_zero {v : Decimal} (h : v.magnitude = 0) : v.toInt = 0 := by
  simp [Decimal.toInt, h]

/-- Settles O52: the model's overflow test is the bound, and on overflow the sign kept is the result's own, whether or
not -0 is otherwise kept. -/
theorem decimalOverflowKeepsLowDigits : Obligations.DecimalOverflowKeepsLowDigits := by
  unfold Obligations.DecimalOverflowKeepsLowDigits
  exact fun v digits keep => ⟨v.overflows_iff digits, fun h => Decimal.stored_of_overflows h keep⟩

/-- Settles O53: by overflow or not for the sign stored; the codes and the integer look at the magnitude of a zero
only. -/
theorem decimalZeroSigns : Obligations.DecimalZeroSigns := by
  unfold Obligations.DecimalZeroSigns
  intro v digits vBit cBit
  refine ⟨fun hfit hzero => ?_, fun hfit => ?_, fun hover => ?_, fun hzero => ?_⟩
  · rw [Decimal.stored_of_not_overflows hfit, if_pos ⟨hzero, rfl⟩]
  · rw [Decimal.stored_of_not_overflows hfit, if_neg (by simp)]
  · rw [Decimal.stored_of_overflows hover]
  · rw [decimalCodes_of_magnitude_zero hzero]
    exact ⟨rfl, rfl, Decimal.toInt_of_magnitude_zero hzero⟩

end Sys2Proof.Machine
end

section
/-! SUPPORT. The decoder and the encoder are inverse to each other (spec/30_encoding.md R50 to R58, R65). -/

namespace Sys2Proof

theorem Instr.wellFormed_iff {i : Instr} :
    i.wellFormed = true ↔ ∀ o ∈ i.operands, o.2.wellFormed o.1.size = true := List.all_eq_true

/-- An opcode and as many specifiers as its Format line asks for are read back as the instruction. -/
theorem decode_encode {i : Instr} (hw : i.wellFormed = true) (rest : List Byte) :
    decode (encode i ++ rest) = .ok (i, rest) := by
  simp only [encode, List.cons_append, decode, formatOf_opcode,
    decodeSpecifiers_encode (Instr.wellFormed_iff.mp hw), instrOf_opcode]

/-- What is decoded is well-formed and stands, encoded, at the front of the bytes. -/
theorem wellFormed_and_eq_encode_of_decode {bs rest : List Byte} {i : Instr} (h : decode bs = .ok (i, rest)) :
    i.wellFormed = true ∧ bs = encode i ++ rest := by
  obtain ⟨b, tail, sps, rfl, -, hdecode, hsps, hop⟩ := decode_ok h
  obtain ⟨-, hwf, htail⟩ := decodeSpecifiers_some hdecode
  have hzip : (i.operands.map Prod.fst).zip sps = i.operands := by
    rw [← hsps]
    exact (List.zip_of_prod rfl rfl).symm
  rw [hzip] at hwf htail
  exact ⟨Instr.wellFormed_iff.mpr hwf, by rw [encode, hop, htail, List.cons_append]⟩

/-- The decoder names an opcode only when it is the first byte and has no Format line (R60). -/
theorem head_of_decode_unspecifiedOpcode {bs : List Byte} {b : Byte} (h : decode bs = .error (.unspecifiedOpcode b)) :
    ∃ tail, bs = b :: tail ∧ formatOf b = none := by
  unfold decode at h
  split at h
  · simp at h
  · next b' tail =>
    split at h
    · next hf =>
      simp only [Except.error.injEq, DecodeError.unspecifiedOpcode.injEq] at h
      exact ⟨tail, by rw [h], by rw [← h, hf]⟩
    · split at h
      · simp at h
      · split at h <;> simp at h

theorem encode_length (i : Instr) : (encode i).length = i.length := by
  rw [encode, List.length_cons, encodeOperands_length, Instr.length, Nat.add_comm]

theorem Instr.operands_length_le_six (i : Instr) : i.operands.length ≤ 6 := by cases i <;> simp [Instr.operands]

theorem Instr.length_le (i : Instr) : 1 + i.operands.length ≤ i.length ∧ i.length ≤ maxInstrBytes := by
  obtain ⟨hlow, hhigh⟩ := specifiersLength_le i.operands
  have hsix := i.operands_length_le_six
  simp only [Instr.length, maxInstrBytes]
  omega

/-- A part of an encoding that stops short of its end decodes to nothing: an instruction read from it would be read from
the whole encoding too, leaving bytes over, and the whole encoding leaves none. -/
theorem decode_take_encode {i : Instr} (hw : i.wellFormed = true) {k : Nat} (hk : k < i.length) :
    decode ((encode i).take k) = .error .truncated := by
  rcases hd : decode ((encode i).take k) with (b | _) | ⟨j, rest⟩
  · obtain ⟨tail, htake, hf⟩ := head_of_decode_unspecifiedOpcode hd
    obtain ⟨k, rfl⟩ : ∃ k', k = k' + 1 := Nat.exists_eq_succ_of_ne_zero fun h0 => by simp [h0] at htake
    rw [encode, List.take_succ_cons, List.cons.injEq] at htake
    rw [← htake.1, formatOf_opcode] at hf
    simp at hf
  · rfl
  · obtain ⟨hwj, htake⟩ := wellFormed_and_eq_encode_of_decode hd
    have hsplit : encode i ++ [] = encode j ++ (rest ++ (encode i).drop k) := by
      rw [List.append_nil, ← List.append_assoc, ← htake, List.take_append_drop]
    have hsame := congrArg decode hsplit
    rw [decode_encode hw, decode_encode hwj, Except.ok.injEq, Prod.mk.injEq] at hsame
    have hdrop : (encode i).drop k = [] := (List.append_eq_nil_iff.mp hsame.2.symm).2
    rw [List.drop_eq_nil_iff, encode_length] at hdrop
    omega

/-- Settles O1: each specifier is read back from its own bytes, and the opcode byte fixes how many there are. -/
theorem decodeEncodeRoundTrip : Obligations.DecodeEncodeRoundTrip := by
  unfold Obligations.DecodeEncodeRoundTrip
  exact fun i rest hw => decode_encode hw rest

/-- Settles O2: each specifier read writes its own bytes again. -/
theorem decodedBytesReencode : Obligations.DecodedBytesReencode := by
  unfold Obligations.DecodedBytesReencode
  exact fun bs i rest h => wellFormed_and_eq_encode_of_decode h

/-- Settles O3: a specifier has 1 to 6 bytes, and a Format line at most six of them. -/
theorem encodingHasTheRuleLength : Obligations.EncodingHasTheRuleLength := by
  unfold Obligations.EncodingHasTheRuleLength
  exact fun i _ => ⟨encode_length i, i.length_le⟩

/-- Settles O4: the decoder computes each reading. -/
theorem workedEncodingsDecode : Obligations.WorkedEncodingsDecode := by
  unfold Obligations.WorkedEncodingsDecode
  exact ⟨rfl, rfl, rfl, rfl, rfl⟩

end Sys2Proof
end

section
/-! SUPPORT. The step: what is fetched is what is executed, and what every step keeps (spec/30_encoding.md R65,
spec/20_memory.md R37, spec/10_state.md R19). -/

namespace Sys2Proof.Machine

/-- The bytes of an instruction that stand fetchable at the PC are the first ones fetched. -/
theorem fetchBytes_of_code {s : State} {i : Instr} {k : Nat} (hk : k ≤ i.length) (h : ∀ j < k, codeByteAt s i j) :
    fetchBytes s maxInstrBytes s.pc =
      (encode i).take k ++ fetchBytes s (maxInstrBytes - k) (s.pc + BitVec.ofNat 32 k) := by
  have htake : (List.range k).map (byteAt s s.pc) = (encode i).take k := by
    apply List.ext_getElem?
    intro j
    by_cases hj : j < k
    · rw [List.getElem?_map, List.getElem?_range hj, List.getElem?_take_of_lt hj, (h j hj).1, Option.map_some]
    · rw [List.getElem?_eq_none (by simpa using hj), List.getElem?_eq_none (by rw [List.length_take]; omega)]
  rw [fetchBytes_append (hk.trans i.length_le.2) fun j hj => (h j hj).2, ← htake]

theorem nextInstr_of_decode {s : State} {i : Instr} {rest : List Byte} (hf : s.fpd = false)
    (h : decode (fetchBytes s maxInstrBytes s.pc) = .ok (i, rest)) : nextInstr s = .ok i := by
  simp [nextInstr, hf, h]

/-- A fetch that ends inside the instruction stops at the first byte not fetched. -/
theorem nextInstr_of_truncated {s : State} (hf : s.fpd = false)
    (h : decode (fetchBytes s maxInstrBytes s.pc) = .error .truncated) :
    nextInstr s =
      raise s (.accessViolation (s.pc + BitVec.ofNat 32 (fetchBytes s maxInstrBytes s.pc).length) .fetch) := by
  simp [nextInstr, hf, h]

theorem nextInstr_of_fpd {s : State} (h : s.fpd = true) : nextInstr s = .error (.refusal .firstPartDone) := by
  simp [nextInstr, h, refuse]

theorem step_of_nextInstr_exception {s : State} {e : Exception} {m : Memory}
    (h : nextInstr s = .error (.exception e m)) : step s = takeException s.pc e m := by
  simp [step, h]

theorem takeException_ne_next {p : Word} {e : Exception} {m : Memory} {t : State} :
    takeException p e m ≠ .next t := by
  cases e <;> simp [takeException]

/-- A step that gives a next state executed an instruction. -/
theorem step_next {s t : State} (h : step s = .next t) : ∃ i, exec i s = .next t := by
  rcases hn : nextInstr s with (⟨e, m⟩ | r) | i
  · rw [step_of_nextInstr_exception hn] at h
    exact absurd h takeException_ne_next
  · rw [step_of_nextInstr_refusal hn] at h
    simp at h
  · exact ⟨i, by rwa [step_of_nextInstr hn] at h⟩

/-- A step that faults did so in the fetch or in the instruction. -/
theorem step_fault {s : State} {f : Fault} (h : step s = .fault f) :
    (∃ e m, nextInstr s = .error (.exception e m) ∧ takeException s.pc e m = .fault f) ∨
      ∃ i, nextInstr s = .ok i ∧ exec i s = .fault f := by
  rcases hn : nextInstr s with (⟨e, m⟩ | r) | i
  · rw [step_of_nextInstr_exception hn] at h
    exact .inl ⟨e, m, rfl, h⟩
  · rw [step_of_nextInstr_refusal hn] at h
    simp at h
  · rw [step_of_nextInstr hn] at h
    exact .inr ⟨i, rfl, h⟩

/-- No instruction sets first part done: the operands leave the PSL, the body all but its condition codes (R19, R20). -/
theorem exec_next_fpd {i : Instr} {s t : State} (h : exec i s = .next t) : t.fpd = false := by
  obtain ⟨hf, vs, u, hops, hbody⟩ := exec_next h
  have hpsl : t.psl.getLsbD 27 = u.psl.getLsbD 27 := (bodyOf_frame hbody).psl 27 (by decide)
  rw [(evalOperands_ok hops).1.psl] at hpsl
  exact hpsl.trans hf

theorem exec_next_wf {i : Instr} {s t : State} (hs : s.mem.wf) (h : exec i s = .next t) : t.mem.wf := by
  obtain ⟨-, vs, u, hops, hbody⟩ := exec_next h
  refine bodyOf_wf ?_ hbody
  rw [(evalOperands_ok hops).1.mem]
  exact hs

/-- Settles O10: a step that goes on executed an instruction, whose body keeps memory canonical and writes of the PSL
the condition codes only. -/
theorem stepKeepsInvariant : Obligations.StepKeepsInvariant := by
  unfold Obligations.StepKeepsInvariant
  intro s t hinv h
  obtain ⟨i, hi⟩ := step_next h
  exact ⟨exec_next_wf hinv.1 hi, exec_next_fpd hi⟩

/-- Settles O5: the instruction decoded is the one the fetch gives. -/
theorem stepRunsDecodedInstruction : Obligations.StepRunsDecodedInstruction := by
  unfold Obligations.StepRunsDecodedInstruction
  exact fun s i rest hf h => step_of_nextInstr (nextInstr_of_decode hf h)

/-- Settles O6: the bytes fetched begin with the encoding, which decodes whatever follows it. -/
theorem codeInMemoryIsExecuted : Obligations.CodeInMemoryIsExecuted := by
  unfold Obligations.CodeInMemoryIsExecuted
  intro s i hf hw hcode
  have hfetch := fetchBytes_of_code le_rfl hcode
  rw [← encode_length, List.take_length] at hfetch
  exact step_of_nextInstr (nextInstr_of_decode hf (hfetch ▸ decode_encode hw _))

/-- Settles O7: what is fetched is the part of the encoding before the byte, and no instruction ends there. -/
theorem fetchOfInaccessibleByteFaults : Obligations.FetchOfInaccessibleByteFaults := by
  unfold Obligations.FetchOfInaccessibleByteFaults
  intro s i k hf hw hk hcode hdenied
  have hfetch : fetchBytes s maxInstrBytes s.pc = (encode i).take k := by
    rw [fetchBytes_of_code hk.le hcode, fetchBytes_stop _ hdenied, List.append_nil]
  have hlen : ((encode i).take k).length = k := by
    rw [List.length_take, encode_length]
    omega
  have hnext := nextInstr_of_truncated hf (hfetch ▸ decode_take_encode hw hk)
  rw [hfetch, hlen] at hnext
  exact step_of_nextInstr_exception hnext

/-- Settles O9: the fetch, every instruction and the run each look at first part done before anything else. -/
theorem firstPartDoneRefused : Obligations.FirstPartDoneRefused := by
  unfold Obligations.FirstPartDoneRefused
  exact fun s h =>
    ⟨step_of_nextInstr_refusal (nextInstr_of_fpd h), fun _ => exec_of_fpd h, fun n => run_of_fpd n h⟩

/-- Settles O11: the empty memory is canonical, and the PSL is 0. -/
theorem resetHasInvariant : Obligations.ResetHasInvariant := by
  unfold Obligations.ResetHasInvariant
  exact ⟨Memory.wf_nil, rfl⟩

end Sys2Proof.Machine
end

section
/-! SUPPORT. Laws of every instruction: that it completes, its frame, the faults it raises (spec/10_state.md,
spec/40_character_string.md section 1, spec/60_exceptions.md section 1). -/

namespace Sys2Proof.Machine

/-! ### Completing -/

theorem exec_of_legal {i : Instr} {s : State} (hl : i.legal = true) (hf : s.fpd = false) (hd : s.platform.denied = [])
    (hc : s.platform.codeRange = []) : ∃ t, exec i s = .next t := by
  obtain ⟨⟨vs, u⟩, hops⟩ := evalOperands_of_legal (s := s.advance 1) hd (List.all_eq_true.mp hl)
  have hp : u.platform = s.platform := (evalOperands_ok hops).1.platform
  obtain ⟨t, ht⟩ := bodyOf_of_nothing_denied (evalOperands_length hops) (hp ▸ hd) (hp ▸ hc)
  exact ⟨t, by rw [exec_of_operands hf hops, ht, conclude_ok]⟩

/-- Settles O12: legal operands evaluate, and every body completes, where nothing is denied. -/
theorem legalInstructionsComplete : Obligations.LegalInstructionsComplete := by
  unfold Obligations.LegalInstructionsComplete
  exact fun i s hl hf hd hc => exec_of_legal hl hf hd hc

/-! ### The frame -/

/-- Settles O13: each specifier moves the PC past itself, and no body moves it. -/
theorem pcMovesPastInstruction : Obligations.PcMovesPastInstruction := by
  unfold Obligations.PcMovesPastInstruction
  intro i s t hw h
  obtain ⟨-, vs, u, hops, hbody⟩ := exec_next h
  rw [(bodyOf_frame hbody).pc, (evalOperands_ok hops).2 (Instr.wellFormed_iff.mp hw), State.advance_pc, addr_add,
    Instr.length]

/-- What the operands and then the body leave unchanged. -/
theorem exec_next_unchangedBut {i : Instr} {s t : State} (h : exec i s = .next t) :
    unchangedBut s t (i.resultRegs ++ i.specifierWrites) := by
  obtain ⟨-, vs, u, hops, hbody⟩ := exec_next h
  have hoperands := (evalOperands_ok hops).1
  have hresult := bodyOf_frame hbody
  refine ⟨fun r hpc hr => ?_, fun j hj => ?_, hresult.platform.trans hoperands.platform⟩
  · rw [List.mem_append, not_or] at hr
    rw [hresult.regs r hpc hr.1, hoperands.regs r hpc hr.2, State.reg_advance s 1 hpc]
  · rw [hresult.psl j hj, hoperands.psl, State.advance_psl]

theorem exec_next_mem {i : Instr} {s t : State} (h : exec i s = .next t)
    (hi : ∀ a b c d e f, i ≠ .movtuc a b c d e f) : t.mem = s.mem := by
  obtain ⟨-, vs, u, hops, hbody⟩ := exec_next h
  exact (bodyOf_mem hbody hi).trans (evalOperands_ok hops).1.mem

/-- Settles O14: the operands write the registers of their modes, the body its result registers and condition codes. -/
theorem instructionFrame : Obligations.InstructionFrame := by
  unfold Obligations.InstructionFrame
  exact fun i s t h => ⟨exec_next_unchangedBut h, fun hi x => by rw [exec_next_mem h hi]⟩

/-- The bytes a MOVTUC may change are those of its destination extent, drawn or stored (R82, R83). -/
theorem movtucBody_mem {n m : Word16} {a tb d : Word} {e : Byte} {u t : State} (h : movtucBody n a e tb m d u = .ok t)
    {x : Nat} (hx : ∀ i < m.toNat, x ≠ (d + BitVec.ofNat 32 i).toNat) : t.mem.get x = u.mem.get x := by
  rcases movtucBody_ok h with ⟨-, rfl⟩ | ⟨-, r, hr, rfl⟩
  · rw [drawnTranslateResult_mem]
    exact drawBytes_mem u d m.toNat x hx
  · obtain ⟨k, -, hk, -, -, -, -, hmem⟩ := (translateString_ok hr).count
    rw [State.setCodes_mem, setTranslateResult_mem]
    exact hmem x fun i hi => hx i (by omega)

/-- The operands of an instruction change no byte of memory (R62). -/
theorem operandsGive_mem {i : Instr} {s u : State} {vs : List Word} (h : operandsGive i s vs u) : u.mem = s.mem :=
  (evalOperands_ok h.2).1.mem

/-- Settles O15: the operands change no memory, the body nothing outside the destination. -/
theorem movtucMemoryFrame : Obligations.MovtucMemoryFrame := by
  unfold Obligations.MovtucMemoryFrame
  intro srclen srcaddr esc tbladdr dstlen dstaddr s t u n a e tb m d ho h x hx
  rw [movtucBody_mem (bodyOf_of_exec_next ho h) hx, operandsGive_mem ho]

/-- Codes that are the scans' test of the R0 left beside them (R16). -/
theorem setScanResult_codes (u : State) (left : Nat) (next : Word) :
    (setScanResult u left next).codes = scanCodes ((setScanResult u left next).reg .r0) := by
  rw [setScanResult_reg_r0, setScanResult, State.codes_setCodes]

theorem setTableResult_codes {u : State} (tb : Word) (h : u.codes = scanCodes (u.reg .r0)) :
    (setTableResult u tb).codes = scanCodes ((setTableResult u tb).reg .r0) := by
  rw [setTableResult_reg u tb (by decide) (by decide), ← h, State.codes, State.codes, setTableResult_psl]

/-- Settles O18: each of the three ends in the scan's result, the table results leaving its codes and R0. -/
theorem scanConditionCodes : Obligations.ScanConditionCodes := by
  unfold Obligations.ScanConditionCodes
  intro i s t h hi
  obtain ⟨-, vs, u, hops, hbody⟩ := exec_next h
  have hlen := evalOperands_length hops
  rcases hi with ⟨len, addr, tbladdr, mask, rfl⟩ | ⟨len, addr, tbladdr, mask, rfl⟩ | ⟨char, len, addr, rfl⟩
  · obtain ⟨n, a, tb, mk, rfl⟩ := list_of_four hlen
    obtain ⟨left, -, rfl⟩ := scancBody_ok hbody
    exact setTableResult_codes tb (setScanResult_codes u left _)
  · obtain ⟨n, a, tb, mk, rfl⟩ := list_of_four hlen
    obtain ⟨left, -, rfl⟩ := spancBody_ok hbody
    exact setTableResult_codes tb (setScanResult_codes u left _)
  · obtain ⟨c, n, a, rfl⟩ := list_of_three hlen
    obtain ⟨left, -, rfl⟩ := skpcBody_ok hbody
    exact setScanResult_codes u left _

/-! ### Faults -/

/-- Every fault of an instruction: an access that is not allowed, only a MOVTUC having stored anything before it, or a
reserved addressing mode; either is recorded with the PC of the opcode (R90, R162, R163). -/
theorem exec_fault_cases {i : Instr} {s : State} {f : Fault} (h : exec i s = .fault f) :
    (∃ a k m, f = .accessViolation s.pc a k m ∧ s.platform.accessible a k = false ∧
      ((∀ x1 x2 x3 x4 x5 x6, i ≠ .movtuc x1 x2 x3 x4 x5 x6) → m = s.mem)) ∨
    f = .reservedAddressingMode s.pc := by
  obtain ⟨e, m, htake, hops | ⟨vs, u, hops, hbody⟩⟩ := exec_fault h
  · cases evalOperands_error hops with
    | read a ha => exact .inl ⟨a, .read, s.mem, (Host.Outcome.fault.inj htake).symm, ha, fun _ => rfl⟩
    | reserved => exact .inr (Host.Outcome.fault.inj htake).symm
  · have hframe := (evalOperands_ok hops).1
    obtain ⟨a, k, rfl, ha⟩ := bodyOf_error_access hbody
    refine .inl ⟨a, k, m, (Host.Outcome.fault.inj htake).symm, by rwa [hframe.platform] at ha, fun hi => ?_⟩
    exact (bodyOf_error_read hbody hi).1.trans hframe.mem

/-- Settles O16: operands and bodies stop in no other exception. -/
theorem instructionsRaiseOnlyAccessAndAddressing : Obligations.InstructionsRaiseOnlyAccessAndAddressing := by
  unfold Obligations.InstructionsRaiseOnlyAccessAndAddressing
  intro i s f h
  rcases exec_fault_cases h with ⟨a, k, m, rfl, -⟩ | rfl
  · exact .inl ⟨a, k, m, rfl⟩
  · exact .inr rfl

/-- Settles O17: a fetch that faults names the byte it stopped at, an instruction the byte it could not access. -/
theorem accessViolationNamesDeniedByte : Obligations.AccessViolationNamesDeniedByte := by
  unfold Obligations.AccessViolationNamesDeniedByte
  intro s p a k m h
  rcases step_fault h with ⟨e, m', hn, htake⟩ | ⟨i, hn, hi⟩
  · rcases nextInstr_error hn with he | ⟨b, he⟩ | ⟨x, he, hx⟩
    · simp at he
    · simp at he
    · obtain ⟨rfl, rfl⟩ : e = .accessViolation x .fetch ∧ m' = s.mem := by simpa using he
      obtain ⟨rfl, rfl, rfl, rfl⟩ : s.pc = p ∧ x = a ∧ .fetch = k ∧ s.mem = m := by
        simpa [takeException] using htake
      exact ⟨rfl, hx, fun _ => rfl⟩
  · rcases exec_fault_cases hi with ⟨x, q, m', hf, hx, hm⟩ | hf
    · obtain ⟨rfl, rfl, rfl, rfl⟩ : p = s.pc ∧ a = x ∧ k = q ∧ m = m' := by simpa using hf
      exact ⟨rfl, hx, fun hno => hm (hno i hn)⟩
    · simp at hf

/-! ### Operands that stop -/

/-- An operand that stops after those before it evaluate stops the instruction (R62, R167). -/
theorem exec_of_operand_error {i : Instr} {s v : State} {pre post : List (OperandKind × Specifier)}
    {o : OperandKind × Specifier} {vs : List Word} {e : Stop} (hi : i.operands = pre ++ o :: post) (hf : s.fpd = false)
    (hpre : evalOperands pre (s.advance 1) = .ok (vs, v)) (he : evalOperand o.1 o.2 v = .error e) :
    exec i s = conclude s.pc (.error e) :=
  exec_of_operands_error hf (by rw [hi]; exact evalOperands_append_error hpre he)

/-- Settles O20: a reserved specifier raises its fault in whatever state the operands before it leave. -/
theorem reservedSpecifierFaults : Obligations.ReservedSpecifierFaults := by
  unfold Obligations.ReservedSpecifierFaults
  intro i s v pre post o vs hi hf hpre hr
  rw [exec_of_operand_error hi hf hpre (reserved_error hr)]
  rfl

/-- Settles O21: by the form; each is refused before it reads anything. -/
theorem unpredictableSpecifierRefused : Obligations.UnpredictableSpecifierRefused := by
  unfold Obligations.UnpredictableSpecifierRefused
  rintro i s v pre post ⟨k, sp⟩ vs hi hf hpre hr
  refine ⟨fun m hm hsp => ?_, fun x m hm hsp => ?_, fun x d hsp => ?_⟩
  · have hpc : ∀ m ∈ [Mode.register .pc, .deferred .pc, .autodec .pc], m.unpredictablePc = true := by decide
    rw [exec_of_operand_error hi hf hpre (unpredictablePc_error hr (hpc m hm) hsp), conclude_refusal]
  · obtain rfl : sp = .indexed x m := hsp
    have hx : m.modifies = some x := by
      simp only [List.mem_cons, List.not_mem_nil, or_false] at hm
      rcases hm with rfl | rfl | rfl <;> rfl
    rw [exec_of_operand_error hi hf hpre (indexRegister_error hr hx), conclude_refusal]
  · obtain rfl : sp = .indexed x (.immediate d) := hsp
    rw [exec_of_operand_error hi hf hpre (indexedImmediate_error hr), conclude_refusal]

/-- Settles O22: what the instruction concludes with depends on the operands up to the one that stops. -/
theorem firstStoppingOperandDecides : Obligations.FirstStoppingOperandDecides := by
  unfold Obligations.FirstStoppingOperandDecides
  intro i j s v pre post post' o vs e hi hj hf hpre he
  have hstop := exec_of_operand_error hi hf hpre he
  exact ⟨hstop.trans (exec_of_operand_error hj hf hpre he).symm, hstop⟩

end Sys2Proof.Machine
end

section
/-! SUPPORT. Values in memory: what a store leaves, what a read delivers, and that the canonical form is one list per
memory (spec/20_memory.md R30, R31, R40). -/

namespace Sys2Proof.Machine

/-! ### Reads -/

/-- A read of 1, 2 or 4 bytes delivers them least significant first (R31). -/
theorem readLE_bytes (s : State) (a : Word) (sz : OpSize) : s.mem.readLE a sz.bytes = valueAt s a sz := by
  cases sz with
  | byte => simp only [valueAt, byteAt, OpSize.bytes, Memory.readLE_one, addr_zero]
  | word => exact Memory.readLE_two s.mem a
  | long => exact Memory.readLE_four s.mem a

theorem memRead_readable {s : State} {a : Word} {sz : OpSize} (h : ∀ i < sz.bytes, readableAt s a i) :
    memRead s a sz.bytes = .ok (valueAt s a sz) :=
  memRead_ok_iff.mpr ⟨h, readLE_bytes s a sz⟩

theorem checkAccess_firstUnreadable {s : State} {a : Word} {n j : Nat} (h : firstUnreadable s a n j) :
    checkAccess s .read a n = raise s (.accessViolation (a + BitVec.ofNat 32 j) .read) := by
  obtain ⟨hj, hbelow, hdenied⟩ := h
  exact checkAccess_first_denied hj hbelow hdenied

theorem memRead_firstUnreadable {s : State} {a : Word} {n j : Nat} (h : firstUnreadable s a n j) :
    memRead s a n = raise s (.accessViolation (a + BitVec.ofNat 32 j) .read) := by
  obtain ⟨hj, hbelow, hdenied⟩ := h
  exact memRead_first_denied hj hbelow hdenied

/-- Settles O50: a read checks every byte first, and then delivers them. -/
theorem longwordsAreLittleEndian : Obligations.LongwordsAreLittleEndian := by
  unfold Obligations.LongwordsAreLittleEndian
  exact fun s a => ⟨fun h => memRead_readable (sz := .long) h, fun n j h => memRead_firstUnreadable h⟩

/-! ### Stores -/

/-- Reading back as many bytes as were stored gives the value's low bits (R31, R40). -/
theorem readLE_writeLE (m : Memory) (a v : Word) {n : Nat} (hn : n ≤ 4) :
    ((m.writeLE a v n).readLE a n).toNat = v.toNat % 2 ^ (8 * n) := by
  have hbits : (m.writeLE a v n).readLE a n = BitVec.ofNat 32 (v.toNat % 2 ^ (8 * n)) := by
    apply BitVec.eq_of_getLsbD_eq
    intro i hi
    rw [Memory.getLsbD_readLE _ _ hi, BitVec.getLsbD_ofNat, decide_eq_true hi, Bool.true_and, Nat.testBit_mod_two_pow]
    by_cases hin : i < 8 * n
    · rw [Memory.get_writeLE _ _ _ (by omega) (by omega : i / 8 < n), BitVec.getLsbD_extractLsb',
        decide_eq_true (Nat.mod_lt i (by decide)), Bool.true_and, Nat.div_add_mod, BitVec.getLsbD]
    · simp [hin]
  rw [hbits, BitVec.toNat_ofNat, Nat.mod_eq_of_lt ((Nat.mod_le _ _).trans_lt v.isLt)]

/-- Settles O48: a store leaves the value's bytes at its addresses, and those are read back. -/
theorem storeThenLoadReturnsValue : Obligations.StoreThenLoadReturnsValue := by
  unfold Obligations.StoreThenLoadReturnsValue
  intro s t a v n hn h
  obtain ⟨-, -, rfl⟩ := memWrite_ok_iff.mp h
  exact ⟨fun i hi => Memory.get_writeLE s.mem a v (by omega) hi, fun x hx => Memory.get_writeLE_ne s.mem a v hx,
    fun hread => ⟨_, memRead_ok_iff.mpr ⟨hread, rfl⟩, readLE_writeLE s.mem a v hn⟩⟩

/-- Settles O49: the access check comes before the store, and names the first byte that fails it. -/
theorem failedStoreWritesNothing : Obligations.FailedStoreWritesNothing := by
  unfold Obligations.FailedStoreWritesNothing
  intro s a v n i hi hdenied hbelow
  simp only [memWrite, checkAccess_first_denied hi hbelow hdenied]

/-! ### The canonical form -/

theorem Memory.get_eq_unlistedByte {m : Memory} {a : Nat} (h : ∀ c ∈ m, c.1 ≠ a) : m.get a = unlistedByte := by
  induction m with
  | nil => rfl
  | cons c m ih =>
    rw [Memory.get, if_neg (h c (by simp))]
    exact ih fun d hd => h d (by simp [hd])

/-- The first cell of a canonical memory is the lowest one. -/
theorem Memory.head_lt {c : Host.Cell} {m : Memory} (h : Memory.wf (c :: m)) : ∀ d ∈ m, c.1 < d.1 := fun d hd =>
  (List.pairwise_cons.mp h.1).1 d.1 (List.mem_map_of_mem hd)

theorem Memory.wf_tail {c : Host.Cell} {m : Memory} (h : Memory.wf (c :: m)) : m.wf :=
  ⟨(List.pairwise_cons.mp h.1).2, fun d hd => h.2 d (by simp [hd])⟩

theorem Memory.get_head (c : Host.Cell) (m : Memory) : Memory.get (c :: m) c.1 = c.2 := if_pos rfl

/-- Below its lowest cell a canonical memory lists nothing. -/
theorem Memory.get_below_head {c : Host.Cell} {m : Memory} (h : Memory.wf (c :: m)) {a : Nat} (ha : a < c.1) :
    Memory.get (c :: m) a = unlistedByte := by
  refine Memory.get_eq_unlistedByte fun d hd => ?_
  rcases List.mem_cons.mp hd with rfl | hd
  · omega
  · have := Memory.head_lt h d hd
    omega

/-- A canonical memory that lists a cell reads otherwise at its address than where nothing is listed. -/
theorem Memory.get_head_ne_unlistedByte {c : Host.Cell} {m : Memory} (h : Memory.wf (c :: m)) :
    Memory.get (c :: m) c.1 ≠ unlistedByte := by
  rw [Memory.get_head]
  exact (h.2 c (by simp)).1

/-- Canonical memories that read the same begin with the same cell: a lower one would be seen. -/
theorem Memory.head_le_of_get_eq {c d : Host.Cell} {m m' : Memory} (h : Memory.wf (c :: m)) (h' : Memory.wf (d :: m'))
    (heq : ∀ x, Memory.get (c :: m) x = Memory.get (d :: m') x) : d.1 ≤ c.1 := by
  by_contra hlt
  exact Memory.get_head_ne_unlistedByte h ((heq c.1).trans (Memory.get_below_head h' (by omega)))

theorem Memory.eq_of_get_eq {m m' : Memory} (h : m.wf) (h' : m'.wf) (heq : ∀ x, m.get x = m'.get x) : m = m' := by
  induction m generalizing m' with
  | nil =>
    cases m' with
    | nil => rfl
    | cons d m' => exact absurd (heq d.1).symm (Memory.get_head_ne_unlistedByte h')
  | cons c m ih =>
    cases m' with
    | nil => exact absurd (heq c.1) (Memory.get_head_ne_unlistedByte h)
    | cons d m' =>
      have hfst : c.1 = d.1 :=
        le_antisymm (Memory.head_le_of_get_eq h' h fun x => (heq x).symm) (Memory.head_le_of_get_eq h h' heq)
      have hsnd : c.2 = d.2 := by rw [← Memory.get_head c m, heq, hfst, Memory.get_head]
      obtain rfl : c = d := Prod.ext hfst hsnd
      congr 1
      refine ih (Memory.wf_tail h) (Memory.wf_tail h') fun x => ?_
      by_cases hx : c.1 = x
      · rw [Memory.get_eq_unlistedByte fun e he => by have := Memory.head_lt h e he; omega,
          Memory.get_eq_unlistedByte fun e he => by have := Memory.head_lt h' e he; omega]
      · simpa only [Memory.get, if_neg hx] using heq x

/-- Settles O51, by induction on the two lists: their lowest cells are the same. -/
theorem canonicalMemoriesAreEqual : Obligations.CanonicalMemoriesAreEqual := by
  unfold Obligations.CanonicalMemoriesAreEqual
  exact fun m m' h h' heq => Memory.eq_of_get_eq h h' heq

end Sys2Proof.Machine
end

section
/-! SUPPORT. Operand specifiers: the address each mode gives, the values operands deliver, and the order of evaluation
(spec/30_encoding.md R55 to R62). -/

namespace Sys2Proof.Machine

/-! ### Registers and the PC past a specifier -/

theorem State.advance_advance (s : State) (a b : Nat) : (s.advance a).advance b = s.advance (a + b) := by
  rw [State.advance, State.advance_pc, addr_add]
  rfl

theorem State.advance_setReg (s : State) {r : Reg} (hr : r ≠ .pc) (v : Word) (n : Nat) :
    (s.setReg r v).advance n = (s.advance n).setReg r v := by
  cases r with
  | pc => exact absurd rfl hr
  | _ => rfl

@[simp] theorem State.setReg_setReg_same (s : State) (r : Reg) (v w : Word) :
    (s.setReg r v).setReg r w = s.setReg r w := by cases r <;> rfl

/-- The PC past a specifier byte and `n` bytes after it, less those bytes, is the address of the first of them. -/
theorem advance_pc_sub (s : State) (n : Nat) : (s.advance (1 + n)).pc - BitVec.ofNat 32 n = s.pc + 1 := by
  rw [State.advance_pc, ← addr_add, BitVec.add_sub_cancel]
  rfl

/-! ### The modes -/

/-- A specifier not under index mode is its mode, the PC past it (R54). -/
theorem evalSpecifier_direct (sz : OpSize) (m : Mode) (s : State) :
    evalSpecifier sz (.direct m) s = evalMode sz m (s.advance (m.length sz)) := rfl

theorem evalSpecifier_autoinc (sz : OpSize) {r : Reg} (s : State) (hr : r ≠ .pc) :
    evalSpecifier sz (.direct (.autoinc r)) s =
      .ok (.address (s.reg r), (s.advance 1).setReg r (s.reg r + BitVec.ofNat 32 sz.bytes)) := by
  simp only [evalSpecifier_direct, evalMode, Mode.length, State.reg_advance s 1 hr, sizeWord]

/-- Settles O23: none of these modes reads memory. -/
theorem registerModesGiveAddresses : Obligations.RegisterModesGiveAddresses := by
  unfold Obligations.RegisterModesGiveAddresses
  intro s sz r d hr
  refine ⟨?_, ?_, evalSpecifier_autoinc sz s hr, ?_⟩ <;>
    simp only [evalSpecifier_direct, evalMode, Mode.length, if_neg hr, State.reg_advance s _ hr, sizeWord]

/-- Autoincrement deferred with a pointer that may be read (R55). -/
theorem evalSpecifier_autoincDeferred (sz : OpSize) {r : Reg} {s : State} (hr : r ≠ .pc)
    (h : ∀ i < 4, readableAt s (s.reg r) i) :
    evalSpecifier sz (.direct (.autoincDeferred r)) s =
      .ok (.address (valueAt s (s.reg r) .long), (s.advance 1).setReg r (s.reg r + 4)) := by
  have hp : memRead (s.advance 1) (s.reg r) 4 = .ok (valueAt s (s.reg r) .long) := memRead_readable (sz := .long) h
  simp only [evalSpecifier_direct, evalMode, Mode.length, State.reg_advance s 1 hr, hp, Res.ok_bind]

theorem evalSpecifier_autoincDeferred_denied (sz : OpSize) {r : Reg} {s : State} {j : Nat} (hr : r ≠ .pc)
    (h : firstUnreadable s (s.reg r) 4 j) :
    evalSpecifier sz (.direct (.autoincDeferred r)) s =
      raise s (.accessViolation (s.reg r + BitVec.ofNat 32 j) .read) := by
  have hp := memRead_firstUnreadable (s := s.advance 1) h
  simp only [evalSpecifier_direct, evalMode, Mode.length, State.reg_advance s 1 hr, hp, raise, Res.error_bind,
    State.advance_mem]

/-- Displacement deferred, of any register, with a pointer that may be read: the pointer stands at the register, the PC
being past the specifier, plus the displacement (R55, R58). -/
theorem evalSpecifier_dispDeferred (sz : OpSize) {r : Reg} {d : Displacement} {s : State} {a : Word}
    (ha : (s.advance (1 + d.bytes)).reg r + d.sext = a) (h : ∀ i < 4, readableAt s a i) :
    evalSpecifier sz (.direct (.dispDeferred r d)) s =
      .ok (.address (valueAt s a .long), s.advance (1 + d.bytes)) := by
  have hp : memRead (s.advance (1 + d.bytes)) a 4 = .ok (valueAt s a .long) := memRead_readable (sz := .long) h
  simp only [evalSpecifier_direct, evalMode, Mode.length, ha, hp, Res.ok_bind]

theorem evalSpecifier_dispDeferred_denied (sz : OpSize) {r : Reg} {d : Displacement} {s : State} {a : Word} {j : Nat}
    (ha : (s.advance (1 + d.bytes)).reg r + d.sext = a) (h : firstUnreadable s a 4 j) :
    evalSpecifier sz (.direct (.dispDeferred r d)) s = raise s (.accessViolation (a + BitVec.ofNat 32 j) .read) := by
  have hp := memRead_firstUnreadable (s := s.advance (1 + d.bytes)) h
  simp only [evalSpecifier_direct, evalMode, Mode.length, ha, hp, raise, Res.error_bind, State.advance_mem]

/-- Settles O24: the pointer's read checks its four bytes and delivers them; the register is added to, or not. -/
theorem deferredModesReadThePointer : Obligations.DeferredModesReadThePointer := by
  unfold Obligations.DeferredModesReadThePointer
  intro s sz r d hr
  have hbase : (s.advance (1 + d.bytes)).reg r + d.sext = s.reg r + d.sext := by rw [State.reg_advance s _ hr]
  exact ⟨fun h => evalSpecifier_autoincDeferred sz hr h, fun j h => evalSpecifier_autoincDeferred_denied sz hr h,
    fun h => evalSpecifier_dispDeferred sz hbase h, fun j h => evalSpecifier_dispDeferred_denied sz hbase h⟩

/-- An absolute specifier read-checks the address bytes after its specifier byte (R58). -/
theorem evalSpecifier_absolute (sz : OpSize) (a : Word) (s : State) :
    evalSpecifier sz (.direct (.absolute a)) s =
      (checkAccess (s.advance 5) .read (s.pc + 1) 4 >>= fun _ => .ok (.address a, s.advance 5)) := by
  have hpc : (s.advance 5).pc - 4 = s.pc + 1 := advance_pc_sub s 4
  simp only [evalSpecifier_direct, evalMode, Mode.length, hpc]

theorem evalSpecifier_immediate (sz : OpSize) (v : Word) (s : State) :
    evalSpecifier sz (.direct (.immediate v)) s = .ok (.immediate (s.pc + 1) v, s.advance (1 + sz.bytes)) := by
  simp only [evalSpecifier_direct, evalMode, Mode.length, sizeWord, advance_pc_sub]

/-- Settles O25: the modes of the PC take it past the whole specifier. -/
theorem pcModesGiveAddresses : Obligations.PcModesGiveAddresses := by
  unfold Obligations.PcModesGiveAddresses
  refine ⟨fun s sz d a => ⟨rfl, fun h => evalSpecifier_dispDeferred sz rfl h,
    fun j h => evalSpecifier_dispDeferred_denied sz rfl h, fun h => ?_, fun j h => ?_⟩,
    fun s t sp ea h => addressOperand_of_address h, fun s v => ?_⟩
  · rw [evalSpecifier_absolute, (checkAccess_ok_iff (s.advance 5) .read _ 4).mpr h, Res.ok_bind]
  · rw [evalSpecifier_absolute, checkAccess_firstUnreadable (s := s.advance 5) h]
    rfl
  · simp only [addressOperand, Specifier.noAddress, Mode.reservedBase, Bool.false_eq_true, if_false,
      evalSpecifier_immediate, Res.ok_bind, Place.baseAddress, OpSize.bytes]

/-! ### Index mode -/

/-- A base that is neither reserved nor UNPREDICTABLE passes the checks of index mode (R59). -/
theorem checkIndexed_ok {x : Reg} {m : Mode} (s : State) (hx : x ≠ .pc) (hr : m.reservedBase = false)
    (hu : m.unpredictablePc = false) (hm : m.modifies ≠ some x) (hi : ∀ d, m ≠ .immediate d) :
    checkIndexed x m s = .ok () := by
  simp only [checkIndexed, hx, hr, hu, hm, Bool.false_eq_true, or_self, if_false]
  cases m with
  | immediate d => exact absurd rfl (hi d)
  | _ => rfl

/-- Settles O26: the base does not modify the index register, so it is read as it was. -/
theorem indexModeAddsScaledIndex : Obligations.IndexModeAddsScaledIndex := by
  unfold Obligations.IndexModeAddsScaledIndex
  intro s t sz x m ea hx hr hu hm hi h
  have hreg : t.reg x = s.reg x := by
    rw [(evalMode_ok h).1.regs x hx (by simpa using hm), State.reg_advance s _ hx]
  simp only [evalSpecifier, Specifier.length, checkIndexed_ok _ hx hr hu hm hi, h, Res.ok_bind, Place.baseAddress, hreg,
    sizeWord]

/-! ### Read operands -/

theorem valueAt_congr {s t : State} (h : t.mem = s.mem) (a : Word) (sz : OpSize) : valueAt t a sz = valueAt s a sz := by
  rw [← readLE_bytes, h, readLE_bytes]

theorem setWidth_setWidth_eq_lowBits_byte (v : Word) : (v.setWidth 8).setWidth 32 = lowBits v .byte :=
  congrArg (BitVec.setWidth 32) (BitVec.setWidth_eq_extractLsb' (x := v) (w := 8) (by decide))

theorem setWidth_setWidth_eq_lowBits_word (v : Word) : (v.setWidth 16).setWidth 32 = lowBits v .word :=
  congrArg (BitVec.setWidth 32) (BitVec.setWidth_eq_extractLsb' (x := v) (w := 16) (by decide))

/-- The value of a read operand is the low bits, as many as its size has, of what its specifier gives (R56). -/
theorem evalOperand_of_readOperand {k : OperandKind} (hk : k ≠ .ab) {sp : Specifier} {s t : State} {v : Word}
    (h : readOperand k.size sp s = .ok (v, t)) : evalOperand k sp s = .ok (lowBits v k.size, t) := by
  cases k with
  | rb =>
    simp only [OperandKind.size] at h
    simp only [evalOperand, h, Res.ok_bind, setWidth_setWidth_eq_lowBits_byte, OperandKind.size]
  | rw =>
    simp only [OperandKind.size] at h
    simp only [evalOperand, h, Res.ok_bind, setWidth_setWidth_eq_lowBits_word, OperandKind.size]
  | rl => exact h
  | ab => exact absurd rfl hk

theorem evalOperand_of_readOperand_error {k : OperandKind} (hk : k ≠ .ab) {sp : Specifier} {s : State} {e : Stop}
    (h : readOperand k.size sp s = .error e) : evalOperand k sp s = .error e := by
  cases k with
  | rb => exact Res.bind_eq_error.mpr (.inl h)
  | rw => exact Res.bind_eq_error.mpr (.inl h)
  | rl => exact h
  | ab => exact absurd rfl hk

/-- A value read from memory has no more bits than its size. -/
theorem lowBits_valueAt (s : State) (a : Word) (sz : OpSize) : lowBits (valueAt s a sz) sz = valueAt s a sz := by
  cases sz with
  | byte => exact (setWidth_setWidth_eq_lowBits_byte _).symm.trans (congrArg (BitVec.setWidth 32) (by simp))
  | word => exact (setWidth_setWidth_eq_lowBits_word _).symm.trans (congrArg (BitVec.setWidth 32) (by simp))
  | long => rfl

/-- A short literal fits in every size. -/
theorem lowBits_literal (l : BitVec 6) (sz : OpSize) : lowBits (l.setWidth 32) sz = l.setWidth 32 := by
  revert l
  cases sz <;> decide

theorem readOperand_literal (sz : OpSize) (l : BitVec 6) (s : State) :
    readOperand sz (.direct (.literal l)) s = .ok (l.setWidth 32, s.advance 1) := rfl

theorem readOperand_register (sz : OpSize) {r : Reg} (s : State) (hr : r ≠ .pc) :
    readOperand sz (.direct (.register r)) s = .ok (s.reg r, s.advance 1) := by
  simp only [readOperand, evalSpecifier_direct, evalMode, Mode.length, if_neg hr, State.reg_advance s 1 hr, Res.ok_bind]

/-- A read operand with an address delivers the bytes there (R56, R31). -/
theorem evalOperand_of_address {k : OperandKind} (hk : k ≠ .ab) {sp : Specifier} {s t : State} {ea : Word}
    (h : evalSpecifier k.size sp s = .ok (.address ea, t)) (hread : ∀ i < k.size.bytes, readableAt t ea i) :
    evalOperand k sp s = .ok (valueAt t ea k.size, t) := by
  rw [evalOperand_of_readOperand hk (readOperand_of_address h hread), readLE_bytes, lowBits_valueAt]

theorem readOperand_immediate (sz : OpSize) (v : Word) (s : State) :
    readOperand sz (.direct (.immediate v)) s =
      (checkAccess (s.advance (1 + sz.bytes)) .read (s.pc + 1) sz.bytes >>= fun _ =>
        .ok (v, s.advance (1 + sz.bytes))) := by
  simp only [readOperand, evalSpecifier_immediate, Res.ok_bind]

/-- Settles O27: by the form of the specifier; every read is checked first. -/
theorem readOperandsDeliverValues : Obligations.ReadOperandsDeliverValues := by
  unfold Obligations.ReadOperandsDeliverValues
  intro k hmem
  have hk : k ≠ .ab := by
    rintro rfl
    exact absurd hmem (by decide)
  refine ⟨fun s l => ?_, fun s r hr => evalOperand_of_readOperand hk (readOperand_register _ s hr),
    fun s t sp ea h => ⟨fun hread => evalOperand_of_address hk h hread, fun j hj => ?_⟩,
    fun s v => ⟨fun hread => ?_, fun j hj => ?_⟩⟩
  · rw [evalOperand_of_readOperand hk (readOperand_literal _ l s), lowBits_literal]
  · obtain ⟨hlt, hbelow, hdenied⟩ := hj
    exact evalOperand_of_readOperand_error hk (readOperand_first_denied h hlt hbelow hdenied)
  · refine evalOperand_of_readOperand hk ?_
    rw [readOperand_immediate, (checkAccess_ok_iff (s.advance _) .read _ _).mpr hread, Res.ok_bind]
  · refine evalOperand_of_readOperand_error hk ?_
    rw [readOperand_immediate, checkAccess_firstUnreadable (s := s.advance _) hj]
    rfl

/-! ### The order of evaluation -/

/-- Settles O28: a run evaluates in two parts; the second autoincrement starts from what the first leaves. -/
theorem specifiersEvaluateLeftToRight : Obligations.SpecifiersEvaluateLeftToRight := by
  unfold Obligations.SpecifiersEvaluateLeftToRight
  refine ⟨fun l l' s u vs => evalOperands_append_ok, fun s r hr hread => ?_⟩
  have hfirst : evalOperand .rw (.direct (.autoinc r)) s =
      .ok (valueAt s (s.reg r) .word, (s.advance 1).setReg r (s.reg r + 2)) := by
    rw [← valueAt_congr (t := (s.advance 1).setReg r (s.reg r + 2)) (by simp)]
    exact evalOperand_of_address (k := .rw) (by decide) (evalSpecifier_autoinc .word s hr) fun i hi => by
      simpa [readableAt] using hread i hi
  have hsecond : evalOperand .ab (.direct (.autoinc r)) ((s.advance 1).setReg r (s.reg r + 2)) =
      .ok (s.reg r + 2, (s.advance 2).setReg r (s.reg r + 3)) := by
    have h := addressOperand_of_address (evalSpecifier_autoinc .byte ((s.advance 1).setReg r (s.reg r + 2)) hr)
    rw [evalOperand, h, State.reg_setReg_same, State.advance_setReg _ hr, State.advance_advance,
      State.setReg_setReg_same, BitVec.add_assoc]
    rfl
  simp only [evalOperands, hfirst, hsecond, Res.ok_bind]

end Sys2Proof.Machine
end

section
/-! SUPPORT. SCANC, SPANC and SKPC on evaluated operands: where they stop and where they fault
(spec/40_character_string.md R84 to R89, spec/20_memory.md R35). -/

namespace Sys2Proof.Machine

/-- Once its operands are known, an instruction is its body (R62). -/
theorem exec_of_operandsGive {i : Instr} {s u : State} {vs : List Word} (h : operandsGive i s vs u) :
    exec i s = conclude s.pc (bodyOf i vs u) := exec_of_operands h.1 h.2

theorem State.setReg_setCodes (s : State) (k : Codes) (r : Reg) (v : Word) :
    (s.setCodes k).setReg r v = (s.setReg r v).setCodes k := by cases r <;> rfl

/-! ### The result -/

/-- What is left of a string of 16-bit length is zero, as a longword, exactly at its end. -/
theorem scanCodes_left {n k : Nat} (hn : n < 2 ^ 16) (hk : k ≤ n) :
    scanCodes (BitVec.ofNat 32 (n - k)) = { n := false, z := decide (k = n), v := false, c := false } := by
  have hz : (BitVec.ofNat 32 (n - k) == 0) = decide (k = n) := by
    rw [Bool.eq_iff_iff, beq_iff_eq, decide_eq_true_iff, ← BitVec.toNat_inj, BitVec.toNat_ofNat]
    change (n - k) % 2 ^ 32 = 0 ↔ k = n
    omega
  rw [scanCodes, hz]

theorem setScanResult_left (u : State) {n k : Nat} (next : Word) (hn : n < 2 ^ 16) (hk : k ≤ n) :
    setScanResult u (n - k) next = ((u.setReg .r0 (BitVec.ofNat 32 (n - k))).setReg .r1 next).setCodes
      { n := false, z := decide (k = n), v := false, c := false } := by
  rw [setScanResult, scanCodes_left hn hk]

theorem setTableResult_left (u : State) {n k : Nat} (next tb : Word) (hn : n < 2 ^ 16) (hk : k ≤ n) :
    setTableResult (setScanResult u (n - k) next) tb =
      ((((u.setReg .r0 (BitVec.ofNat 32 (n - k))).setReg .r1 next).setReg .r2 0).setReg .r3 tb).setCodes
        { n := false, z := decide (k = n), v := false, c := false } := by
  rw [setTableResult, setScanResult_left u next hn hk, State.setReg_setCodes, State.setReg_setCodes]

/-! ### Scanning through a table -/

/-- A table scan passes the bytes whose masked entry the test does not stop at (R84, R88). -/
theorem scanString_masked_stopsAt {u : State} {tb : Word} {mk : Byte} {test : Byte → Bool} {n k : Nat} {a : Word}
    (hk : k ≤ n)
    (hpass : ∀ i < k, readableAt u a i ∧ entryReadable u tb (byteAt u a i) ∧
      test (entryOf u tb (byteAt u a i) &&& mk) = false)
    (hstop : k < n → readableAt u a k ∧ entryReadable u tb (byteAt u a k) ∧
      test (entryOf u tb (byteAt u a k) &&& mk) = true) :
    scanString u (fun b => (maskedEntry u tb mk b).map test) n a = .ok (n - k, a + BitVec.ofNat 32 k) := by
  refine scanString_stopsAt hk (fun i hi => ?_) fun h => ?_
  · obtain ⟨hread, hentry, htest⟩ := hpass i hi
    exact ⟨hread, by rw [maskedEntry_ok hentry, Except.map, htest]⟩
  · obtain ⟨hread, hentry, htest⟩ := hstop h
    exact ⟨hread, by rw [maskedEntry_ok hentry, Except.map, htest]⟩

/-- A table scan faults at a string byte or at the entry it selects, whichever may not be read (R35, R162). -/
theorem scanString_masked_faultsAt {u : State} {tb x : Word} {mk : Byte} {test : Byte → Bool} {n k : Nat} {a : Word}
    (hk : k < n) (hread : ∀ i < k, readableAt u a i ∧ entryReadable u tb (byteAt u a i))
    (hpass : ∀ i < k, test (entryOf u tb (byteAt u a i) &&& mk) = false) (hx : unreadableAt u a tb k x) :
    scanString u (fun b => (maskedEntry u tb mk b).map test) n a =
      .error (.exception (.accessViolation x .read) u.mem) := by
  have hgo : ∀ i < k, readableAt u a i ∧ (maskedEntry u tb mk (byteAt u a i)).map test = .ok false := fun i hi =>
    ⟨(hread i hi).1, by rw [maskedEntry_ok (hread i hi).2, Except.map, hpass i hi]⟩
  rcases hx with ⟨hdenied, rfl⟩ | ⟨hbyte, hdenied, rfl⟩
  · exact scanString_faultsAt hk hgo hdenied
  · exact scanString_testStopsAt hk hgo hbyte (by rw [maskedEntry_denied hdenied, Except.map])

/-! ### The three instructions -/

/-- Settles O29: the test of SKPC reads nothing, and stops at a byte that differs. -/
theorem skpcStopsAtFirstOther : Obligations.SkpcStopsAtFirstOther := by
  unfold Obligations.SkpcStopsAtFirstOther
  intro char len addr s u c n a k ho hk hpass hstop
  have hscan := scanString_stopsAt (stops := fun b => .ok (b != c.setWidth 8)) hk
    (fun i hi => ⟨(hpass i hi).1, congrArg Except.ok (bne_eq_false_iff_eq.mpr (hpass i hi).2)⟩)
    fun h => ⟨(hstop h).1, congrArg Except.ok (bne_iff_ne.mpr (hstop h).2)⟩
  rw [exec_of_operandsGive ho, bodyOf, skpcBody, hscan, Res.ok_bind, conclude_ok,
    setScanResult_left u _ (n.setWidth 16).isLt hk]

/-- Settles O30: SCANC's test stops at a nonzero AND. -/
theorem scancStopsAtFirstNonzero : Obligations.ScancStopsAtFirstNonzero := by
  unfold Obligations.ScancStopsAtFirstNonzero
  intro len addr tbladdr mask s u n a tb mk k ho hk hpass hstop
  have hscan := scanString_masked_stopsAt (mk := mk.setWidth 8) (test := fun t => t != 0) hk
    (fun i hi => by simpa using hpass i hi) fun h => by simpa using hstop h
  rw [exec_of_operandsGive ho, bodyOf, scancBody, hscan, Res.ok_bind, conclude_ok,
    setTableResult_left u _ tb (n.setWidth 16).isLt hk]

/-- Settles O31: SPANC's test stops at a zero AND. -/
theorem spancStopsAtFirstZero : Obligations.SpancStopsAtFirstZero := by
  unfold Obligations.SpancStopsAtFirstZero
  intro len addr tbladdr mask s u n a tb mk k ho hk hpass hstop
  have hscan := scanString_masked_stopsAt (mk := mk.setWidth 8) (test := fun t => t == 0) hk
    (fun i hi => by simpa using hpass i hi) fun h => by simpa using hstop h
  rw [exec_of_operandsGive ho, bodyOf, spancBody, hscan, Res.ok_bind, conclude_ok,
    setTableResult_left u _ tb (n.setWidth 16).isLt hk]

/-- Settles O32: a string of no bytes is at its end at position 0, where no byte was read. -/
theorem zeroLengthScansSetZ : Obligations.ZeroLengthScansSetZ := by
  unfold Obligations.ZeroLengthScansSetZ
  have none_passed : ∀ P : Nat → Prop, ∀ i < 0, P i := fun _ i hi => absurd hi i.not_lt_zero
  refine ⟨fun char len addr s u c n a ho hn => ?_, fun len addr tbladdr mask s u n a tb mk ho hn => ?_,
    fun len addr tbladdr mask s u n a tb mk ho hn => ?_⟩
  · have h := skpcStopsAtFirstOther char len addr s u c n a 0 ho (Nat.zero_le _) (none_passed _)
      fun h0 => absurd h0 (by omega)
    exact ⟨_, h, by simp [hn], by simp, by simp [hn]⟩
  · have h := scancStopsAtFirstNonzero len addr tbladdr mask s u n a tb mk 0 ho (Nat.zero_le _) (none_passed _)
      fun h0 => absurd h0 (by omega)
    exact ⟨_, h, by simp [hn], by simp, by simp, by simp, by simp [hn]⟩
  · have h := spancStopsAtFirstZero len addr tbladdr mask s u n a tb mk 0 ho (Nat.zero_le _) (none_passed _)
      fun h0 => absurd h0 (by omega)
    exact ⟨_, h, by simp [hn], by simp, by simp, by simp, by simp [hn]⟩

/-- Settles O33: the loop stops at the first read that is not allowed, and nothing was stored before it. -/
theorem scansFaultAtUnreadableByte : Obligations.ScansFaultAtUnreadableByte := by
  unfold Obligations.ScansFaultAtUnreadableByte
  refine ⟨fun char len addr s u c n a k ho hk hpass hdenied => ?_,
    fun len addr tbladdr mask s u n a tb mk x k hk hread hx => ⟨fun ho hpass => ?_, fun ho hpass => ?_⟩⟩
  · have hscan := scanString_faultsAt (stops := fun b => .ok (b != c.setWidth 8)) hk
      (fun i hi => ⟨(hpass i hi).1, congrArg Except.ok (bne_eq_false_iff_eq.mpr (hpass i hi).2)⟩) hdenied
    rw [exec_of_operandsGive ho, bodyOf, skpcBody, hscan, operandsGive_mem ho]
    rfl
  · have hscan := scanString_masked_faultsAt (mk := mk.setWidth 8) (test := fun t => t != 0) hk hread
      (fun i hi => by simpa using hpass i hi) hx
    rw [exec_of_operandsGive ho, bodyOf, scancBody, hscan, operandsGive_mem ho]
    rfl
  · have hscan := scanString_masked_faultsAt (mk := mk.setWidth 8) (test := fun t => t == 0) hk hread
      (fun i hi => by simpa using hpass i hi) hx
    rw [exec_of_operandsGive ho, bodyOf, spancBody, hscan, operandsGive_mem ho]
    rfl

end Sys2Proof.Machine
end

section
/-! SUPPORT. MOVTUC on evaluated operands: the bytes it moves, where it stops, and the forbidden overlaps
(spec/40_character_string.md R81 to R83, spec/20_memory.md R35, R43). -/

namespace Sys2Proof.Machine

theorem ResultFrame.unchangedBut {u t : State} {rs : List Reg} (h : ResultFrame u t rs) :
    Machine.unchangedBut u t rs := ⟨h.regs, h.psl, h.platform⟩

theorem conclude_accessViolation (p a : Word) (k : AccessKind) (mem : Memory) :
    conclude p (.error (.exception (.accessViolation a k) mem)) = .fault (.accessViolation p a k mem) := rfl

/-! ### One position of the loop -/

/-- The loop ends where a string is exhausted (R81). -/
theorem translateString_exhausted (esc : Byte) (tb src dst : Word) (s : State) {n m : Nat} (h : n = 0 ∨ m = 0) :
    translateString esc tb n m src dst s = .ok ⟨n, src, m, dst, false, s⟩ := by
  rcases h with rfl | rfl
  · rfl
  · cases n <;> rfl

theorem readByte_denied {s : State} {a : Word} (h : s.platform.accessible a .read = false) :
    readByte s a = .error (.exception (.accessViolation a .read) s.mem) := by
  simp only [readByte, h, Bool.false_eq_true, if_false, raise]

/-- A source byte, or the entry it selects, that may not be read is reported (R35). -/
theorem translateString_unreadable {s : State} (esc : Byte) {tb src x : Word} (dst : Word) (n m : Nat)
    (h : unreadableAt s src tb 0 x) :
    translateString esc tb (n + 1) (m + 1) src dst s = .error (.exception (.accessViolation x .read) s.mem) := by
  simp only [unreadableAt, readableAt, byteAt, addr_zero] at h
  rcases h with ⟨hdenied, rfl⟩ | ⟨hread, hdenied, rfl⟩
  · simp only [translateString, readByte_denied hdenied, Res.error_bind]
  · simp only [translateString, readByte_ok hread, readByte_denied hdenied, Res.ok_bind, Res.error_bind]

/-- Past the reads, a byte that is not the escape is stored, or what stops the store stops the loop (R81). -/
theorem translateString_store_error {s : State} {esc : Byte} {tb src dst : Word} {e : Stop} (n m : Nat)
    (hread : s.platform.accessible src .read = true)
    (hentry : s.platform.accessible (tb + (s.mem.get src.toNat).setWidth 32) .read = true)
    (hesc : s.mem.get (tb + (s.mem.get src.toNat).setWidth 32).toNat ≠ esc)
    (hstore : memWrite s dst 1 ((s.mem.get (tb + (s.mem.get src.toNat).setWidth 32).toNat).setWidth 32) = .error e) :
    translateString esc tb (n + 1) (m + 1) src dst s = .error e := by
  simp only [translateString, readByte_ok hread, readByte_ok hentry, Res.ok_bind, if_neg hesc, hstore, Res.error_bind]

theorem memWrite_byte_denied {s : State} {a : Word} (v : Word) (h : s.platform.accessible a .write = false) :
    memWrite s a 1 v = .error (.exception (.accessViolation a .write) s.mem) := by
  simp only [memWrite, checkAccess, h, Bool.false_eq_true, if_false, raise]

theorem memWrite_byte_code {s : State} {a : Word} (v : Word) (hw : s.platform.accessible a .write = true)
    (hc : s.platform.inCode a = true) : memWrite s a 1 v = .error (.refusal (.storeIntoCode a)) := by
  simp only [memWrite, checkAccess, checkCode, hw, hc, if_true, refuse]

/-! ### What is behind the loop -/

theorem setWidth_eq_ofNat (b : Byte) : b.setWidth 32 = BitVec.ofNat 32 b.toNat := by
  rw [BitVec.ofNat_toNat]

/-- Without a forbidden overlap no entry of the table is a destination byte (R82). -/
theorem entry_ne_destination {a tb d : Word} {n m : Nat} (h : ¬ forbiddenOverlap a n tb d m) (b : Byte) :
    ∀ j < m, tb + b.setWidth 32 ≠ d + BitVec.ofNat 32 j := fun j hj he =>
  h (.inl ⟨j, hj, b.toNat, b.isLt, by rw [← he, setWidth_eq_ofNat]⟩)

/-- Without a forbidden overlap no source byte is a destination byte, unless the two strings begin together (R82). -/
theorem source_ne_destination {a tb d : Word} {n m : Nat} (h : ¬ forbiddenOverlap a n tb d m) :
    a = d ∨ ∀ i < n, ∀ j < m, a + BitVec.ofNat 32 i ≠ d + BitVec.ofNat 32 j := by
  by_cases had : a = d
  · exact .inl had
  · exact .inr fun i hi j hj he => h (.inr ⟨⟨i, hi, j, hj, he⟩, had⟩)

/-- The bytes stored leave the source bytes still to be read as they were: those stored from the same string are
behind. -/
theorem source_kept {u : State} {mem : Memory} {a tb d : Word} {n m k : Nat} (hov : ¬ forbiddenOverlap a n tb d m)
    (hn : n < 2 ^ 16) (hkn : k < n) (hkm : k ≤ m) (h : storedBelow u mem a tb d k) :
    mem.get (a + BitVec.ofNat 32 k).toNat = byteAt u a k := by
  refine h.2 _ fun i hi he => ?_
  rcases source_ne_destination hov with rfl | hne
  · exact addr_ne a (by omega) (by omega) (by omega : k ≠ i) he
  · exact hne k hkn i (by omega) (BitVec.eq_of_toNat_eq he)

/-- The bytes stored leave the table as it was. -/
theorem entry_kept {u : State} {mem : Memory} {a tb d : Word} {n m k : Nat} (hov : ¬ forbiddenOverlap a n tb d m)
    (hkm : k ≤ m) (h : storedBelow u mem a tb d k) (b : Byte) :
    mem.get (tb + b.setWidth 32).toNat = entryOf u tb b :=
  h.2 _ fun i hi he => entry_ne_destination hov b i (by omega) (BitVec.eq_of_toNat_eq he)

/-- The loop with `k` bytes behind it: it goes on from the state in which those are stored (R81, R83). -/
theorem translateString_movesBelow {u : State} {e : Byte} {a tb d : Word} {n m k : Nat}
    (hov : ¬ forbiddenOverlap a n tb d m) (hn : n < 2 ^ 16) (hkn : k ≤ n) (hkm : k ≤ m)
    (hmoves : movesBelow u a e tb d k) :
    ∃ mem, storedBelow u mem a tb d k ∧
      translateString e tb n m a d u =
        translateString e tb (n - k) (m - k) (a + BitVec.ofNat 32 k) (d + BitVec.ofNat 32 k) { u with mem := mem } := by
  obtain ⟨mem, hstored, hother, hloop⟩ := translateString_prefix hn hkn hkm (source_ne_destination hov)
    (entry_ne_destination hov) (translated u a tb) (fun _ _ => rfl) (fun i hi => (hmoves i hi).1)
    (fun i hi => (hmoves i hi).2.1) fun i hi => (hmoves i hi).2.2
  exact ⟨mem, ⟨hstored, hother⟩, hloop⟩

/-- Short of both ends the loop with `k` bytes behind it comes to position `k`, the string's byte there and the table
being as they were. -/
theorem translateString_reaches {u : State} {e : Byte} {a tb d : Word} {n m k : Nat}
    (hov : ¬ forbiddenOverlap a n tb d m) (hn : n < 2 ^ 16) (hkn : k < n) (hkm : k < m)
    (hmoves : movesBelow u a e tb d k) :
    ∃ mem n' m', storedBelow u mem a tb d k ∧ mem.get (a + BitVec.ofNat 32 k).toNat = byteAt u a k ∧
      (∀ b : Byte, mem.get (tb + b.setWidth 32).toNat = entryOf u tb b) ∧
      translateString e tb n m a d u = translateString e tb (n' + 1) (m' + 1) (a + BitVec.ofNat 32 k)
        (d + BitVec.ofNat 32 k) { u with mem := mem } := by
  obtain ⟨mem, hmem, hloop⟩ := translateString_movesBelow hov hn hkn.le hkm.le hmoves
  refine ⟨mem, n - k - 1, m - k - 1, hmem, source_kept hov hn hkn hkm.le hmem, entry_kept hov hkm.le hmem, ?_⟩
  rw [hloop, Nat.sub_add_cancel (by omega), Nat.sub_add_cancel (by omega)]

/-- The loop that moves `k` bytes and then meets the escape or the end of a string (R81). -/
theorem translateString_stopsAt {u : State} {e : Byte} {a tb d : Word} {n m k : Nat}
    (hov : ¬ forbiddenOverlap a n tb d m) (hn : n < 2 ^ 16) (hkn : k ≤ n) (hkm : k ≤ m)
    (hmoves : movesBelow u a e tb d k)
    (hstop : k < n → k < m → translationReadable u a tb k ∧ translated u a tb k = e) :
    ∃ mem, storedBelow u mem a tb d k ∧
      translateString e tb n m a d u = .ok ⟨n - k, a + BitVec.ofNat 32 k, m - k, d + BitVec.ofNat 32 k,
        decide (k < n ∧ k < m), { u with mem := mem }⟩ := by
  obtain ⟨mem, hmem, hloop⟩ := translateString_movesBelow hov hn hkn hkm hmoves
  refine ⟨mem, hmem, hloop.trans ?_⟩
  by_cases hend : k < n ∧ k < m
  · obtain ⟨⟨hread, hentry⟩, hesc⟩ := hstop hend.1 hend.2
    have hsource := source_kept hov hn hend.1 hkm hmem
    have hstep := translateString_escape (s := { u with mem := mem }) (n := n - k - 1) (m := m - k - 1)
      (dst := d + BitVec.ofNat 32 k) hread (by simpa only [hsource] using hentry)
      (by simpa only [hsource, entry_kept hov hkm hmem] using hesc)
    rwa [Nat.sub_add_cancel (by omega), Nat.sub_add_cancel (by omega), ← decide_eq_true hend] at hstep
  · rw [decide_eq_false hend]
    exact translateString_exhausted _ _ _ _ _ (by omega)

/-- The loop that moves `k` bytes and then may not read one faults on it, those bytes staying stored (R35, R162). -/
theorem translateString_unreadableAt {u : State} {e : Byte} {a tb d x : Word} {n m k : Nat}
    (hov : ¬ forbiddenOverlap a n tb d m) (hn : n < 2 ^ 16) (hkn : k < n) (hkm : k < m)
    (hmoves : movesBelow u a e tb d k) (hx : unreadableAt u a tb k x) :
    ∃ mem, storedBelow u mem a tb d k ∧
      translateString e tb n m a d u = .error (.exception (.accessViolation x .read) mem) := by
  obtain ⟨mem, n', m', hmem, hsource, hentry, hloop⟩ := translateString_reaches hov hn hkn hkm hmoves
  refine ⟨mem, hmem, hloop.trans ?_⟩
  refine translateString_unreadable (s := { u with mem := mem }) e _ n' m' ?_
  simp only [unreadableAt, readableAt, byteAt, addr_zero, hsource]
  exact hx

/-- The loop that moves `k` bytes and then may not store one stops as that store does, those bytes staying stored. -/
theorem translateString_unstorableAt {u : State} {e : Byte} {a tb d : Word} {n m k : Nat} {stop : Memory → Stop}
    (hov : ¬ forbiddenOverlap a n tb d m) (hn : n < 2 ^ 16) (hkn : k < n) (hkm : k < m)
    (hmoves : movesBelow u a e tb d k) (hread : translationReadable u a tb k) (hesc : translated u a tb k ≠ e)
    (hstore : ∀ mem v, memWrite { u with mem := mem } (d + BitVec.ofNat 32 k) 1 v = .error (stop mem)) :
    ∃ mem, storedBelow u mem a tb d k ∧ translateString e tb n m a d u = .error (stop mem) := by
  obtain ⟨mem, n', m', hmem, hsource, hentry, hloop⟩ := translateString_reaches hov hn hkn hkm hmoves
  refine ⟨mem, hmem, hloop.trans ?_⟩
  refine translateString_store_error (s := { u with mem := mem }) n' m' hread.1 ?_ ?_ (hstore mem _) <;>
    simp only [hsource]
  · exact hread.2
  · rw [hentry]
    exact hesc

/-! ### The body -/

theorem movtucBody_of_overlap {n a tb m d : Word} (e : Byte) (u : State)
    (h : forbiddenOverlap a (lengthOf n) tb d (lengthOf m)) :
    movtucBody (n.setWidth 16) a e tb (m.setWidth 16) d u =
      (checkCode u d (lengthOf m) >>= fun _ => .ok (drawnTranslateResult (n.setWidth 16) (m.setWidth 16) d u)) :=
  if_pos ((overlapUnpredictable_iff _ _ _ _ _).mpr h)

theorem movtucBody_of_no_overlap {n a tb m d : Word} (e : Byte) (u : State)
    (h : ¬ forbiddenOverlap a (lengthOf n) tb d (lengthOf m)) :
    movtucBody (n.setWidth 16) a e tb (m.setWidth 16) d u =
      (translateString e tb (lengthOf n) (lengthOf m) a d u >>= fun r =>
        .ok ((setTranslateResult r tb).setCodes (movtucCodes (n.setWidth 16) (m.setWidth 16) r.escaped))) :=
  if_neg fun ho => h ((overlapUnpredictable_iff _ _ _ _ _).mp ho)

/-- MOVTUC's codes compare the lengths (R16, R81). -/
theorem movtucCodes_lengths (n m : Word) (v : Bool) :
    movtucCodes (n.setWidth 16) (m.setWidth 16) v =
      { n := (n.setWidth 16).slt (m.setWidth 16), z := decide (lengthOf n = lengthOf m), v := v,
        c := decide (lengthOf n < lengthOf m) } := by
  have hz : (n.setWidth 16 == m.setWidth 16) = decide (lengthOf n = lengthOf m) := by
    rw [Bool.eq_iff_iff, beq_iff_eq, decide_eq_true_iff, BitVec.toNat_inj]
  rw [movtucCodes, hz]
  rfl

/-- What MOVTUC draws leaves N, Z and C those of the lengths (R82). -/
theorem drawnTranslateResult_codes (n m : Word16) (d : Word) (u : State) :
    ∃ v, (drawnTranslateResult n m d u).codes = movtucCodes n m v := ⟨_, State.codes_setCodes _ _⟩

/-- The result registers of R81, the codes being set last. -/
theorem setTranslateResult_regs (r : Translation) (tb : Word) (k : Codes) :
    ((setTranslateResult r tb).setCodes k).reg .r0 = BitVec.ofNat 32 r.srcLeft ∧
    ((setTranslateResult r tb).setCodes k).reg .r1 = r.src ∧ ((setTranslateResult r tb).setCodes k).reg .r2 = 0 ∧
    ((setTranslateResult r tb).setCodes k).reg .r3 = tb ∧
    ((setTranslateResult r tb).setCodes k).reg .r4 = BitVec.ofNat 32 r.dstLeft ∧
    ((setTranslateResult r tb).setCodes k).reg .r5 = r.dst := by
  simp [setTranslateResult]

/-- Settles O34: the loop stores the translations of the source bytes as they stood, and stops where the operands
say. -/
theorem movtucMovesTranslatedBytes : Obligations.MovtucMovesTranslatedBytes := by
  unfold Obligations.MovtucMovesTranslatedBytes
  intro srclen srcaddr esc tbladdr dstlen dstaddr s u n a e tb m d k ho hov hkn hkm hmoves hstop
  obtain ⟨mem, hmem, hloop⟩ := translateString_stopsAt hov (n.setWidth 16).isLt hkn hkm hmoves hstop
  have hexec := exec_of_operandsGive ho
  rw [bodyOf, movtucBody_of_no_overlap _ u hov, hloop, Res.ok_bind, conclude_ok] at hexec
  refine ⟨_, hexec, ?_⟩
  generalize hr : Translation.mk _ _ _ _ _ _ = r
  have hframe := (setTranslateResult_frame (u := u) (mem := mem) (r := r) tb (by rw [← hr])).setCodes
    (movtucCodes (n.setWidth 16) (m.setWidth 16) r.escaped)
  obtain ⟨h0, h1, h2, h3, h4, h5⟩ :=
    setTranslateResult_regs r tb (movtucCodes (n.setWidth 16) (m.setWidth 16) r.escaped)
  rw [h0, h1, h2, h3, h4, h5, State.codes_setCodes, State.setCodes_mem, setTranslateResult_mem]
  rw [movtucCodes_lengths] at hframe ⊢
  subst hr
  exact ⟨rfl, rfl, rfl, rfl, rfl, rfl, rfl, hmem, hframe.pc, hframe.unchangedBut⟩

/-- Settles O35: the destination is drawn, no access being checked, and the frame is that of the draws. -/
theorem movtucForbiddenOverlapCompletes : Obligations.MovtucForbiddenOverlapCompletes := by
  unfold Obligations.MovtucForbiddenOverlapCompletes
  intro srclen srcaddr esc tbladdr dstlen dstaddr s u n a e tb m d ho hov hcode
  have hexec : exec (.movtuc srclen srcaddr esc tbladdr dstlen dstaddr) s =
      .next (drawnTranslateResult (n.setWidth 16) (m.setWidth 16) d u) := by
    rw [exec_of_operandsGive ho, bodyOf, movtucBody_of_overlap _ u hov, (checkCode_ok_iff u d _).mpr hcode, Res.ok_bind,
      conclude_ok]
  have hframe := drawnTranslateResult_frame (n.setWidth 16) (m.setWidth 16) d u
  obtain ⟨v, hv⟩ := drawnTranslateResult_codes (n.setWidth 16) (m.setWidth 16) d u
  rw [movtucCodes_lengths] at hv
  refine ⟨_, hexec, by rw [hv], by rw [hv], by rw [hv], hframe.pc, hframe.unchangedBut, fun x hx => ?_⟩
  rw [drawnTranslateResult_mem]
  exact drawBytes_mem u d (lengthOf m) x hx

/-- Settles O36: the loop faults at position `k`, in a memory that holds the bytes stored below it. -/
theorem movtucStoresBeforeFaultStay : Obligations.MovtucStoresBeforeFaultStay := by
  unfold Obligations.MovtucStoresBeforeFaultStay
  intro srclen srcaddr esc tbladdr dstlen dstaddr s u n a e tb m d k ho hov hkn hkm hmoves
  refine ⟨fun x hx => ?_, fun hread hesc hdenied => ?_⟩
  · obtain ⟨mem, hmem, hloop⟩ := translateString_unreadableAt hov (n.setWidth 16).isLt hkn hkm hmoves hx
    exact ⟨mem, by rw [exec_of_operandsGive ho, bodyOf, movtucBody_of_no_overlap _ u hov, hloop, Res.error_bind,
      conclude_accessViolation], hmem⟩
  · obtain ⟨mem, hmem, hloop⟩ := translateString_unstorableAt hov (n.setWidth 16).isLt hkn hkm hmoves hread hesc
      fun mem v => memWrite_byte_denied (s := { u with mem := mem }) v hdenied
    exact ⟨mem, by rw [exec_of_operandsGive ho, bodyOf, movtucBody_of_no_overlap _ u hov, hloop, Res.error_bind,
      conclude_accessViolation], hmem⟩

/-- Settles O37: a store checks the program's extents after the access, and so does the draw of a destination. -/
theorem movtucStoreIntoCodeRefused : Obligations.MovtucStoreIntoCodeRefused := by
  unfold Obligations.MovtucStoreIntoCodeRefused
  intro srclen srcaddr esc tbladdr dstlen dstaddr s u n a e tb m d k ho hkm hcode
  refine ⟨fun hov hkn hmoves hread hesc hwrite => ?_, fun hov hbelow => ?_⟩
  · obtain ⟨mem, -, hloop⟩ := translateString_unstorableAt hov (n.setWidth 16).isLt hkn hkm hmoves hread hesc
      fun mem v => memWrite_byte_code (s := { u with mem := mem }) v hwrite hcode
    rw [exec_of_operandsGive ho, bodyOf, movtucBody_of_no_overlap _ u hov, hloop, Res.error_bind, conclude_refusal]
  · rw [exec_of_operandsGive ho, bodyOf, movtucBody_of_overlap _ u hov, checkCode_first hkm hbelow hcode,
      Res.error_bind, conclude_refusal]

end Sys2Proof.Machine
end

section
/-! SUPPORT. CRC on evaluated operands: the table steps are the bit-serial algorithm (spec/41_crc.md R110 to R119). -/

namespace Sys2Proof.Machine

/-! ### Table steps and single shifts -/

/-- The steps of a byte make eight shifts, whatever their size (R116). -/
theorem CrcShift.bits_mul_limit (sh : CrcShift) : sh.bits * sh.limit = 8 := by cases sh <;> rfl

theorem crcByte_crcTableEntry (sh : CrcShift) (poly crc : Word) (b : Byte) :
    crcByte sh (crcTableEntry poly) crc b = crcByteSerial poly crc b := by
  have hstep : crcStep sh (crcTableEntry poly) = (crcShiftBit poly)^[sh.bits] := funext (crcStep_eq sh poly)
  rw [crcByte, hstep, ← Function.iterate_mul, sh.bits_mul_limit, crcByteSerial]

/-- Settles O42: a table step is as many single shifts as it has bits. -/
theorem stepSizesAgree : Obligations.StepSizesAgree := by
  unfold Obligations.StepSizesAgree
  exact crcByte_crcTableEntry

/-- A byte included with a table in memory for a polynomial is included bit by bit (R111, R114). -/
theorem crcByte_of_tableFor (sh : CrcShift) {u : State} {tb poly : Word} (h : tableFor u tb poly) :
    crcByte sh (crcEntry u.mem tb) = crcByteSerial poly := by
  have hstep : crcStep sh (crcEntry u.mem tb) = crcStep sh (crcTableEntry poly) := funext (crcStep_congr h)
  funext crc b
  rw [← crcByte_crcTableEntry sh, crcByte, hstep, crcByte]

theorem crcSerial_append (poly crc : Word) (bs bs' : List Byte) :
    crcSerial poly crc (bs ++ bs') = crcSerial poly (crcSerial poly crc bs) bs' := List.foldl_append

/-! ### Short polynomials -/

theorem crcShiftBit_lt {poly v : Word} (hp : poly.toNat < 2 ^ 16) (hv : v.toNat < 2 ^ 16) :
    (crcShiftBit poly v).toNat < 2 ^ 16 := by
  have hshift : (v >>> 1).toNat < 2 ^ 16 := by
    rw [BitVec.toNat_ushiftRight, Nat.shiftRight_eq_div_pow]
    omega
  unfold crcShiftBit
  split
  · rw [BitVec.toNat_xor]
    exact Nat.xor_lt_two_pow hshift hp
  · exact hshift

theorem crcByteSerial_lt {poly crc : Word} (b : Byte) (hp : poly.toNat < 2 ^ 16) (hc : crc.toNat < 2 ^ 16) :
    (crcByteSerial poly crc b).toNat < 2 ^ 16 := by
  have hinclude : (crcInclude crc b).toNat < 2 ^ 16 := by
    have hb := b.isLt
    rw [crcInclude, BitVec.toNat_xor, BitVec.toNat_setWidth]
    exact Nat.xor_lt_two_pow hc (by omega)
  exact Function.Iterate.rec (fun v : Word => v.toNat < 2 ^ 16) hinclude (fun _ hv => crcShiftBit_lt hp hv) 8

/-- Settles O45, by induction on the string: neither a shift nor a byte sets a bit above the low sixteen. -/
theorem shortPolynomialsKeepUpperBitsZero : Obligations.ShortPolynomialsKeepUpperBitsZero := by
  unfold Obligations.ShortPolynomialsKeepUpperBitsZero
  intro poly crc bs hp hc
  induction bs generalizing crc with
  | nil => exact hc
  | cons b bs ih => exact ih _ (crcByteSerial_lt b hp hc)

/-- Settles O47: the values are computed. -/
theorem printedPolynomials : Obligations.PrintedPolynomials := by
  unfold Obligations.PrintedPolynomials
  decide

/-! ### The body -/

theorem lengthOf_eq_zero_iff (n : Word) : lengthOf n = 0 ↔ n.setWidth 16 = 0 := by
  rw [lengthOf, ← BitVec.toNat_inj]
  rfl

theorem crcBody_of_length_zero (tb c a : Word) {n : Word} (u : State) (h : lengthOf n = 0) :
    crcBody tb c (n.setWidth 16) a u = .ok (crcResult u (n.setWidth 16) a c) :=
  if_pos ((lengthOf_eq_zero_iff n).mp h)

/-- CRC of a string that is not empty checks the table, reads the string and looks at the table's entries (R111,
R116). -/
theorem crcBody_of_length_ne_zero (tb c a : Word) {n : Word} (u : State) (h : lengthOf n ≠ 0) :
    crcBody tb c (n.setWidth 16) a u = (do
      let _ ← checkAccess u .read tb 64
      let crc ← crcString u tb (lengthOf n) a c
      if crcWellFormed u.mem tb then .ok (crcResult u (n.setWidth 16) a crc)
      else .ok (drawnCrcResult u (n.setWidth 16) a)) :=
  if_neg fun h0 => h ((lengthOf_eq_zero_iff n).mpr h0)

/-- With everything readable only the entries of the table decide between R111 and R115. -/
theorem crcBody_of_readable {tb c a n : Word} {u : State} (h : lengthOf n ≠ 0)
    (htable : ∀ j < 64, readableAt u tb j) (hstring : ∀ i < lengthOf n, readableAt u a i) :
    crcBody tb c (n.setWidth 16) a u =
      if crcWellFormed u.mem tb then .ok (crcResult u (n.setWidth 16) a
        ((stringBytes u a (lengthOf n)).foldl (crcByte u.platform.crcShift (crcEntry u.mem tb)) c))
      else .ok (drawnCrcResult u (n.setWidth 16) a) := by
  rw [crcBody_of_length_ne_zero tb c a u h, (checkAccess_ok_iff u .read tb 64).mpr htable, Res.ok_bind,
    crcString_readable hstring, Res.ok_bind]

/-- With a table for a polynomial the result is the bit-serial CRC (R110, R111). -/
theorem crcBody_of_tableFor {tb c a n poly : Word} {u : State} (htable : ∀ j < 64, readableAt u tb j)
    (hpoly : tableFor u tb poly) (hstring : ∀ i < lengthOf n, readableAt u a i) :
    crcBody tb c (n.setWidth 16) a u =
      .ok (crcResult u (n.setWidth 16) a (crcSerial poly c (stringBytes u a (lengthOf n)))) := by
  by_cases hn : lengthOf n = 0
  · rw [crcBody_of_length_zero tb c a u hn, hn]
    rfl
  · rw [crcBody_of_readable hn htable hstring, if_pos ((crcWellFormed_iff_exists_poly u.mem tb).mpr ⟨poly, hpoly⟩),
      crcByte_of_tableFor _ hpoly, crcSerial]

theorem crcResult_eq (u : State) (n a v : Word) :
    crcResult u (n.setWidth 16) a v =
      ((((u.setReg .r0 v).setReg .r1 0).setReg .r2 0).setReg .r3 (a + BitVec.ofNat 32 (lengthOf n))).setCodes
        { n := v.getLsbD 31, z := v == 0, v := false, c := false } := by
  rw [crcResult, setCrcRest, lengthOf, BitVec.ofNat_toNat, crcCodes]

theorem crcResult_r0 (u : State) (n a v : Word) : (crcResult u (n.setWidth 16) a v).reg .r0 = v := by
  simp [crcResult_eq]

/-- Where R0, N and Z are drawn the rest of CRC's result is fixed (R115). -/
theorem drawnCrcResult_rest (u : State) (n a : Word) :
    (drawnCrcResult u (n.setWidth 16) a).reg .r1 = 0 ∧ (drawnCrcResult u (n.setWidth 16) a).reg .r2 = 0 ∧
    (drawnCrcResult u (n.setWidth 16) a).reg .r3 = a + BitVec.ofNat 32 (lengthOf n) ∧
    (drawnCrcResult u (n.setWidth 16) a).codes.v = false ∧ (drawnCrcResult u (n.setWidth 16) a).codes.c = false := by
  rw [lengthOf, BitVec.ofNat_toNat]
  simp [drawnCrcResult, setCrcRest]

/-! ### The instruction -/

/-- Settles O38: each byte's table steps are eight single shifts with the table's polynomial. -/
theorem crcIsTheBitSerialCrc : Obligations.CrcIsTheBitSerialCrc := by
  unfold Obligations.CrcIsTheBitSerialCrc
  intro tbl inicrc strlen stream s u tb c n a poly ho htable hpoly hstring
  rw [exec_of_operandsGive ho, bodyOf, crcBody_of_tableFor htable hpoly hstring, conclude_ok, crcResult_eq]

/-- Settles O39: an empty stream is looked for before the table and the string are. -/
theorem crcOfEmptyStreamIsInitialCrc : Obligations.CrcOfEmptyStreamIsInitialCrc := by
  unfold Obligations.CrcOfEmptyStreamIsInitialCrc
  intro tbl inicrc strlen stream s u tb c n a ho hn
  rw [exec_of_operandsGive ho, bodyOf, crcBody_of_length_zero tb c a u hn, conclude_ok, crcResult_eq, hn, addr_zero]

/-- Settles O40: the test of R114 fails, and the draws leave everything but R0, N and Z fixed. -/
theorem crcIllFormedTableCompletes : Obligations.CrcIllFormedTableCompletes := by
  unfold Obligations.CrcIllFormedTableCompletes
  intro tbl inicrc strlen stream s u tb c n a ho hn htable hpoly hstring
  have hill : ¬ crcWellFormed u.mem tb = true := fun h => by
    obtain ⟨poly, hp⟩ := (crcWellFormed_iff_exists_poly u.mem tb).mp h
    exact hpoly poly hp
  have hexec : exec (.crc tbl inicrc strlen stream) s = .next (drawnCrcResult u (n.setWidth 16) a) := by
    rw [exec_of_operandsGive ho, bodyOf, crcBody_of_readable hn htable hstring, if_neg hill, conclude_ok]
  obtain ⟨h1, h2, h3, hv, hc⟩ := drawnCrcResult_rest u n a
  have hframe := drawnCrcResult_frame u (n.setWidth 16) a
  exact ⟨_, hexec, h1, h2, h3, hv, hc, hframe.pc, fun x => by rw [drawnCrcResult_mem], hframe.unchangedBut⟩

/-- Settles O41: the table is checked in address order before the string is read in its own. -/
theorem crcFaultsAtUnreadableByte : Obligations.CrcFaultsAtUnreadableByte := by
  unfold Obligations.CrcFaultsAtUnreadableByte
  intro tbl inicrc strlen stream s u tb c n a j ho
  refine ⟨fun hn hj hbelow hdenied => ?_, fun hj htable hbelow hdenied => ?_⟩
  · rw [exec_of_operandsGive ho, bodyOf, crcBody_of_length_ne_zero tb c a u hn,
      checkAccess_first_denied hj hbelow hdenied, Res.error_bind, conclude_accessViolation, operandsGive_mem ho]
  · rw [exec_of_operandsGive ho, bodyOf, crcBody_of_length_ne_zero tb c a u (by omega),
      (checkAccess_ok_iff u .read tb 64).mpr htable, Res.ok_bind, crcString_faultsAt hj hbelow hdenied, Res.error_bind,
      conclude_accessViolation, operandsGive_mem ho]

/-- A CRC with a readable table for a polynomial leaves the bit-serial CRC of its string in R0. -/
theorem exec_of_crcOver {i : Instr} {s u : State} {tb c n a poly : Word} (h : crcOver i s u tb c n a poly) :
    ∃ t, exec i s = .next t ∧ t.reg .r0 = crcSerial poly c (stringBytes u a (lengthOf n)) := by
  obtain ⟨⟨tbl, inicrc, strlen, stream, rfl⟩, ho, htable, hpoly, hstring⟩ := h
  refine ⟨_, ?_, crcResult_r0 u n a _⟩
  rw [exec_of_operandsGive ho, bodyOf, crcBody_of_tableFor htable hpoly hstring, conclude_ok]

/-- Settles O44: the bit-serial CRC of a concatenation goes on from the CRC of its first part. -/
theorem crcContinuesOverParts : Obligations.CrcContinuesOverParts := by
  unfold Obligations.CrcContinuesOverParts
  intro i1 i2 i3 s1 u1 t1 s2 u2 s3 u3 tb1 n1 a1 tb2 n2 a2 tb3 n3 a3 c poly h1 hexec h2 h3 hbytes
  obtain ⟨t, ht, hr⟩ := exec_of_crcOver h1
  obtain ⟨t2, ht2, hr2⟩ := exec_of_crcOver h2
  obtain ⟨t3, ht3, hr3⟩ := exec_of_crcOver h3
  obtain rfl : t = t1 := Host.Outcome.next.inj (ht.symm.trans hexec)
  exact ⟨t2, t3, ht2, ht3, by rw [hr2, hr3, hbytes, crcSerial_append, hr]⟩

end Sys2Proof.Machine
end

section
/-! SUPPORT. Decimal strings: that what is generated reads back, that sources are verified, and how an instruction
completes (spec/42_decimal_string_common.md). -/

namespace Sys2Proof.Machine

theorem Decimal.lt_of_not_overflows {v : Decimal} {digits : Nat} (h : v.overflows digits = false) :
    v.magnitude < 10 ^ digits := by simpa [Decimal.overflows] using h

/-! ### Packed strings -/

theorem packedNibbles_dropLast (v : Decimal) (digits : Nat) :
    (packedNibbles v digits).dropLast = (if digits % 2 = 0 then [0] else []) ++ decimalDigits v.magnitude digits :=
  List.dropLast_concat

theorem packedNibbles_getLast? (v : Decimal) (digits : Nat) :
    (packedNibbles v digits).getLast? = some (signNibble v.negative) := List.getLast?_concat

/-- The sign makes the number of nibbles even, a leading 0 being there when the digits are (R148). -/
theorem packedNibbles_length (v : Decimal) (digits : Nat) : (packedNibbles v digits).length = 2 * (digits / 2 + 1) := by
  unfold packedNibbles
  split <;> simp <;> omega

theorem packedBytes_length (v : Decimal) (digits : Nat) :
    (packedBytes v digits).length = DecimalType.packed.bytes digits := by
  rw [packedBytes, pairNibbles_length, packedNibbles_length, DecimalType.bytes]
  omega

/-- The bytes generated split into the nibbles they were made of (R148). -/
theorem splitNibbles_packedBytes (v : Decimal) (digits : Nat) :
    splitNibbles (packedBytes v digits) = packedNibbles v digits :=
  splitNibbles_pairNibbles _ (by rw [packedNibbles_length]; omega)

theorem packedNibbles_dropLast_le_nine (v : Decimal) (digits : Nat) :
    ∀ d ∈ (packedNibbles v digits).dropLast, d.toNat ≤ 9 := by
  intro d hd
  rw [packedNibbles_dropLast, List.mem_append] at hd
  rcases hd with hd | hd
  · split at hd
    · obtain rfl := List.mem_singleton.mp hd
      decide
    · simp at hd
  · exact decimalDigits_le_nine _ _ d hd

theorem packedNibbles_head? (v : Decimal) {digits : Nat} (h : digits % 2 = 0) :
    (packedNibbles v digits).head? = some 0 := by
  rw [packedNibbles, if_pos h]
  rfl

theorem nine_lt_signNibble (negative : Bool) : 9 < (signNibble negative).toNat := by cases negative <;> decide

theorem signIsMinus_signNibble (negative : Bool) : signIsMinus (signNibble negative) = negative := by
  cases negative <;> rfl

/-- No nibble generated is invalid in its place (R144). -/
theorem packedInvalid_packedBytes (v : Decimal) (digits : Nat) :
    packedInvalid digits (packedBytes v digits) = false := by
  simp only [packedInvalid, splitNibbles_packedBytes, packedNibbles_getLast?, Bool.or_eq_false_iff]
  refine ⟨⟨List.any_eq_false.mpr fun d hd => ?_, ?_⟩, ?_⟩
  · simpa using packedNibbles_dropLast_le_nine v digits d hd
  · simpa using nine_lt_signNibble v.negative
  · by_cases h : digits % 2 = 0
    · simp [packedNibbles_head? v h]
    · simp [h]

/-- The digits generated, the leading 0 among them, read back as the magnitude (R133, R148). -/
theorem packedValue_packedBytes {v : Decimal} {digits : Nat} (h : v.magnitude < 10 ^ digits) :
    packedValue (packedBytes v digits) = v := by
  have hlead : (if digits % 2 = 0 then [0] else []).foldl (fun m (d : BitVec 4) => 10 * m + d.toNat) 0 = 0 := by
    split <;> rfl
  simp only [packedValue, splitNibbles_packedBytes, packedNibbles_getLast?, packedNibbles_dropLast, List.foldl_append,
    hlead, decimalDigits_foldl, Nat.mod_eq_of_lt h, Nat.zero_mul, Nat.zero_add, Option.any_some,
    signIsMinus_signNibble]

/-- Settles O54: the nibbles are paired without loss, and are the digits and the sign. -/
theorem packedStringsReadBack : Obligations.PackedStringsReadBack := by
  unfold Obligations.PackedStringsReadBack
  exact fun v digits h => ⟨packedBytes_length v digits, packedInvalid_packedBytes v digits,
    packedValue_packedBytes (Decimal.lt_of_not_overflows h)⟩

/-! ### Numeric strings -/

theorem leadingSeparateBytes_length (v : Decimal) (digits : Nat) :
    (leadingSeparateBytes v digits).length = DecimalType.leadingSeparate.bytes digits := by
  simp [leadingSeparateBytes, DecimalType.bytes]

theorem separateSignIsMinus_sign (negative : Bool) :
    separateSignIsMinus (if negative then 0x2D else 0x2B) = some negative := by cases negative <;> rfl

theorem leadingSeparateValue_leadingSeparateBytes {v : Decimal} {digits : Nat} (h : v.magnitude < 10 ^ digits) :
    leadingSeparateValue (leadingSeparateBytes v digits) = some v := by
  simp only [leadingSeparateValue, leadingSeparateBytes, separateSignIsMinus_sign, Option.bind_some,
    numericMagnitude_decimalDigits h, Option.map_some]

theorem trailingBytes_length (code : Nat → Bool → Byte) (v : Decimal) (digits : Nat) :
    (trailingBytes code v digits).length = DecimalType.trailing.bytes digits := by
  cases digits <;> simp [trailingBytes, DecimalType.bytes]

/-- A trailing string with a digit reads back through the code of its last byte, which holds the least significant
digit and the sign; the digits before it are those of the rest of the magnitude (R131 to R133). -/
theorem trailingValue_trailingBytes_succ {code : Nat → Bool → Byte} {last : Byte → Option (Nat × Bool)}
    {v : Decimal} {n : Nat} (hcode : ∀ d ≤ 9, ∀ neg, last (code d neg) = some (d, neg))
    (h : v.magnitude < 10 ^ (n + 1)) :
    trailingValue last (trailingBytes code v (n + 1)) = some v := by
  have hrest : v.magnitude / 10 < 10 ^ n := Nat.div_lt_of_lt_mul (by rwa [Nat.pow_succ, Nat.mul_comm] at h)
  have hdigit : v.magnitude % 10 ≤ 9 := by omega
  simp only [trailingValue, trailingBytes, List.getLast?_concat, List.dropLast_concat, hcode _ hdigit, Option.bind_some,
    numericMagnitude_decimalDigits hrest, Option.map_some, Nat.div_add_mod]

/-- The most significant of two digits or more stands first (R132). -/
theorem trailingBytes_first (code : Nat → Bool → Byte) {v : Decimal} {digits : Nat} (hd : 2 ≤ digits)
    (h : v.magnitude < 10 ^ digits) :
    (trailingBytes code v digits)[0]? = some (digitByte (BitVec.ofNat 4 (v.magnitude / 10 ^ (digits - 1)))) := by
  obtain ⟨n, rfl⟩ : ∃ n, digits = n + 2 := ⟨digits - 2, by omega⟩
  have htop : v.magnitude / 10 ^ (n + 1) < 10 := Nat.div_lt_of_lt_mul (by rwa [Nat.pow_succ] at h)
  have hdigit : v.magnitude / 10 / 10 ^ n % 10 = v.magnitude / 10 ^ (n + 1) := by
    rw [Nat.div_div_eq_div_mul, ← Nat.pow_succ', Nat.mod_eq_of_lt htop]
  rw [show n + 2 - 1 = n + 1 by omega, ← hdigit]
  rfl

theorem trailingBytes_last (code : Nat → Bool → Byte) (v : Decimal) {digits : Nat} (hd : 1 ≤ digits) :
    (trailingBytes code v digits)[digits - 1]? = some (code (v.magnitude % 10) v.negative) := by
  obtain ⟨n, rfl⟩ : ∃ n, digits = n + 1 := ⟨digits - 1, by omega⟩
  simp [trailingBytes]

/-- Settles O57: the digits generated read back; a trailing string's last one is read through its code. -/
theorem numericStringsReadBack : Obligations.NumericStringsReadBack := by
  unfold Obligations.NumericStringsReadBack
  intro v digits h
  have hlt := Decimal.lt_of_not_overflows h
  refine ⟨leadingSeparateBytes_length v digits, leadingSeparateValue_leadingSeparateBytes hlt, fun code last hcode =>
    ⟨trailingBytes_length code v digits, ?_, fun hd => trailingBytes_first code hd hlt,
      fun hd => trailingBytes_last code v hd⟩⟩
  cases digits with
  | zero => rfl
  | succ n => exact trailingValue_trailingBytes_succ hcode hlt

/-! ### Verified sources -/

theorem readVerified_of_some {s : State} {a : Word} {n : Nat} {value : List Byte → Option Decimal} {v : Decimal}
    (h : ∀ i < n, readableAt s a i) (hv : value (stringBytes s a n) = some v) : readVerified s a n value = .ok v := by
  rw [readVerified_readable value h, show (List.range n).map _ = stringBytes s a n from rfl, hv]

theorem readVerified_of_none {s : State} {a : Word} {n : Nat} {value : List Byte → Option Decimal}
    (h : ∀ i < n, readableAt s a i) (hv : value (stringBytes s a n) = none) :
    readVerified s a n value = raise s .reservedOperand := by
  rw [readVerified_readable value h, show (List.range n).map _ = stringBytes s a n from rfl, hv]

/-- A reserved operand ends an instruction at its opcode (R161). -/
theorem conclude_map_reservedOperand {α : Type} (p : Word) (s : State) (f : α → State) :
    conclude p ((raise s .reservedOperand : Res α).map f) = .fault (.reservedOperand p) := rfl

/-- The bytes of a leading separate string of no digits: its sign (R147). -/
theorem stringBytes_leadingSeparate_zero (s : State) (a : Word) :
    stringBytes s a (DecimalType.leadingSeparate.bytes 0) = [s.mem.get a.toNat] := by
  simp [stringBytes, byteAt, DecimalType.bytes]

theorem readableAt_leadingSeparate_zero {s : State} {a : Word} (h : s.platform.accessible a .read = true) :
    ∀ i < DecimalType.leadingSeparate.bytes 0, readableAt s a i := by
  intro i hi
  obtain rfl : i = 0 := by
    simp only [DecimalType.bytes] at hi
    omega
  rwa [readableAt, addr_zero]

theorem leadingSeparateValue_singleton (b : Byte) :
    leadingSeparateValue [b] = (separateSignIsMinus b).map fun n => ⟨0, n⟩ := by
  cases h : separateSignIsMinus b <;> simp [leadingSeparateValue, numericMagnitude, h]

/-- The source of no digits is its sign byte: a zero with that sign (R147). -/
theorem readLeadingSeparate_zero {s : State} {a : Word} {neg : Bool} (h : s.platform.accessible a .read = true)
    (hs : separateSignIsMinus (s.mem.get a.toNat) = some neg) : readLeadingSeparate s a 0 = .ok ⟨0, neg⟩ :=
  readVerified_of_some (readableAt_leadingSeparate_zero h)
    (by rw [stringBytes_leadingSeparate_zero, leadingSeparateValue_singleton, hs, Option.map_some])

theorem readLeadingSeparate_zero_invalid {s : State} {a : Word} (h : s.platform.accessible a .read = true)
    (hs : separateSignIsMinus (s.mem.get a.toNat) = none) : readLeadingSeparate s a 0 = raise s .reservedOperand :=
  readVerified_of_none (readableAt_leadingSeparate_zero h)
    (by rw [stringBytes_leadingSeparate_zero, leadingSeparateValue_singleton, hs, Option.map_none])

theorem readLeadingSeparate_zero_denied {s : State} {a : Word} (h : s.platform.accessible a .read = false) :
    readLeadingSeparate s a 0 = raise s (.accessViolation a .read) := by
  simp only [readLeadingSeparate, readVerified, DecimalType.bytes, readDecimalBytes, readByte_denied h, Res.error_bind,
    raise]

/-- The sign bytes (R149). -/
theorem separateSignIsMinus_eq_none {b : Byte} (h : b ∉ [(0x2B : Byte), 0x20, 0x2D]) :
    separateSignIsMinus b = none := by
  simp only [List.mem_cons, List.not_mem_nil, or_false, not_or] at h
  obtain ⟨hplus, hspace, hminus⟩ := h
  rw [separateSignIsMinus, if_neg (not_or.mpr ⟨hplus, hspace⟩), if_neg hminus]

theorem separateSignIsMinus_eq_false {b : Byte} (h : b ∈ [(0x2B : Byte), 0x20]) :
    separateSignIsMinus b = some false := if_pos (by simpa using h)

/-- Settles O58: a source that may be read is what its bytes say, invalid or not; one of no digits has its sign byte
only. -/
theorem numericSourcesAreVerified : Obligations.NumericSourcesAreVerified := by
  unfold Obligations.NumericSourcesAreVerified
  refine ⟨fun s t p a digits h => ⟨fun v hv => readVerified_of_some h hv, fun hv => ?_⟩,
    fun last s t p a digits h => ⟨fun v hv => readVerified_of_some h hv, fun hv => ?_⟩,
    fun s a => ⟨readLeadingSeparate_zero_denied, fun h => ⟨fun hb => ?_, fun hb => ?_, fun hb => ?_⟩⟩⟩
  · rw [readLeadingSeparate, readVerified_of_none h hv, conclude_map_reservedOperand]
  · rw [readTrailing, readVerified_of_none (n := DecimalType.trailing.bytes digits) h hv, conclude_map_reservedOperand]
  · exact readLeadingSeparate_zero_invalid h (separateSignIsMinus_eq_none hb)
  · exact readLeadingSeparate_zero h (separateSignIsMinus_eq_false hb)
  · exact readLeadingSeparate_zero h (by rw [hb]; rfl)

/-! ### Lengths, the control block and the codes -/

/-- Settles O55: by the comparison with 31. -/
theorem decimalLengthAbove31IsReserved : Obligations.DecimalLengthAbove31IsReserved := by
  unfold Obligations.DecimalLengthAbove31IsReserved
  intro s length
  refine ⟨fun h => if_neg (by omega), fun h p => ?_⟩
  rw [checkDecimalLength, if_pos h, conclude_map_reservedOperand]

/-- Settles O56: each is computed. -/
theorem zeroLengthDecimalStrings : Obligations.ZeroLengthDecimalStrings := by
  unfold Obligations.ZeroLengthDecimalStrings
  exact ⟨rfl, rfl, rfl, rfl, rfl, fun _ _ => rfl, fun _ _ _ => rfl, fun _ _ => rfl⟩

theorem DecimalString.mostSignificant_eq (d : DecimalString) :
    d.mostSignificant = d.address + (if d.type = .leadingSeparate then 1 else 0) := by
  cases h : d.type <;> simp [DecimalString.mostSignificant, h]

/-- Settles O59: the block is a run of register writes, each to a register of its own. -/
theorem controlBlockHoldsDigitAddresses : Obligations.ControlBlockHoldsDigitAddresses := by
  unfold Obligations.ControlBlockHoldsDigitAddresses
  intro s first second third
  refine ⟨DecimalString.mostSignificant_eq, ?_⟩
  cases third with
  | none =>
    refine ⟨rfl, rfl, rfl, rfl, fun d hd => by simp at hd, fun r hr _ => ?_⟩
    simp only [List.mem_cons, List.not_mem_nil, or_false, not_or] at hr
    simp [setControlBlock, hr]
  | some d =>
    refine ⟨rfl, rfl, rfl, rfl, fun e he => ?_, fun r hr hr' => ?_⟩
    · obtain rfl : d = e := Option.some.inj he
      exact ⟨rfl, rfl⟩
    · simp only [List.mem_cons, List.not_mem_nil, or_false, not_or, reduceCtorEq, false_or] at hr hr'
      simp [setControlBlock, hr, hr']

/-- N and Z on a decimal result are the comparisons of the integer it denotes with 0 (R139). -/
theorem decimalCodes_n_iff (r : Decimal) (v c : Bool) : (decimalCodes r v c).n = true ↔ r.toInt < 0 := by
  cases h : r.negative <;> simp [decimalCodes, Decimal.toInt, h]

theorem decimalCodes_z_iff (r : Decimal) (v c : Bool) : (decimalCodes r v c).z = true ↔ r.toInt = 0 := by
  cases h : r.negative <;> simp [decimalCodes, Decimal.toInt, h]

/-- Settles O60: the codes are set before the trap looks at DV, which they leave alone. -/
theorem decimalOverflowSetsVAndTraps : Obligations.DecimalOverflowSetsVAndTraps := by
  unfold Obligations.DecimalOverflowSetsVAndTraps
  intro s v digits keep c
  rw [completeDecimal_eq]
  refine ⟨fun hover hdv => ?_, fun hno => ?_⟩
  · rw [hover, hdv]
    rfl
  · have htrap : ¬ (v.overflows digits && pslDV s.psl) = true := by
      rcases hno with h | h <;> simp [h]
    refine ⟨_, if_neg htrap, ?_⟩
    rw [State.codes_setCodes]
    exact ⟨rfl, rfl, decimalCodes_n_iff _ _ _, decimalCodes_z_iff _ _ _, fun r => State.reg_setCodes s _ r,
      fun j hj => pslWithCodes_high s.psl _ hj, fun x => rfl⟩

end Sys2Proof.Machine
end
